-- ==== Sys2Proof/Word.lean ====
section
/-! DEFINITION. The word type: the block's only fixed-width unit is the byte (20_memory.md R60, R73);
every other quantity is a natural (00_scope.md R12, R17). -/

namespace Sys2Proof

/-- One byte of ASSET, WBUF or SURF. -/
abbrev Byte := BitVec 8

end Sys2Proof
end

