-- ==== Sys2Proof/Config.lean ====
section
/-! DEFINITION. What an implementation fixes (00_scope.md R8 to R11, 10_state.md R32), the operands of INIT,
the shapes of the transient registers, and the model's free values (opaque constants: nothing can be proved of them). -/

namespace Sys2Proof

/-- The active decode scheme, fixed per build (00_scope.md R8). -/
inductive Scheme where
  | escRl   -- ESC_RL, byte-escape run-length
  | tagRl   -- TAG_RL, tagged run-length
  | qt      -- QT, quadtree
  deriving DecidableEq, Repr, Inhabited

/-- The surface's pixel format (00_scope.md R10). -/
inductive SurfFmt where
  | packed1
  | indexed8
  deriving DecidableEq, Repr, Inhabited

/-- The configuration registers CFG.* that hold a value of their own (10_state.md R32).
UPB, BPU, NPIX, OFFX, OFFY and FG_BIT are views of these (Machine/Operands.lean). -/
structure Cfg where
  w               : Nat
  h               : Nat
  nframes         : Nat
  fps             : Nat
  scheme          : Scheme
  surfW           : Nat
  surfH           : Nat
  surfFmt         : SurfFmt
  fgIndex         : Byte
  dimsFromSurface : Bool
  round           : Bool
  roundNum        : Nat
  roundDen        : Nat
  qtMaxDepth      : Nat
  /-- the switch of 93_implementation_defined.md U5 (44_quadtree_decoder.md R206), false in the spec's reading -/
  qtSkipEmpty     : Bool
  assetSize       : Nat
  /-- CW, the width that no register of the implementation may reach (00_scope.md R11; log 10) -/
  cw              : Nat
  deriving DecidableEq, Repr, Inhabited

/-- The operands of INIT (46_player_control.md R241): the build's constants as they are given, and the answers the surface port
gives to INIT's queries (bounds, format). The asset port's answer `assetSize()` is no operand: it is the same at every call
(20_memory.md R63) and stands in the state (log 18).
A parameter to which the spec gives no value (00_scope.md R8, R10) has none here either: the operands say it. Only what has a default in the
spec, or is not asked for, may be left out (log 12). -/
structure InitArgs where
  w               : Nat
  h               : Nat
  nframes         : Nat
  fps             : Nat
  /-- the code of 10_state.md R32: 0 ESC_RL, 1 TAG_RL, 2 QT, anything else unknown -/
  schemeCode      : Nat
  /-- units per byte, if the configuration asks for a value (00_scope.md R9; log 12) -/
  upb             : Option Nat := none
  fgIndex         : Byte
  dimsFromSurface : Bool
  round           : Bool
  roundNum        : Nat
  roundDen        : Nat
  /-- QT_MAX_DEPTH, if given (46_player_control.md R241) -/
  qtMaxDepth      : Option Nat := none
  /-- the switch of 93_implementation_defined.md U5, false unless given (log 13) -/
  qtSkipEmpty     : Bool := false
  /-- CW, 32 unless given (00_scope.md R11) -/
  cw              : Nat := 32
  surfW           : Nat
  surfH           : Nat
  /-- the one-bit code of 10_state.md R32: 0 PACKED1, 1 INDEXED8 -/
  surfFmtCode     : BitVec 1
  deriving DecidableEq, Repr, Inhabited

/-- Why INIT refuses a configuration (46_player_control.md R241; `badUnit` for other values than 2, `badRatio` and `noRate`: log 12). -/
inductive CfgDefect where
  | unknownScheme      -- SCHEME code 3 or more
  | badUnit            -- UPB = 2, or any UPB that is neither 1 nor 8
  | dimsWithRunLength  -- DIMS_FROM_SURFACE with a run-length scheme
  | badRatio           -- the round ratio is used and not 0 < ROUND_NUM <= ROUND_DEN
  | emptyCanvas        -- W = 0 or H = 0
  | noFrames           -- NFRAMES = 0
  | noRate             -- FPS = 0 (00_scope.md R8 and 10_state.md R32: a legal FPS is positive)
  | surfaceTooSmall    -- SURF_W < W or SURF_H < H
  deriving DecidableEq, Repr

/-- An entry of QSTK: a rectangle and its depth (10_state.md R29, 44_quadtree_decoder.md R208). -/
structure QNode where
  x : Nat
  y : Nat
  w : Nat
  h : Nat
  d : Nat
  deriving DecidableEq, Repr, Inhabited

/-- The window registers, released by WRELEASE (42_chunk_streamer.md R162). -/
structure Window where
  wcur : Nat
  so   : Nat
  woff : Nat
  wbuf : List Byte
  deriving DecidableEq, Repr, Inhabited

/-- The decoders' working registers (10_state.md R28, R29). -/
structure Work where
  pcnt   : Nat
  cls    : Bool
  run    : Nat
  qstk   : List QNode
  qdepth : Nat
  deriving DecidableEq, Repr, Inhabited

/-- The n-th draw: `draw8()` of 00_scope.md R15, an unconstrained byte (free value, log 4). -/
opaque Config.draw8 : Nat → Byte

/-- What the window registers hold after WRELEASE (unspecified, 10_state.md R34; free value, log 5). -/
opaque Config.freeWindow : Nat → Window

/-- What the decoders' working registers hold between steps (unspecified, 10_state.md R34; free value, log 5). -/
opaque Config.freeWork : Nat → Work

/-- How many tokens RLFRAME may read beyond the ones a frame within its window can need
(the fuel parameter of 93_implementation_defined.md U2, 70_reset_and_hazards.md R304; log 8). -/
opaque Config.drawFuel : Nat

end Sys2Proof
end

