-- ==== Sys2Proof/Syntax.lean ====
section
/-! DEFINITION. The instructions: one constructor per row of spec/opcode_table.json, the nine stream tokens
(30_encoding.md R101) and the twenty operations that have no encoding (30_encoding.md R103). -/

namespace Sys2Proof

inductive Instr where
  -- run tokens: the value field of the token, its run length in pixels (30_encoding.md R92, R93)
  | runE8  (n : BitVec 8)
  | runE24 (n : BitVec 16)
  | runT2  (n : BitVec 2)
  | runT4  (n : BitVec 4)
  | runT8  (n : BitVec 8)
  | runT16 (n : BitVec 16)
  -- quadtree tokens (30_encoding.md R94)
  | qsplit
  | qleafBg
  | qleafFg
  -- cursor primitives (40_bitcursor.md)
  | bit
  | hn
  | nyb
  | byte
  | short
  -- integer codec (41_integer_codec.md)
  | tagv
  | escv
  | readint
  -- chunk streamer (42_chunk_streamer.md)
  | wload
  | wcommit
  | wrelease
  -- run-length decoder (43_run_length_decoder.md): RLPIXEL takes the pixel's index and the class
  | rlframe
  | rlpixel (i : Nat) (c : Bool)
  -- quadtree decoder (44_quadtree_decoder.md): QTNODE takes a rectangle and its depth, FILL a rectangle
  | qtframe
  | qtnode (x y w h d : Nat)
  | fill (x y w h : Nat)
  -- pixel sink (45_pixel_sink.md)
  | setfg (x y : Nat)
  -- player control (46_player_control.md)
  | init (a : InitArgs)
  | step
  | reset
  deriving DecidableEq, Repr

/-- The scheme a token belongs to (30_encoding.md R103); an operation has none. -/
def Instr.scheme? : Instr → Option Scheme
  | .runE8 _ => some .escRl
  | .runE24 _ => some .escRl
  | .runT2 _ => some .tagRl
  | .runT4 _ => some .tagRl
  | .runT8 _ => some .tagRl
  | .runT16 _ => some .tagRl
  | .qsplit => some .qt
  | .qleafBg => some .qt
  | .qleafFg => some .qt
  | .bit => none
  | .hn => none
  | .nyb => none
  | .byte => none
  | .short => none
  | .tagv => none
  | .escv => none
  | .readint => none
  | .wload => none
  | .wcommit => none
  | .wrelease => none
  | .rlframe => none
  | .rlpixel _ _ => none
  | .qtframe => none
  | .qtnode _ _ _ _ _ => none
  | .fill _ _ _ _ => none
  | .setfg _ _ => none
  | .init _ => none
  | .step => none
  | .reset => none

end Sys2Proof
end

