-- ==== Sys2Proof/WellFormed.lean ====
section
/-! DEFINITION. Which terms of Instr are instructions of the hardware. The field widths are in the types; the one
further restriction is that a one-byte run token is never 0xFF, the escape (30_encoding.md R92, R98). -/

namespace Sys2Proof

/-- Whether the term is an instruction the stream or the block's callers can hold. -/
def Instr.wf : Instr → Bool
  | .runE8 n => n != 0xFF#8
  | .runE24 _ => true
  | .runT2 _ => true
  | .runT4 _ => true
  | .runT8 _ => true
  | .runT16 _ => true
  | .qsplit => true
  | .qleafBg => true
  | .qleafFg => true
  | .bit => true
  | .hn => true
  | .nyb => true
  | .byte => true
  | .short => true
  | .tagv => true
  | .escv => true
  | .readint => true
  | .wload => true
  | .wcommit => true
  | .wrelease => true
  | .rlframe => true
  | .rlpixel _ _ => true
  | .qtframe => true
  | .qtnode _ _ _ _ _ => true
  | .fill _ _ _ _ => true
  | .setfg _ _ => true
  | .init _ => true
  | .step => true
  | .reset => true

end Sys2Proof
end

