-- ==== Sys2Proof/Decode.lean ====
section
/-! DEFINITION. The decoder of the compressed stream (30_encoding.md R92 to R103), total on any bits, and the encoder
written from the same tables. Bits are in stream order: the first bit read is the first of the list. -/

namespace Sys2Proof

/-! ### Bits and values, most significant bit first (30_encoding.md R96, 20_memory.md R65) -/

/-- The `n` low bits of `v` in stream order. -/
def toBits : Nat → Nat → List Bool
  | 0, _ => []
  | n + 1, v => v.testBit n :: toBits n v

/-- `acc` followed by the bits `bs`: `v <- v * 2 + bit` for each (40_bitcursor.md R120). -/
def ofBitsFrom : Nat → List Bool → Nat
  | acc, [] => acc
  | acc, b :: bs => ofBitsFrom (acc * 2 + b.toNat) bs

/-- The value of a field whose bits are `bs`, first bit most significant (30_encoding.md R96). -/
def ofBits (bs : List Bool) : Nat := ofBitsFrom 0 bs

/-- The stream bits of a block of bytes: bit 7 of each byte first (20_memory.md R65). -/
def bytesToBits : List Byte → List Bool
  | [] => []
  | b :: bs => toBits 8 b.toNat ++ bytesToBits bs

/-- Take a field of `n` bits off the front. -/
def takeField (n : Nat) (bs : List Bool) : Option (Nat × List Bool) :=
  if n ≤ bs.length then some (ofBits (bs.take n), bs.drop n) else none

/-! ### The decoder -/

/-- Why bits do not decode. No pattern is illegal or reserved (30_encoding.md R98): the one reason is that the bits end
inside the token of that scheme. -/
inductive DecodeError where
  | truncated (s : Scheme)
  deriving DecidableEq, Repr

/-- Under ESC_RL, on the next byte: 0xFF selects RUN.E24, any other RUN.E8 (30_encoding.md R92, R103). -/
def decodeEsc (bs : List Bool) : Except DecodeError (Instr × List Bool) :=
  match takeField 8 bs with
  | none => .error (.truncated .escRl)
  | some (b, rest) =>
    if b = 255 then
      match takeField 16 rest with
      | none => .error (.truncated .escRl)
      | some (n, rest') => .ok (.runE24 (BitVec.ofNat 16 n), rest')
    else .ok (.runE8 (BitVec.ofNat 8 b), rest)

/-- Under TAG_RL, on the next two bits (30_encoding.md R93, R103). -/
def decodeTag (bs : List Bool) : Except DecodeError (Instr × List Bool) :=
  match takeField 2 bs with
  | none => .error (.truncated .tagRl)
  | some (t, rest) =>
    if t = 0 then
      match takeField 2 rest with
      | none => .error (.truncated .tagRl)
      | some (n, rest') => .ok (.runT2 (BitVec.ofNat 2 n), rest')
    else if t = 1 then
      match takeField 4 rest with
      | none => .error (.truncated .tagRl)
      | some (n, rest') => .ok (.runT4 (BitVec.ofNat 4 n), rest')
    else if t = 2 then
      match takeField 8 rest with
      | none => .error (.truncated .tagRl)
      | some (n, rest') => .ok (.runT8 (BitVec.ofNat 8 n), rest')
    else
      match takeField 16 rest with
      | none => .error (.truncated .tagRl)
      | some (n, rest') => .ok (.runT16 (BitVec.ofNat 16 n), rest')

/-- Under QT, on the next bit and, for a leaf, the bit after it (30_encoding.md R94, R103). -/
def decodeQt : List Bool → Except DecodeError (Instr × List Bool)
  | [] => .error (.truncated .qt)
  | true :: rest => .ok (.qsplit, rest)
  | false :: [] => .error (.truncated .qt)
  | false :: false :: rest => .ok (.qleafBg, rest)
  | false :: true :: rest => .ok (.qleafFg, rest)

/-- The token at the front of the bits under the active scheme, and the bits after it. -/
def decode : Scheme → List Bool → Except DecodeError (Instr × List Bool)
  | .escRl, bs => decodeEsc bs
  | .tagRl, bs => decodeTag bs
  | .qt, bs => decodeQt bs

/-! ### The encoder (30_encoding.md R101) -/

/-- A token's bits in stream order; an operation encodes as nothing (30_encoding.md R103). -/
def encode : Instr → List Bool
  | .runE8 n => toBits 8 n.toNat
  | .runE24 n => toBits 8 255 ++ toBits 16 n.toNat
  | .runT2 n => toBits 2 0 ++ toBits 2 n.toNat
  | .runT4 n => toBits 2 1 ++ toBits 4 n.toNat
  | .runT8 n => toBits 2 2 ++ toBits 8 n.toNat
  | .runT16 n => toBits 2 3 ++ toBits 16 n.toNat
  | .qsplit => [true]
  | .qleafBg => [false, false]
  | .qleafFg => [false, true]
  | .bit => []
  | .hn => []
  | .nyb => []
  | .byte => []
  | .short => []
  | .tagv => []
  | .escv => []
  | .readint => []
  | .wload => []
  | .wcommit => []
  | .wrelease => []
  | .rlframe => []
  | .rlpixel _ _ => []
  | .qtframe => []
  | .qtnode _ _ _ _ _ => []
  | .fill _ _ _ _ => []
  | .setfg _ _ => []
  | .init _ => []
  | .step => []
  | .reset => []

/-- The pseudo-token `RUN n` for `n <= 65535`: the shortest form of the scheme (30_encoding.md R102); QT has none. -/
def shortestRun : Scheme → Nat → Option Instr
  | .escRl, n => if n ≤ 254 then some (.runE8 (BitVec.ofNat 8 n)) else some (.runE24 (BitVec.ofNat 16 n))
  | .tagRl, n =>
    if n ≤ 3 then some (.runT2 (BitVec.ofNat 2 n))
    else if n ≤ 15 then some (.runT4 (BitVec.ofNat 4 n))
    else if n ≤ 255 then some (.runT8 (BitVec.ofNat 8 n))
    else some (.runT16 (BitVec.ofNat 16 n))
  | .qt, _ => none

/-! ### Words numbered as spec/opcode_table.json numbers them

The table reads a token as one number whose most significant bit is the first stream bit. The word does not name the
scheme (30_encoding.md R97); a width of 1, 2, 4, 6, 10, 18 or 24 bits does. For a width given in whole bytes the narrowest
row that holds the word is taken (log 3). -/

/-- The scheme and the width in bits of the table row that an `nbits`-bit word `w` is read as. -/
def tableRow (nbits w : Nat) : Option (Scheme × Nat) :=
  if nbits = 1 then (if w = 1 then some (.qt, 1) else none)
  else if nbits = 2 then (if w ≤ 1 then some (.qt, 2) else none)
  else if nbits = 4 then (if w ≤ 3 then some (.tagRl, 4) else none)
  else if nbits = 6 then (if 16 ≤ w ∧ w ≤ 31 then some (.tagRl, 6) else none)
  else if nbits = 8 then
    if w = 1 then some (.qt, 1)
    else if w = 0 then some (.qt, 2)
    else if w ≤ 3 then some (.tagRl, 4)
    else if 16 ≤ w ∧ w ≤ 31 then some (.tagRl, 6)
    else if w ≤ 254 then some (.escRl, 8)
    else none
  else if nbits = 10 ∨ nbits = 16 then (if 512 ≤ w ∧ w ≤ 767 then some (.tagRl, 10) else none)
  else if nbits = 18 ∨ nbits = 24 then
    if 196608 ≤ w ∧ w ≤ 262143 then some (.tagRl, 18)
    else if 16711680 ≤ w ∧ w ≤ 16777215 then some (.escRl, 24)
    else none
  else none

/-- The instruction the decoder reads from a table word. -/
def decodeTableWord (nbits w : Nat) : Option Instr :=
  match tableRow nbits w with
  | none => none
  | some (sch, width) =>
    match decode sch (toBits width w) with
    | .ok (i, _) => some i
    | .error _ => none

end Sys2Proof
end

