-- ==== Sys2Proof/Machine/State.lean ====
section
/-! DEFINITION. The machine's state as plain data (10_state.md, 20_memory.md), the reasons a step can stop, and the state
after reset. -/

namespace Sys2Proof.Machine

/-- Where the block is in the player's state machine (10_state.md R31). -/
inductive Phase where
  | idle
  | streaming
  | fault
  deriving DecidableEq, Repr, Inhabited

/-- PHASE's numeric code (92_eei_decisions.md D21). -/
def Phase.code : Phase → Nat
  | .idle => 0
  | .streaming => 1
  | .fault => 2

/-- What the host can do to the block between steps (46_player_control.md R240, 60_exceptions.md R268). -/
inductive HostAct where
  /-- the command INIT with its operands -/
  | init (a : InitArgs)
  /-- the command STEP, the redraw request -/
  | step
  /-- the host writes byte `v` to byte `c` of surface row `y` (20_memory.md R70), for example to pre-clear it -/
  | surfWrite (y c : Nat) (v : Byte)
  deriving DecidableEq, Repr

/-- A byte memory: (address, byte) pairs, addresses strictly rising, no entry 00, since an unlisted address reads 00 (log 9). -/
abbrev Mem := List Host.Cell

/-- The whole state. -/
structure State where
  -- persistent (10_state.md R20 to R31)
  inited : Bool
  cfg    : Cfg
  cursor : Nat
  fc     : Nat
  pix    : List Bool
  status : BitVec 3
  phase  : Phase
  -- the window, transient (10_state.md R22 to R24); WLEN is the length of wbuf
  wcur   : Nat
  so     : Nat
  woff   : Nat
  wbuf   : List Byte
  -- the decoders' working registers, transient (10_state.md R28, R29)
  pcnt   : Nat
  cls    : Bool
  run    : Nat
  qstk   : List QNode
  qdepth : Nat
  -- the host's memories (20_memory.md R61, R69) and the answer of `assetSize()`, constant for the life of the block (R63; log 18)
  asset     : Mem
  assetSize : Nat
  surf      : Mem
  -- the model's own fields (logs 1, 2, 4, 7)
  busy   : Bool
  res    : Nat
  draws  : Nat
  host   : List HostAct
  deriving DecidableEq, Repr

/-- Why the machine stops with a fault. -/
inductive Fault where
  /-- SETFG (so FILL, RLPIXEL, the tokens and the frame operations) or a host's surface write at a byte outside the surface
  (20_memory.md R70: such an address does not exist). Safe. No state of a run reaches it from inside the block. -/
  | surfaceRange
  /-- RLPIXEL with an index that PIX does not have (43_run_length_decoder.md R182, 92 D5). Safe. -/
  | pixelRange
  /-- RLFRAME, or STEP through it, has read as many tokens as its fuel allows and the frame is not complete: only drawn
  zero-length runs can do it (70_reset_and_hazards.md R304; log 8). Safe. -/
  | frameUnfinished
  deriving DecidableEq, Repr

/-- Why the machine gives an instruction no meaning. -/
inductive Refusal where
  /-- the instruction has no meaning in this model yet -/
  | notModelled (mnemonic : String)
  /-- any operation but INIT before the first INIT (10_state.md R36, 93 U8). Safe. -/
  | beforeInit
  /-- INIT with a configuration the spec refuses (46_player_control.md R241). Safe. -/
  | illFormedConfig (d : CfgDefect)
  /-- INIT or STEP while a STEP runs (70_reset_and_hazards.md R295, 93 U7). Safe. -/
  | overlap
  /-- a primitive whose field is no whole number of units (40_bitcursor.md R126). Safe. -/
  | illegalUnit
  /-- a token or frame operation of a scheme that is not the active one (40_bitcursor.md R126, 92 D28). Safe. -/
  | wrongScheme
  /-- a quadtree token with no rectangle pending: a token outside a frame (44_quadtree_decoder.md R208). Safe. -/
  | noRectangle
  /-- RUN.E8 255, which no stream holds (30_encoding.md R98). Safe. -/
  | escapeByte
  /-- bits that do not decode; raised by the fetch, never (30_encoding.md R98). Safe. -/
  | undecodable
  deriving DecidableEq, Repr

/-- The state before the first INIT. The spec gives every register as unspecified there (10_state.md R36): each value here is
the model's (log 6), but CW, the default of 00_scope.md R11. -/
def State.reset : State where
  inited := false
  cfg :=
    { w := 0, h := 0, nframes := 0, fps := 0, scheme := .escRl, surfW := 0, surfH := 0, surfFmt := .packed1,
      fgIndex := 0#8, dimsFromSurface := false, round := false, roundNum := 0, roundDen := 0, qtMaxDepth := 0,
      qtSkipEmpty := false, assetSize := 0, cw := 32 }
  cursor := 0
  fc := 0
  pix := []
  status := 0#3
  phase := .idle
  wcur := 0
  so := 0
  woff := 0
  wbuf := []
  pcnt := 0
  cls := false
  run := 0
  qstk := []
  qdepth := 0
  asset := []
  assetSize := 0
  surf := []
  busy := false
  res := 0
  draws := 0
  host := []

end Sys2Proof.Machine
end

