-- ==== Sys2Proof/Machine/Operands.lean ====
section
/-! DEFINITION. The operand forms: the configuration's derived registers (00_scope.md R8, R9, 45_pixel_sink.md R222), the
derivation INIT makes (46_player_control.md R241, 45_pixel_sink.md R225), and the split geometry (44_quadtree_decoder.md R202). -/

namespace Sys2Proof

/-- Elementary units per byte, hardwired by the scheme (00_scope.md R9). -/
def Scheme.upb : Scheme → Nat
  | .escRl => 1
  | .tagRl => 8
  | .qt => 8

/-- UPB (10_state.md R32). -/
def Cfg.upb (c : Cfg) : Nat := c.scheme.upb

/-- BPU, bits per elementary unit: `8 div UPB` (00_scope.md R9). -/
def Cfg.bpu (c : Cfg) : Nat := 8 / c.upb

/-- NPIX, pixels per frame and nominal window length (00_scope.md R8). -/
def Cfg.npix (c : Cfg) : Nat := c.w * c.h

/-- The number of entries of PIX: NPIX, none under QT (10_state.md R27). -/
def Cfg.pixCount (c : Cfg) : Nat :=
  match c.scheme with
  | .escRl => c.npix
  | .tagRl => c.npix
  | .qt => 0

/-- The centering vector (45_pixel_sink.md R222). -/
def Cfg.offX (c : Cfg) : Nat := (c.surfW - c.w) / 2
def Cfg.offY (c : Cfg) : Nat := (c.surfH - c.h) / 2

/-- FG_BIT, hardwired 1 (10_state.md R32). -/
def Cfg.fgBit (_ : Cfg) : Bool := true

/-- Bytes of one row buffer (20_memory.md R60, R70). -/
def Cfg.rowBytes (c : Cfg) : Nat :=
  match c.surfFmt with
  | .packed1 => (c.surfW + 7) / 8
  | .indexed8 => c.surfW

/-- The demands of 46_player_control.md R241 that the decoders and the sink rely on: a canvas with pixels, a loop with frames, a
surface that holds the canvas. -/
def Cfg.wf (c : Cfg) : Bool :=
  decide (1 ≤ c.w) && decide (1 ≤ c.h) && decide (1 ≤ c.nframes) && decide (c.w ≤ c.surfW) && decide (c.h ≤ c.surfH)

/-- Every register of the configuration at a legal value (10_state.md R32, 00_scope.md R8 to R11). -/
def Cfg.legal (c : Cfg) : Bool :=
  c.wf && decide (0 < c.fps) && (!c.dimsFromSurface || c.scheme == .qt) &&
    (!(c.dimsFromSurface && c.round) || (decide (0 < c.roundNum) && decide (c.roundNum ≤ c.roundDen)))

/-! ### The numeric codes (10_state.md R32, 92_eei_decisions.md D21) -/

/-- CFG.SCHEME as its two bits. -/
def Scheme.code : Scheme → BitVec 2
  | .escRl => 0#2
  | .tagRl => 1#2
  | .qt => 2#2

/-- CFG.SURF_FMT as its bit. -/
def SurfFmt.code : SurfFmt → BitVec 1
  | .packed1 => 0#1
  | .indexed8 => 1#1

/-- The surface format of a code. -/
def surfFmtOfCode (b : BitVec 1) : SurfFmt := if b = 0#1 then .packed1 else .indexed8

/-! ### Arithmetic of the spec (00_scope.md R12) -/

/-- `ceil2(v)`. -/
def ceil2 (v : Nat) : Nat := (v + 1) / 2

/-- `floor2(v)`. -/
def floor2 (v : Nat) : Nat := v / 2

/-- `ceil(log2(n))`, and 0 for 0 and 1 (00_scope.md R11). -/
def ceilLog2 (n : Nat) : Nat := if n ≤ 1 then 0 else Nat.log2 (n - 1) + 1

/-! ### INIT's derivation -/

/-- CFG.SCHEME's code (10_state.md R32); 3 and above are unknown. -/
def schemeOfCode : Nat → Option Scheme
  | 0 => some .escRl
  | 1 => some .tagRl
  | 2 => some .qt
  | _ + 3 => none

/-- A derived side of the logical canvas from a side of the surface (45_pixel_sink.md R225). -/
def InitArgs.scaled (a : InitArgs) (side : Nat) : Nat :=
  if a.round then side * a.roundNum / a.roundDen else side

/-- The canvas INIT establishes: as given, or derived from the surface (45_pixel_sink.md R225). -/
def InitArgs.canvas (a : InitArgs) : Nat × Nat :=
  if a.dimsFromSurface then (a.scaled a.surfW, a.scaled a.surfH) else (a.w, a.h)

/-- The configuration registers INIT writes under the scheme `sch`, when `assetSize()` answers `size`. -/
def InitArgs.toCfg (a : InitArgs) (size : Nat) (sch : Scheme) : Cfg where
  w := a.canvas.1
  h := a.canvas.2
  nframes := a.nframes
  fps := a.fps
  scheme := sch
  surfW := a.surfW
  surfH := a.surfH
  surfFmt := surfFmtOfCode a.surfFmtCode
  fgIndex := a.fgIndex
  dimsFromSurface := a.dimsFromSurface
  round := a.round
  roundNum := a.roundNum
  roundDen := a.roundDen
  qtMaxDepth := a.qtMaxDepth.getD (ceilLog2 (max a.canvas.1 a.canvas.2))
  qtSkipEmpty := a.qtSkipEmpty
  assetSize := size
  cw := a.cw

/-- Whether the unit asked for, if any, is one the block has (00_scope.md R9, 10_state.md R32: 1 or 8). -/
def InitArgs.unitOk (a : InitArgs) : Bool :=
  match a.upb with
  | none => true
  | some u => u == 1 || u == 8

/-- Whether the round ratio, where it is used, is legal (00_scope.md R10). -/
def InitArgs.ratioOk (a : InitArgs) : Bool :=
  !(a.dimsFromSurface && a.round) || (decide (0 < a.roundNum) && decide (a.roundNum ≤ a.roundDen))

/-- The configuration INIT latches when `assetSize()` answers `size`, or why it refuses the operands (46_player_control.md R241).
The list of R241 names no FPS; that FPS = 0 is refused, since only positive values are legal (00_scope.md R8, 10_state.md R32), is the
model's choice, as are the order of the checks and the check of the round ratio (DESIGN CHOICE: log 12). -/
def InitArgs.derive (a : InitArgs) (size : Nat) : Except CfgDefect Cfg :=
  match schemeOfCode a.schemeCode with
  | none => .error .unknownScheme
  | some sch =>
    if !a.unitOk then .error .badUnit
    else if a.dimsFromSurface && sch != .qt then .error .dimsWithRunLength
    else if !a.ratioOk then .error .badRatio
    else if a.canvas.1 = 0 ∨ a.canvas.2 = 0 then .error .emptyCanvas
    else if a.nframes = 0 then .error .noFrames
    else if a.fps = 0 then .error .noRate
    else if a.surfW < a.canvas.1 ∨ a.surfH < a.canvas.2 then .error .surfaceTooSmall
    else .ok (a.toCfg size sch)

/-! ### Rectangles (44_quadtree_decoder.md R202) -/

/-- The root: the whole logical canvas at depth 0 (44_quadtree_decoder.md R200). -/
def Cfg.root (c : Cfg) : QNode where
  x := 0
  y := 0
  w := c.w
  h := c.h
  d := 0

/-- Top-left child. -/
def QNode.tl (r : QNode) : QNode where
  x := r.x
  y := r.y
  w := ceil2 r.w
  h := ceil2 r.h
  d := r.d + 1

/-- Top-right child. -/
def QNode.tr (r : QNode) : QNode where
  x := r.x + ceil2 r.w
  y := r.y
  w := floor2 r.w
  h := ceil2 r.h
  d := r.d + 1

/-- Bottom-left child. -/
def QNode.bl (r : QNode) : QNode where
  x := r.x
  y := r.y + ceil2 r.h
  w := ceil2 r.w
  h := floor2 r.h
  d := r.d + 1

/-- Bottom-right child. -/
def QNode.br (r : QNode) : QNode where
  x := r.x + ceil2 r.w
  y := r.y + ceil2 r.h
  w := floor2 r.w
  h := floor2 r.h
  d := r.d + 1

/-- Whether a child carries a node in the stream: always, but for empty ones under QT_SKIP_EMPTY
(44_quadtree_decoder.md R206, 93_implementation_defined.md U5). -/
def Cfg.visits (c : Cfg) (r : QNode) : Bool :=
  !(c.qtSkipEmpty && (r.w == 0 || r.h == 0))

/-- The children a split leaves to decode, in the fixed order (44_quadtree_decoder.md R203). -/
def Cfg.children (c : Cfg) (r : QNode) : List QNode :=
  [r.tl, r.tr, r.bl, r.br].filter c.visits

end Sys2Proof
end

