-- ==== Sys2Proof/Machine/Flags.lean ====
section
/-! DEFINITION. STATUS and the three conditions that set its bits (10_state.md R30, 60_exceptions.md R260). -/

namespace Sys2Proof.Machine

/-- The recorded conditions (60_exceptions.md R260). -/
inductive Condition where
  | ovr
  | rlx
  | qto
  deriving DecidableEq, Repr

/-- The STATUS bit of a condition (10_state.md R30). -/
def Condition.code : Condition → Nat
  | .ovr => 0
  | .rlx => 1
  | .qto => 2

/-- STATUS with the condition's bit set; the bits are sticky (10_state.md R30). -/
def Condition.set (c : Condition) (status : BitVec 3) : BitVec 3 := status ||| (1#3 <<< c.code)

/-- Whether STATUS records the condition. -/
def Condition.recorded (c : Condition) (status : BitVec 3) : Bool := status.getLsbD c.code

/-- `raise`: record the condition (00_scope.md R14). -/
def State.raise (s : State) (c : Condition) : State := { s with status := c.set s.status }

end Sys2Proof.Machine
end

