-- ==== Sys2Proof/Machine/Ops.lean ====
section
/-! DEFINITION. The named operations over memory and registers that the meanings share: byte memories, the window and its bits,
the transient registers' release, the fault QTO, the surface and PIX, and the guards of the meanings. -/

namespace Sys2Proof.Machine

/-- The outcome of a meaning. -/
abbrev Out := Host.Outcome State Fault Refusal

/-! ### Byte memories (log 9) -/

/-- The byte at an address; an unlisted address reads 00. -/
def memRead : Mem → Nat → Byte
  | [], _ => 0#8
  | (k, v) :: m, a => if k = a then v else memRead m a

/-- Replace the byte at an address, keeping the canonical form. -/
def memWrite : Mem → Nat → Byte → Mem
  | [], a, v => if v = 0#8 then [] else [(a, v)]
  | (k, w) :: m, a, v =>
    if a < k then (if v = 0#8 then (k, w) :: m else (a, v) :: (k, w) :: m)
    else if a = k then (if v = 0#8 then m else (k, v) :: m)
    else (k, w) :: memWrite m a v

/-- The canonical form from an address on: addresses strictly rising, no byte 00. -/
def memWfFrom : Nat → Mem → Bool
  | _, [] => true
  | lo, (k, v) :: m => decide (lo ≤ k) && v != 0#8 && memWfFrom (k + 1) m

/-- The canonical form of a memory. -/
def Mem.wf (m : Mem) : Bool := memWfFrom 0 m

/-- The bytes listed from an address on (for a program the host loads). -/
def memOfBytes : Nat → List Byte → Mem
  | _, [] => []
  | a, b :: bs => if b = 0#8 then memOfBytes (a + 1) bs else (a, b) :: memOfBytes (a + 1) bs

/-- `MemRead(ASSET, a, n)`: the `n` bytes from offset `a`, in increasing order (20_memory.md R62). -/
def State.loadRange (s : State) : Nat → Nat → List Byte
  | _, 0 => []
  | a, n + 1 => memRead s.asset a :: s.loadRange (a + 1) n

/-! ### Named updates -/

/-- `WCUR <- v`. -/
def State.seek (s : State) (v : Nat) : State := { s with wcur := v }

/-- The operation returns `v` to its caller (log 7). -/
def State.answer (s : State) (v : Nat) : State := { s with res := v }

/-- One more free value has been taken (log 4). -/
def State.drawn (s : State) : State := { s with draws := s.draws + 1 }

/-- A new content of the surface. -/
def State.putSurf (s : State) (m : Mem) : State := { s with surf := m }

/-- `PIX[i] <- v`. -/
def State.putPix (s : State) (i : Nat) (v : Bool) : State := { s with pix := s.pix.set i v }

/-! ### The window and its bits (20_memory.md R64 to R66) -/

/-- WLEN (10_state.md R24). -/
def State.wlen (s : State) : Nat := s.wbuf.length

/-- `MemRead(WBUF, j, 1)`: byte `j` of the window; past the end it records OVR and returns a draw (20_memory.md R66). -/
def readWindow (j : Nat) (s : State) : Byte × State :=
  if j < s.wlen then (s.wbuf.getD j 0#8, s)
  else (Config.draw8 s.draws, (s.raise .ovr).drawn)

/-- The stream bit at bit position `p` of the window (20_memory.md R65). -/
def streamBit (p : Nat) (s : State) : Bool × State :=
  let r := readWindow (p / 8) s
  (r.1.getLsbD (7 - p % 8), r.2)

/-- The `n` stream bits from bit position `p`, each read anew (40_bitcursor.md R120). -/
def readBits : Nat → Nat → State → List Bool × State
  | 0, _, s => ([], s)
  | n + 1, p, s =>
    let r := streamBit p s
    let t := readBits n (p + 1) r.2
    (r.1 :: t.1, t.2)

/-- The bit position of the working cursor in the window: `WCUR * BPU` (10_state.md R22). -/
def State.bitPos (s : State) : Nat := s.wcur * s.cfg.bpu

/-- WCUR past `n` bits consumed. -/
def State.consume (s : State) (n : Nat) : State := s.seek (s.wcur + n / s.cfg.bpu)

/-- `RD(n)`: an `n`-bit unsigned field at the working cursor, and the advance (40_bitcursor.md R120). -/
def rd (n : Nat) (s : State) : Nat × State :=
  let r := readBits n s.bitPos s
  (ofBits r.1, r.2.consume n)

/-- Whether a field of `n` bits is a whole number of units (40_bitcursor.md R126). -/
def State.legalField (s : State) (n : Nat) : Bool := n % s.cfg.bpu == 0

/-! ### Release of the transient registers (42_chunk_streamer.md R162, 10_state.md R34; log 5) -/

/-- `WRELEASE`: the window registers are unspecified from here on. -/
def State.dropWindow (s : State) : State :=
  let f := Config.freeWindow s.draws
  { s with wcur := f.wcur, so := f.so, woff := f.woff, wbuf := f.wbuf, draws := s.draws + 1 }

/-- The decoders' working registers are unspecified from here on. -/
def State.dropWork (s : State) : State :=
  let f := Config.freeWork s.draws
  { s with pcnt := f.pcnt, cls := f.cls, run := f.run, qstk := f.qstk, qdepth := f.qdepth, draws := s.draws + 1 }

/-- The end of a step: all transient state is unspecified (10_state.md R34). -/
def State.dropTransient (s : State) : State := s.dropWindow.dropWork

/-! ### The fault (60_exceptions.md R263, R270, 46_player_control.md R243) -/

/-- Taking QTO: STATUS.QTO is set, PHASE becomes FAULT, the window is released and the STEP is over. CURSOR, FC, the
configuration and what is on the surface stay. The one way back is INIT (60_exceptions.md R271). -/
def State.takeQto (s : State) : State :=
  { (s.raise .qto).dropTransient with phase := .fault, busy := false }

/-! ### The surface (20_memory.md R69 to R72) -/

/-- The model's key of byte `c` of the row buffer of row `y` (log 9). -/
def surfKey (y c : Nat) : Nat := Nat.pair y c

/-- Whether byte `c` of row `y` exists (20_memory.md R70). -/
def State.onSurface (s : State) (y c : Nat) : Bool :=
  decide (y < s.cfg.surfH) && decide (c < s.cfg.rowBytes)

/-- `MemRead(SURF[y], c, 1)`. -/
def State.surfByte (s : State) (y c : Nat) : Byte := memRead s.surf (surfKey y c)

/-- `MemWrite(SURF[y], c, 1, v)`; the byte must exist. -/
def surfWrite (y c : Nat) (v : Byte) (s : State) : Except Fault State :=
  if s.onSurface y c then .ok (s.putSurf (memWrite s.surf (surfKey y c) v)) else .error .surfaceRange

/-- The mask of the pixel in column `px` within its byte (20_memory.md R71, 45_pixel_sink.md R223). -/
def pixelMask (px : Nat) : Byte := 1#8 <<< (7 - px % 8)

/-- The surface row of logical row `y` (45_pixel_sink.md R222). -/
def pixelRow (c : Cfg) (y : Nat) : Nat := y + c.offY

/-- The surface column of logical column `x` (45_pixel_sink.md R222). -/
def pixelCol (c : Cfg) (x : Nat) : Nat := x + c.offX

/-- The byte of the row buffer that holds logical column `x` (20_memory.md R71, R72). -/
def pixelByte (c : Cfg) (x : Nat) : Nat :=
  match c.surfFmt with
  | .packed1 => pixelCol c x / 8
  | .indexed8 => pixelCol c x

/-- The address SETFG stores to for logical pixel `(x, y)`. -/
def pixelKey (c : Cfg) (x y : Nat) : Nat := surfKey (pixelRow c y) (pixelByte c x)

/-- The byte SETFG stores: the pixel's bit set in the byte it read, or the foreground index (45_pixel_sink.md R223, R224). -/
def State.litByte (s : State) (x y : Nat) : Byte :=
  match s.cfg.surfFmt with
  | .packed1 => s.surfByte (pixelRow s.cfg y) (pixelByte s.cfg x) ||| pixelMask (pixelCol s.cfg x)
  | .indexed8 => s.cfg.fgIndex

/-- `SETFG(x, y)` (45_pixel_sink.md R220). -/
def setFg (x y : Nat) (s : State) : Except Fault State :=
  surfWrite (pixelRow s.cfg y) (pixelByte s.cfg x) (s.litByte x y) s

/-- Whether the surface shows logical pixel `(x, y)` as foreground (20_memory.md R71, R72). -/
def State.isFg (s : State) (x y : Nat) : Bool :=
  match s.cfg.surfFmt with
  | .packed1 => (s.surfByte (pixelRow s.cfg y) (pixelByte s.cfg x)).getLsbD (7 - pixelCol s.cfg x % 8) == s.cfg.fgBit
  | .indexed8 => s.surfByte (pixelRow s.cfg y) (pixelByte s.cfg x) == s.cfg.fgIndex

/-- The value of the surface pixel in column `px` of row `py`, inside the canvas or not: its bit or its byte (20_memory.md R71, R72). -/
def State.surfPixel (s : State) (px py : Nat) : Nat :=
  match s.cfg.surfFmt with
  | .packed1 => ((s.surfByte py (px / 8)).getLsbD (7 - px % 8)).toNat
  | .indexed8 => (s.surfByte py px).toNat

/-- One row of a fill: `n` pixels from `(x, y)` rightward (44_quadtree_decoder.md R205). -/
def fillRow : Nat → Nat → Nat → State → Except Fault State
  | 0, _, _, s => .ok s
  | n + 1, x, y, s =>
    match setFg x y s with
    | .ok t => fillRow n (x + 1) y t
    | .error f => .error f

/-- `FILL(x, y, w, h)`: row-major, `h` rows downward (44_quadtree_decoder.md R205). -/
def fillRect (x w : Nat) : Nat → Nat → State → Except Fault State
  | 0, _, s => .ok s
  | n + 1, y, s =>
    match fillRow w x y s with
    | .ok t => fillRect x w n (y + 1) t
    | .error f => .error f

/-! ### PIX and run tokens (43_run_length_decoder.md) -/

/-- `RLPIXEL(i, c)`: toggle under a changed token, then show the pixel if it is true (43_run_length_decoder.md R182). -/
def rlPixel (i : Nat) (c : Bool) (s : State) : Except Fault State :=
  if i < s.pix.length then
    let v := xor c (s.pix.getD i false)
    if v then setFg (i % s.cfg.w) (i / s.cfg.w) (s.putPix i v) else .ok (s.putPix i v)
  else .error .pixelRange

/-- The pixels of the rest of a run, `k` of them: until the run is exhausted or the frame is full, in which case the excess is
dropped and RLX recorded (43_run_length_decoder.md R180, R184). -/
def runPixels : Nat → State → Except Fault State
  | 0, s => .ok s
  | k + 1, s =>
    if s.pcnt < s.cfg.npix then
      match rlPixel s.pcnt s.cls s with
      | .ok t => runPixels k { t with pcnt := t.pcnt + 1 }
      | .error f => .error f
    else .ok (s.raise .rlx)

/-- The effect of a run token of length `n` once read: its pixels, then the class flips (43_run_length_decoder.md R180, R181). -/
def applyRun (n : Nat) (s : State) : Except Fault State :=
  match runPixels n { s with run := n } with
  | .ok t => .ok { t with cls := !t.cls }
  | .error f => .error f

/-! ### Outcomes and guards -/

/-- The outcome of an operation that can only fault. -/
def outcome : Except Fault State → Out
  | .ok t => .next t
  | .error f => .fault f

/-- No operation but INIT before the first INIT (10_state.md R36). -/
def whenReady (s : State) (k : Out) : Out := if s.inited then k else .refused .beforeInit

/-- A token or a frame operation belongs to its scheme (30_encoding.md R103). -/
def whenScheme (ok : Bool) (k : Out) : Out := if ok then k else .refused .wrongScheme

/-- A primitive is legal under the unit (40_bitcursor.md R126). -/
def whenLegal (ok : Bool) (k : Out) : Out := if ok then k else .refused .illegalUnit

end Sys2Proof.Machine
end

