-- ==== Sys2Proof/Machine/BitCursor.lean ====
section
/-! DEFINITION. The cursor primitives (40_bitcursor.md R120 to R126). Each is RD of its width, which equals its composition from
the next-smaller unit; the result is returned in RES. -/

namespace Sys2Proof.Machine

/-- A primitive of `n` bits: legal under the unit, reads its field, returns it. -/
def primitive (n : Nat) (s : State) : Out :=
  whenReady s (whenLegal (s.legalField n) (.next ((rd n s).2.answer (rd n s).1)))

/-- `BIT` (40_bitcursor.md R121). -/
def execBit (s : State) : Out := primitive 1 s

/-- `HN` (40_bitcursor.md R122). -/
def execHn (s : State) : Out := primitive 2 s

/-- `NYB` (40_bitcursor.md R123). -/
def execNyb (s : State) : Out := primitive 4 s

/-- `BYTE` (40_bitcursor.md R124). -/
def execByte (s : State) : Out := primitive 8 s

/-- `SHORT` (40_bitcursor.md R125). -/
def execShort (s : State) : Out := primitive 16 s

end Sys2Proof.Machine
end

