-- ==== Sys2Proof/Machine/PixelSink.lean ====
section
/-! DEFINITION. The pixel sink's one operation (45_pixel_sink.md R220 to R224). -/

namespace Sys2Proof.Machine

/-- `SETFG(x, y)`. The sink does not check its operands (45_pixel_sink.md R221); a byte the surface does not have faults. -/
def execSetfg (x y : Nat) (s : State) : Out := whenReady s (outcome (setFg x y s))

end Sys2Proof.Machine
end

