-- ==== Sys2Proof/Machine/ChunkStreamer.lean ====
section
/-! DEFINITION. The chunk streamer (42_chunk_streamer.md R155 to R162). -/

namespace Sys2Proof.Machine

/-- The clamped window length: `min(NPIX, (ASSET_SIZE -. WOFF) -. 1)` (42_chunk_streamer.md R156). -/
def windowLength (c : Cfg) (woff : Nat) : Nat := min c.npix (c.assetSize - woff - 1)

/-- `WLOAD` (42_chunk_streamer.md R155). -/
def wload (s : State) : State :=
  let woff := s.cursor / s.cfg.upb
  let so := s.cursor % s.cfg.upb
  { s with woff := woff, wbuf := s.loadRange woff (windowLength s.cfg woff), so := so, wcur := so }

/-- `WCOMMIT`: the absolute cursor moves by what the decoder consumed (42_chunk_streamer.md R161). -/
def wcommit (s : State) : State := { s with cursor := s.cursor + (s.wcur - s.so) }

def execWload (s : State) : Out := whenReady s (.next (wload s))

def execWcommit (s : State) : Out := whenReady s (.next (wcommit s))

/-- `WRELEASE` (42_chunk_streamer.md R162). -/
def execWrelease (s : State) : Out := whenReady s (.next s.dropWindow)

end Sys2Proof.Machine
end

