-- ==== Sys2Proof/Machine/Quadtree.lean ====
section
/-! DEFINITION. The quadtree decoder (44_quadtree_decoder.md R200 to R208): the recursive step, which QTFRAME and QTNODE are, and the
tokens, which work on the stack of pending rectangles. -/

namespace Sys2Proof.Machine

/-- How a frame decoder ends: complete, aborted by QTO (the state after the fault), or stopped by a fault of the model. -/
inductive Walk where
  | done (s : State)
  | abort (s : State)
  | stop (f : Fault)
  deriving DecidableEq, Repr

/-- Go on with `k` unless the walk has ended. -/
def Walk.andThen : Walk → (State → Walk) → Walk
  | .done s, k => k s
  | .abort s, _ => .abort s
  | .stop f, _ => .stop f

/-- A walk from an operation that can only fault. -/
def Walk.ofExcept : Except Fault State → Walk
  | .ok s => .done s
  | .error f => .stop f

/-- A walk as an outcome: the abort is a next state, the one the fault leaves. -/
def Walk.outcome : Walk → Out
  | .done s => .next s
  | .abort s => .next s
  | .stop f => .fault f

/-- A leaf, its flag bit read: the colour bit, then the fill (44_quadtree_decoder.md R204). -/
def qtLeaf (r : QNode) (s : State) : Walk :=
  let c := rd 1 s
  if c.1 = 1 then Walk.ofExcept (fillRect r.x r.w r.h r.y c.2) else .done c.2

/-- The recursive step on a rectangle with `n` splits allowed below it, `n = QT_MAX_DEPTH - d` (44_quadtree_decoder.md R201, R207). -/
def qtNode : Nat → QNode → State → Walk
  | 0, r, s =>
    let f := rd 1 { s with qdepth := r.d }
    if f.1 = 1 then .abort f.2.takeQto else qtLeaf r f.2
  | n + 1, r, s =>
    let f := rd 1 { s with qdepth := r.d }
    let visit := fun (child : QNode) (t : State) => if t.cfg.visits child then qtNode n child t else Walk.done t
    if f.1 = 1 then
      (((visit r.tl f.2).andThen (visit r.tr)).andThen (visit r.bl)).andThen (visit r.br)
    else qtLeaf r f.2

/-- `QTNODE` on a rectangle at its depth. -/
def qtVisit (r : QNode) (s : State) : Walk := qtNode (s.cfg.qtMaxDepth - r.d) r s

/-- `QTFRAME`: the root, nothing else pending (44_quadtree_decoder.md R200). -/
def qtFrame (s : State) : Walk := qtVisit s.cfg.root { s with qstk := [] }

def execQtframe (s : State) : Out := whenReady s (whenScheme (s.cfg.scheme == .qt) (qtFrame s).outcome)

/-- `QTNODE(x, y, w, h, d)` (44_quadtree_decoder.md R201), under the bit unit as BIT is. -/
def execQtnode (x y w h d : Nat) (s : State) : Out :=
  whenReady s (whenLegal (s.legalField 1) (qtVisit { x := x, y := y, w := w, h := h, d := d } s).outcome)

/-- `FILL(x, y, w, h)` (44_quadtree_decoder.md R205). -/
def execFill (x y w h : Nat) (s : State) : Out := whenReady s (outcome (fillRect x w h y s))

/-! ### The tokens, on the work stack (44_quadtree_decoder.md R208) -/

/-- The start of QTFRAME in the work-stack form: the root is pending. -/
def qtStart (s : State) : State := { s with qstk := [s.cfg.root] }

/-- A quadtree token works on the rectangle on top of the stack. -/
def onTop (s : State) (k : QNode → State → Out) : Out :=
  match s.qstk with
  | [] => .refused .noRectangle
  | r :: rest => k r { s with qstk := rest, qdepth := r.d }

/-- A quadtree token of `width` bits, with the effect `k` on the rectangle it stands for. -/
def qtToken (width : Nat) (k : QNode → State → Out) (s : State) : Out :=
  whenReady s (whenScheme (s.cfg.scheme == .qt) (onTop (s.consume width) k))

/-- `QSPLIT`: the four children become pending, top-left first, or the split is one too deep (44_quadtree_decoder.md R207, R208). -/
def splitTop (r : QNode) (s : State) : Out :=
  if s.cfg.qtMaxDepth ≤ r.d then .next s.takeQto else .next { s with qstk := s.cfg.children r ++ s.qstk }

def execQsplit (s : State) : Out := qtToken 1 splitTop s

/-- `QLEAF.BG`: no surface access (44_quadtree_decoder.md R204). -/
def execQleafBg (s : State) : Out := qtToken 2 (fun _ t => .next t) s

/-- `QLEAF.FG`: the rectangle is filled (44_quadtree_decoder.md R204). -/
def execQleafFg (s : State) : Out := qtToken 2 (fun r t => outcome (fillRect r.x r.w r.h r.y t)) s

end Sys2Proof.Machine
end

