-- ==== Sys2Proof/Machine/IntegerCodec.lean ====
section
/-! DEFINITION. The integer codec (41_integer_codec.md R140 to R145). -/

namespace Sys2Proof.Machine

/-- The value field's width for a tag (41_integer_codec.md R141). -/
def tagWidth (t : Nat) : Nat :=
  if t = 0 then 2 else if t = 1 then 4 else if t = 2 then 8 else 16

/-- `TAGV`: a half-nybble tag, then the value of the width it names (41_integer_codec.md R140). -/
def tagv (s : State) : Nat × State :=
  let t := rd 2 s
  rd (tagWidth t.1) t.2

/-- `ESCV`: one byte, or the escape byte and a big-endian 16-bit value (41_integer_codec.md R142). -/
def escv (s : State) : Nat × State :=
  let b := rd 8 s
  if b.1 < 255 then b else rd 16 b.2

/-- `READINT`: the scheme's integer decoder (41_integer_codec.md R143). The quadtree decoder has none: its arm is not reached,
since READINT and RLFRAME are refused under QT. -/
def readInt (s : State) : Nat × State :=
  match s.cfg.scheme with
  | .escRl => escv s
  | .tagRl => tagv s
  | .qt => tagv s

/-- `TAGV`, legal only under the bit unit (41_integer_codec.md R140). -/
def execTagv (s : State) : Out :=
  whenReady s (whenLegal (s.legalField 2) (.next ((tagv s).2.answer (tagv s).1)))

/-- `ESCV`, meaningful under every unit (41_integer_codec.md R142). -/
def execEscv (s : State) : Out :=
  whenReady s (.next ((escv s).2.answer (escv s).1))

/-- `READINT`, of the two run-length schemes (41_integer_codec.md R143). -/
def execReadint (s : State) : Out :=
  whenReady s (whenScheme (s.cfg.scheme != .qt) (.next ((readInt s).2.answer (readInt s).1)))

end Sys2Proof.Machine
end

