-- ==== Sys2Proof/Machine/RunLength.lean ====
section
/-! DEFINITION. The run-length decoder (43_run_length_decoder.md R180 to R186): the frame, the pixel, and the six run tokens. -/

namespace Sys2Proof.Machine

/-! ### The frame -/

/-- The start of RLFRAME: no pixel consumed, the first token is unchanged (43_run_length_decoder.md R180, R181). -/
def rlStart (s : State) : State := { s with pcnt := 0, cls := false }

/-- RLFRAME's loop, `n` tokens at most (43_run_length_decoder.md R180). -/
def rlLoop : Nat → State → Except Fault State
  | 0, s => if s.pcnt < s.cfg.npix then .error .frameUnfinished else .ok s
  | n + 1, s =>
    if s.pcnt < s.cfg.npix then
      match applyRun (readInt s).1 (readInt s).2 with
      | .ok t => rlLoop n t
      | .error f => .error f
    else .ok s

/-- The tokens a frame can need (one for each bit of its window and one for each pixel, at the most), and the fuel for drawn
zero-length runs (70_reset_and_hazards.md R304; log 8). -/
def State.rlFuel (s : State) : Nat := Config.drawFuel + (8 * s.wlen + s.cfg.npix + 1)

/-- `RLFRAME` (43_run_length_decoder.md R180). -/
def rlFrame (s : State) : Except Fault State := rlLoop s.rlFuel (rlStart s)

def execRlframe (s : State) : Out := whenReady s (whenScheme (s.cfg.scheme != .qt) (outcome (rlFrame s)))

/-- `RLPIXEL(i, c)` (43_run_length_decoder.md R182). Under QT there is no PIX. -/
def execRlpixel (i : Nat) (c : Bool) (s : State) : Out :=
  whenReady s (whenScheme (s.cfg.scheme != .qt) (outcome (rlPixel i c s)))

/-! ### The tokens -/

/-- A run token of `width` bits and length `n`: WCUR moves past it and it has its effect (10_state.md R25,
43_run_length_decoder.md R180 to R184). -/
def runToken (sch : Scheme) (width n : Nat) (s : State) : Out :=
  whenReady s (whenScheme (s.cfg.scheme == sch) (outcome (applyRun n (s.consume width))))

/-- `RUN.E8 n`; the byte 0xFF is the escape and no run (30_encoding.md R98). -/
def execRunE8 (n : BitVec 8) (s : State) : Out :=
  if n = 0xFF#8 then .refused .escapeByte else runToken .escRl 8 n.toNat s

/-- `RUN.E24 n`. -/
def execRunE24 (n : BitVec 16) (s : State) : Out := runToken .escRl 24 n.toNat s

/-- `RUN.T2 n`. -/
def execRunT2 (n : BitVec 2) (s : State) : Out := runToken .tagRl 4 n.toNat s

/-- `RUN.T4 n`. -/
def execRunT4 (n : BitVec 4) (s : State) : Out := runToken .tagRl 6 n.toNat s

/-- `RUN.T8 n`. -/
def execRunT8 (n : BitVec 8) (s : State) : Out := runToken .tagRl 10 n.toNat s

/-- `RUN.T16 n`. -/
def execRunT16 (n : BitVec 16) (s : State) : Out := runToken .tagRl 18 n.toNat s

end Sys2Proof.Machine
end

