-- ==== Sys2Proof/Machine/Player.lean ====
section
/-! DEFINITION. The player operations INIT, STEP and RESET (46_player_control.md R240 to R250), and the pieces of a STEP that the
machine runs one at a time (log 1). -/

namespace Sys2Proof.Machine

/-- All of PIX false; none under QT (10_state.md R27, R36). -/
def clearedPix (c : Cfg) : List Bool := List.replicate c.pixCount false

/-! ### INIT -/

/-- The state INIT establishes with a well-formed configuration (46_player_control.md R241, 10_state.md R36). -/
def initialise (c : Cfg) (s : State) : State :=
  { s.dropTransient with
    inited := true, cfg := c, cursor := 0, fc := 0, pix := clearedPix c, status := 0#3, phase := .idle }

/-- `INIT` (46_player_control.md R241); not while a STEP runs (70_reset_and_hazards.md R295). -/
def execInit (a : InitArgs) (s : State) : Out :=
  if s.busy then .refused .overlap
  else
    match a.derive s.assetSize with
    | .ok c => .next (initialise c s)
    | .error d => .refused (.illFormedConfig d)

/-! ### RESET -/

/-- The loop-wrap reset (46_player_control.md R246); transient state is unspecified after it (10_state.md R36). -/
def wrapReset (s : State) : State :=
  { s.dropTransient with cursor := 0, fc := 0, pix := clearedPix s.cfg, phase := .idle }

/-- `RESET` on its own (46_player_control.md R246), in every phase. Only STEP performs it (R240), at the wrap, so the spec never has it in
FAULT, which INIT alone leaves (R249, 60_exceptions.md R271); that it sets PHASE to IDLE there too, as R246 writes it, is the model's
choice (DESIGN CHOICE: log 15). -/
def execReset (s : State) : Out := whenReady s (.next (wrapReset s))

/-! ### STEP, in its pieces -/

/-- The frame decoder of the scheme is set up (42_chunk_streamer.md R160). -/
def frameStart (s : State) : State :=
  match s.cfg.scheme with
  | .escRl => rlStart s
  | .tagRl => rlStart s
  | .qt => qtStart s

/-- The first phase of a STEP: WLOAD; from here the STEP is in progress. -/
def openStep (s : State) : State := { wload s with busy := true }

/-- Whether the frame decoder has nothing left to decode (43_run_length_decoder.md R186, 44_quadtree_decoder.md R208). -/
def State.frameDone (s : State) : Bool :=
  match s.cfg.scheme with
  | .escRl => decide (s.cfg.npix ≤ s.pcnt)
  | .tagRl => decide (s.cfg.npix ≤ s.pcnt)
  | .qt => s.qstk.isEmpty

/-- The frame decoder of the scheme, whole (42_chunk_streamer.md R160). -/
def wholeFrame (s : State) : Walk :=
  match s.cfg.scheme with
  | .escRl => Walk.ofExcept (rlFrame s)
  | .tagRl => Walk.ofExcept (rlFrame s)
  | .qt => qtFrame s

/-- FC and PHASE after a decoded frame, with the wrap (46_player_control.md R244, R245, R246). -/
def countFrame (s : State) : State :=
  let t := { s with fc := s.fc + 1, phase := .streaming }
  if t.fc = t.cfg.nframes then wrapReset t else t

/-- The last phases of a STEP: WCOMMIT, WRELEASE, the frame count and the wrap; transient state is unspecified after it. -/
def closeStep (s : State) : State := { (countFrame (wcommit s).dropWindow).dropWork with busy := false }

/-- `STEP`, whole (46_player_control.md R242, R243, R249). -/
def execStep (s : State) : Out :=
  whenReady s
    (if s.busy then .refused .overlap
     else if s.phase = .fault then .next s
     else
       match wholeFrame (openStep s) with
       | .done t => .next (closeStep t)
       | .abort t => .next t
       | .stop f => .fault f)

/-- The machine's first step of a STEP command: the block is ready to read the frame's first token (log 1). -/
def beginStep (s : State) : Out :=
  whenReady s
    (if s.busy then .refused .overlap
     else if s.phase = .fault then .next s
     else .next (frameStart (openStep s)))

/-- The host writes a byte of its surface between steps (20_memory.md R70). Its bounds are known to the block from INIT on; before
that the byte is taken to exist. -/
def hostWrite (y c : Nat) (v : Byte) (s : State) : Except Fault State :=
  if s.inited then surfWrite y c v s else .ok (s.putSurf (memWrite s.surf (surfKey y c) v))

/-- The host acts between steps (60_exceptions.md R268; log 2): a pending act is done, and with none the block idles. -/
def hostStep (s : State) : Out :=
  match s.host with
  | [] => .next s
  | .init a :: rest => execInit a { s with host := rest }
  | .step :: rest => beginStep { s with host := rest }
  | .surfWrite y c v :: rest => outcome (hostWrite y c v { s with host := rest })

end Sys2Proof.Machine
end

