-- ==== Sys2Proof/Machine/Dispatch.lean ====
section
/-! DEFINITION. One arm per instruction, each a direct call of its meaning. -/

namespace Sys2Proof.Machine

def exec (i : Instr) (s : State) : Host.Outcome State Fault Refusal :=
  match i with
  | .runE8 n => Sys2Proof.Machine.execRunE8 n s
  | .runE24 n => Sys2Proof.Machine.execRunE24 n s
  | .runT2 n => Sys2Proof.Machine.execRunT2 n s
  | .runT4 n => Sys2Proof.Machine.execRunT4 n s
  | .runT8 n => Sys2Proof.Machine.execRunT8 n s
  | .runT16 n => Sys2Proof.Machine.execRunT16 n s
  | .qsplit => Sys2Proof.Machine.execQsplit s
  | .qleafBg => Sys2Proof.Machine.execQleafBg s
  | .qleafFg => Sys2Proof.Machine.execQleafFg s
  | .bit => Sys2Proof.Machine.execBit s
  | .hn => Sys2Proof.Machine.execHn s
  | .nyb => Sys2Proof.Machine.execNyb s
  | .byte => Sys2Proof.Machine.execByte s
  | .short => Sys2Proof.Machine.execShort s
  | .tagv => Sys2Proof.Machine.execTagv s
  | .escv => Sys2Proof.Machine.execEscv s
  | .readint => Sys2Proof.Machine.execReadint s
  | .wload => Sys2Proof.Machine.execWload s
  | .wcommit => Sys2Proof.Machine.execWcommit s
  | .wrelease => Sys2Proof.Machine.execWrelease s
  | .rlframe => Sys2Proof.Machine.execRlframe s
  | .rlpixel p c => Sys2Proof.Machine.execRlpixel p c s
  | .qtframe => Sys2Proof.Machine.execQtframe s
  | .qtnode x y w h d => Sys2Proof.Machine.execQtnode x y w h d s
  | .fill x y w h => Sys2Proof.Machine.execFill x y w h s
  | .setfg x y => Sys2Proof.Machine.execSetfg x y s
  | .init a => Sys2Proof.Machine.execInit a s
  | .step => Sys2Proof.Machine.execStep s
  | .reset => Sys2Proof.Machine.execReset s

end Sys2Proof.Machine
end

