-- ==== Sys2Proof/Machine/Fetch.lean ====
section
/-! DEFINITION. Fetching the next token of a frame from the window at the working cursor (30_encoding.md R97), and placing a
token there. -/

namespace Sys2Proof.Machine

/-- Read one more stream bit until the bits read decode to a token: the stream is self-delimiting (30_encoding.md R97). -/
def fetchFrom : Nat → List Bool → State → Option (Instr × State)
  | 0, _, _ => none
  | n + 1, seen, s =>
    match decode s.cfg.scheme seen with
    | .ok (i, _) => some (i, s)
    | .error _ =>
      let r := streamBit (s.bitPos + seen.length) s
      fetchFrom n (seen ++ [r.1]) r.2

/-- The token at the working cursor, which it does not move, and the state after its bits were read: that of before, but for
OVR and the draws where a bit lies outside the window. No token is longer than 24 bits. -/
def fetch (s : State) : Option (Instr × State) := fetchFrom 25 [] s

/-! ### Placing a token (log 3) -/

/-- Stream bits as bytes, the last byte padded with zeros. -/
def packBits (bs : List Bool) : List Byte :=
  match bs with
  | [] => []
  | b0 :: b1 :: b2 :: b3 :: b4 :: b5 :: b6 :: b7 :: rest =>
    BitVec.ofNat 8 (ofBits [b0, b1, b2, b3, b4, b5, b6, b7]) :: packBits rest
  | short => [BitVec.ofNat 8 (ofBits (short ++ List.replicate (8 - short.length) false))]

/-- A small configuration under which a token of the scheme can be run: a 4 by 4 canvas in the middle of an 8 by 4 surface. -/
def sampleCfg (sch : Scheme) (assetSize : Nat) : Cfg where
  w := 4
  h := 4
  nframes := 2
  fps := 1
  scheme := sch
  surfW := 8
  surfH := 4
  surfFmt := .packed1
  fgIndex := 0xFF#8
  dimsFromSurface := false
  round := false
  roundNum := 1
  roundDen := 1
  qtMaxDepth := 2
  qtSkipEmpty := false
  assetSize := assetSize
  cw := 32

/-- The block just after the first phase of a STEP on an asset that holds these bits and one pad byte: the next machine step
fetches the token they begin with. -/
def placeToken (sch : Scheme) (bits : List Bool) (s : State) : State :=
  let bytes := packBits bits
  let c := sampleCfg sch (bytes.length + 1)
  frameStart { s with
    inited := true, cfg := c, cursor := 0, fc := 0, pix := clearedPix c, phase := .idle,
    wcur := 0, so := 0, woff := 0, wbuf := bytes, asset := memOfBytes 0 bytes, assetSize := bytes.length + 1, busy := true }

end Sys2Proof.Machine
end

