-- ==== Sys2Proof/Machine/Step.lean ====
section
/-! DEFINITION. One step of the machine (log 1): while a STEP is in progress, one token of its frame or, the frame done, its end;
between steps, the host's next act. -/

namespace Sys2Proof.Machine

def step (s : State) : Host.Outcome State Fault Refusal :=
  if s.busy then
    if s.frameDone then .next (closeStep s)
    else
      match fetch s with
      | some (i, t) => exec i t
      | none => .refused .undecodable
  else hostStep s

/-- `s` with the instruction of a table word where the next step fetches its token (log 3). -/
def State.withFetchWord (s : State) (nbits w : Nat) : State :=
  match tableRow nbits w with
  | none => s
  | some (sch, width) => placeToken sch (toBits width w) s

end Sys2Proof.Machine
end

