-- ==== Sys2Proof/Safety.lean ====
section
/-! DEFINITION. The terms that claims use: what a block between machine steps looks like (the invariant), what a clean run is, which
pixels a rectangle or a tree of the stream covers, and what it is for the window to hold a token's bits. -/

namespace Sys2Proof

/-! ### Tokens and trees of a stream -/

/-- The run length a run token carries (30_encoding.md R96). -/
def Instr.runLength? : Instr → Option Nat
  | .runE8 n => some n.toNat
  | .runE24 n => some n.toNat
  | .runT2 n => some n.toNat
  | .runT4 n => some n.toNat
  | .runT8 n => some n.toNat
  | .runT16 n => some n.toNat
  | .qsplit => none
  | .qleafBg => none
  | .qleafFg => none
  | .bit => none
  | .hn => none
  | .nyb => none
  | .byte => none
  | .short => none
  | .tagv => none
  | .escv => none
  | .readint => none
  | .wload => none
  | .wcommit => none
  | .wrelease => none
  | .rlframe => none
  | .rlpixel _ _ => none
  | .qtframe => none
  | .qtnode _ _ _ _ _ => none
  | .fill _ _ _ _ => none
  | .setfg _ _ => none
  | .init _ => none
  | .step => none
  | .reset => none

/-- A frame of the quadtree scheme as a tree (30_encoding.md R91): a leaf with its colour, or a split and its four nodes. -/
inductive QTree where
  | leaf (fg : Bool)
  | split (tl tr bl br : QTree)
  deriving DecidableEq, Repr

/-- The stream bits of a tree (30_encoding.md R91, R94). -/
def QTree.bits : QTree → List Bool
  | .leaf fg => [false, fg]
  | .split a b c d => true :: (a.bits ++ b.bits ++ c.bits ++ d.bits)

/-- The number of splits on the longest path (44_quadtree_decoder.md R207). -/
def QTree.depth : QTree → Nat
  | .leaf _ => 0
  | .split a b c d => 1 + max (max a.depth b.depth) (max c.depth d.depth)

/-- Whether a rectangle covers a logical pixel. -/
def QNode.covers (r : QNode) (x y : Nat) : Bool :=
  decide (r.x ≤ x) && decide (x < r.x + r.w) && decide (r.y ≤ y) && decide (y < r.y + r.h)

/-- Whether a pixel lies in a foreground leaf of a tree laid over a rectangle (44_quadtree_decoder.md R201 to R204). -/
def QTree.foreground : QTree → QNode → Nat → Nat → Bool
  | .leaf fg, r, x, y => fg && r.covers x y
  | .split a b c d, r, x, y =>
    a.foreground r.tl x y || b.foreground r.tr x y || c.foreground r.bl x y || d.foreground r.br x y

/-- Whether the logical canvas has a pixel `(x, y)`. -/
abbrev Cfg.onCanvas (c : Cfg) (x y : Nat) : Prop := x < c.w ∧ y < c.h

/-- Whether a rectangle lies inside the logical canvas. -/
def Cfg.inside (c : Cfg) (r : QNode) : Bool :=
  decide (r.x + r.w ≤ c.w) && decide (r.y + r.h ≤ c.h)

namespace Machine

/-- The window holds the bits `bs` from the working cursor on. -/
abbrev State.holds (s : State) (bs : List Bool) : Prop := bs <+: (bytesToBits s.wbuf).drop s.bitPos

/-- The bit of the asset at an absolute bit position (20_memory.md R65, 42_chunk_streamer.md R163). -/
def State.assetBit (s : State) (p : Nat) : Bool := (memRead s.asset (p / 8)).getLsbD (7 - p % 8)

/-- The asset holds the bits `bs` from the absolute cursor on, and they lie inside the window a STEP loads there
(42_chunk_streamer.md R163, R164). -/
abbrev State.plays (s : State) (bs : List Bool) : Prop :=
  s.cursor % s.cfg.upb * s.cfg.bpu + bs.length ≤ 8 * windowLength s.cfg (s.cursor / s.cfg.upb) ∧
  bs = (List.range bs.length).map fun k => s.assetBit (s.cursor * s.cfg.bpu + k)

/-- Every pixel of the surface, on the canvas or outside it, has in `t` the value it has in `s`, but for the logical pixels of `P`
(43_run_length_decoder.md R188, 44_quadtree_decoder.md R209). -/
abbrev State.keepsPixelsBut (s : State) (P : Nat → Nat → Prop) (t : State) : Prop :=
  ∀ px py, (∀ x y, P x y → ¬ (px = pixelCol s.cfg x ∧ py = pixelRow s.cfg y)) → t.surfPixel px py = s.surfPixel px py

/-- The registers after a decoded frame that consumed `adv` units: the cursor and the counter advance together, and the last frame
of the loop wraps (46_player_control.md R244 to R247). -/
abbrev State.counted (s : State) (adv : Nat) (t : State) : Prop :=
  if s.fc + 1 = s.cfg.nframes then
    t.cursor = 0 ∧ t.fc = 0 ∧ t.phase = .idle ∧ t.pix = List.replicate s.cfg.pixCount false
  else t.cursor = s.cursor + adv ∧ t.fc = s.fc + 1 ∧ t.phase = .streaming

/-- The class of the run that covers pixel `j` of a frame, when the first run has class `c`: classes alternate
(43_run_length_decoder.md R181). -/
def runClass : Bool → List Nat → Nat → Bool
  | _, [], _ => false
  | c, n :: ns, j => if j < n then c else runClass (!c) ns (j - n)

/-- The tokens `ts` are run tokens of the active scheme that carry the lengths `ns`. -/
abbrev State.runs (s : State) (ts : List Instr) (ns : List Nat) : Prop :=
  ts.map Instr.runLength? = ns.map some ∧ ∀ i ∈ ts, i.wf = true ∧ i.scheme? = some s.cfg.scheme

/-- The lengths make exactly one frame, complete only with the last of them (43_run_length_decoder.md R186, R187). -/
abbrev State.oneFrame (s : State) (ns : List Nat) : Prop :=
  ns.sum = s.cfg.npix ∧ ∀ k < ns.length, (ns.take k).sum < s.cfg.npix

/-! ### Clean runs -/

/-- No condition recorded and not in FAULT: the premise of a claim of correct playback (60_exceptions.md R265). -/
def State.clean (s : State) : Bool := s.status == 0#3 && s.phase != .fault

/-- A value fits the width CW that the implementation has (00_scope.md R11). -/
def State.fits (s : State) (v : Nat) : Bool := decide (v < 2 ^ s.cfg.cw)

/-- The premise of 00_scope.md R11: no register has reached `2^CW`, nor has an argument or an answer of the asset port, the offset, the
length and the end of the window's range and the asset's size (20_memory.md R62, 93_implementation_defined.md U9; log 10). -/
def State.inWidth (s : State) : Bool :=
  [s.cursor, s.wcur, s.so, s.fc, s.pcnt, s.run, s.woff, s.wlen, s.woff + s.wlen, s.assetSize, s.cfg.assetSize].all s.fits

/-! ### The invariant of the block at every machine step -/

/-- What holds of the persistent registers once INIT has been done (10_state.md R26, R27, R31, R32, R36, 20_memory.md R63). -/
structure Ready (s : State) : Prop where
  cfgLegal  : s.cfg.legal = true
  assetSize : s.cfg.assetSize = s.assetSize
  counter   : s.fc < s.cfg.nframes
  pixels    : s.pix.length = s.cfg.pixCount
  idle      : s.phase = .idle → s.cursor = 0 ∧ s.fc = 0
  streaming : s.phase = .streaming → 0 < s.fc

/-- A stack of pending rectangles: each inside the canvas, no deeper than the limit, and no more than three times its depth below
it (44_quadtree_decoder.md R208). -/
def stackOk (c : Cfg) : List QNode → Prop
  | [] => True
  | r :: rest => (r.d ≤ c.qtMaxDepth ∧ rest.length ≤ 3 * r.d ∧ c.inside r = true) ∧ stackOk c rest

/-- Where a frame decoder is within its frame (43_run_length_decoder.md R180, 44_quadtree_decoder.md R208). -/
def State.frameOk (s : State) : Prop :=
  match s.cfg.scheme with
  | .escRl => s.pcnt ≤ s.cfg.npix
  | .tagRl => s.pcnt ≤ s.cfg.npix
  | .qt => stackOk s.cfg s.qstk

/-- What holds while a STEP is in progress (42_chunk_streamer.md R155 to R161). -/
structure InStep (s : State) : Prop where
  inited : s.inited = true
  phase  : s.phase ≠ .fault
  woff   : s.woff = s.cursor / s.cfg.upb
  so     : s.so = s.cursor % s.cfg.upb
  wbuf   : s.wbuf = s.loadRange s.woff (windowLength s.cfg s.woff)
  wcur   : s.so ≤ s.wcur
  frame  : s.frameOk

/-- The invariant: the memories are canonical, and the registers are as the spec ties them together. -/
structure Inv (s : State) : Prop where
  asset  : Mem.wf s.asset = true
  surf   : Mem.wf s.surf = true
  ready  : s.inited = true → Ready s
  inStep : s.busy = true → InStep s

end Machine

end Sys2Proof
end

