-- ==== Sys2Proof/Certificates/Slice0/Obligations.lean ====
section
/-! DEFINITION. The statements for the provers. Each docstring names the sentence of the spec it formalises, or the log entry it rests
on. -/

open Sys2Proof Sys2Proof.Machine

/-! ### The encoding (30_encoding.md) -/

/-- Decoding the bits of a well-formed token under its scheme gives the token back, with every bit after it untouched. -/
def Obligations.DecodeInvertsEncode : Prop :=
  ∀ (i : Instr) (sch : Scheme) (rest : List Bool),
    i.wf = true → i.scheme? = some sch → decode sch (encode i ++ rest) = .ok (i, rest)

/-- The other direction: what decodes is a well-formed token of the scheme, and its encoding is exactly the bits it was read from
(redundant forms are tokens of their own, 30_encoding.md R99). -/
def Obligations.EncodeInvertsDecode : Prop :=
  ∀ (sch : Scheme) (bs rest : List Bool) (i : Instr),
    decode sch bs = .ok (i, rest) → i.wf = true ∧ i.scheme? = some sch ∧ encode i ++ rest = bs

/-- No bit pattern is illegal: with as many bits as the longest token of the scheme, every sequence decodes. -/
def Obligations.EveryBitPatternDecodes : Prop :=
  ∀ (sch : Scheme) (bs : List Bool),
    (match sch with | .escRl => 24 | .tagRl => 18 | .qt => 2) ≤ bs.length →
    ∃ i rest, decode sch bs = .ok (i, rest) ∧ rest.length < bs.length

/-- The worked encodings of 30_encoding.md R104, written out as bytes and bits. -/
def Obligations.WorkedEncodings : Prop :=
  (shortestRun .escRl 3 = some (.runE8 3#8) ∧ shortestRun .escRl 2 = some (.runE8 2#8) ∧
   shortestRun .escRl 256 = some (.runE24 256#16) ∧
   encode (.runE8 3#8) ++ encode (.runE8 2#8) ++ encode (.runE24 256#16) = bytesToBits [0x03#8, 0x02#8, 0xFF#8, 0x01#8, 0x00#8] ∧
   decode .escRl (bytesToBits [0x03#8, 0x02#8, 0xFF#8, 0x01#8, 0x00#8])
     = .ok (.runE8 3#8, bytesToBits [0x02#8, 0xFF#8, 0x01#8, 0x00#8]) ∧
   decode .escRl (bytesToBits [0x02#8, 0xFF#8, 0x01#8, 0x00#8]) = .ok (.runE8 2#8, bytesToBits [0xFF#8, 0x01#8, 0x00#8]) ∧
   decode .escRl (bytesToBits [0xFF#8, 0x01#8, 0x00#8]) = .ok (.runE24 256#16, [])) ∧
  (encode (.runT2 3#2) = [false, false, true, true] ∧ decode .tagRl [false, false, true, true] = .ok (.runT2 3#2, [])) ∧
  (encode .qsplit ++ encode .qleafBg ++ encode .qleafFg ++ encode .qleafBg ++ encode .qleafFg
     = [true, false, false, false, true, false, false, false, true] ∧
   decode .qt [true, false, false, false, true, false, false, false, true]
     = .ok (.qsplit, [false, false, false, true, false, false, false, true]) ∧
   decode .qt [false, false, false, true, false, false, false, true] = .ok (.qleafBg, [false, true, false, false, false, true]) ∧
   decode .qt [false, true, false, false, false, true] = .ok (.qleafFg, [false, false, false, true]))

/-! ### The cursor primitives (40_bitcursor.md) -/

/-- BIT: under the bit unit it returns bit `7 - p mod 8` of window byte `p div 8`, moves the cursor by one and changes nothing else;
past the window it returns a bit of a draw and records OVR; under the byte unit it is refused. The model's: the refusal (log 11), RES
(log 7), the draws (log 4). -/
def Obligations.BitReadsOneBit : Prop :=
  ∀ s : State, s.inited = true →
    (s.cfg.upb = 8 → s.wcur / 8 < s.wlen →
      exec .bit s = .next { s with
        wcur := s.wcur + 1, res := ((s.wbuf.getD (s.wcur / 8) 0#8).getLsbD (7 - s.wcur % 8)).toNat }) ∧
    (s.cfg.upb = 8 → s.wlen ≤ s.wcur / 8 →
      exec .bit s = .next { s with
        wcur := s.wcur + 1, res := ((Config.draw8 s.draws).getLsbD (7 - s.wcur % 8)).toNat,
        status := s.status ||| 1#3, draws := s.draws + 1 }) ∧
    (s.cfg.upb = 1 → exec .bit s = .refused .illegalUnit)

/-- HN under the bit unit is two BITs, the first the high bit of the result; under the byte unit it is refused. The model's: the refusal
(log 11), RES (log 7). -/
def Obligations.HnIsTwoBits : Prop :=
  ∀ s : State, s.inited = true →
    (s.cfg.upb = 8 → ∃ s₁ s₂, exec .bit s = .next s₁ ∧ exec .bit s₁ = .next s₂ ∧ s₁.res * 2 + s₂.res < 4 ∧
      s₂.wcur = s.wcur + 2 ∧ exec .hn s = .next { s₂ with res := s₁.res * 2 + s₂.res }) ∧
    (s.cfg.upb = 1 → exec .hn s = .refused .illegalUnit)

/-- NYB under the bit unit is two HNs, the first in bits 3:2 of the result; under the byte unit it is refused. The model's: the refusal
(log 11), RES (log 7). -/
def Obligations.NybIsTwoHns : Prop :=
  ∀ s : State, s.inited = true →
    (s.cfg.upb = 8 → ∃ s₁ s₂, exec .hn s = .next s₁ ∧ exec .hn s₁ = .next s₂ ∧ s₁.res * 4 + s₂.res < 16 ∧
      s₂.wcur = s.wcur + 4 ∧ exec .nyb s = .next { s₂ with res := s₁.res * 4 + s₂.res }) ∧
    (s.cfg.upb = 1 → exec .nyb s = .refused .illegalUnit)

/-- BYTE under the bit unit is two NYBs, the first in bits 7:4; under either unit, at a byte boundary inside the window, it returns the
window's byte and moves past it; off a boundary it takes the low bits of one byte and the high bits of the next; under the byte unit past
the window it completes, records OVR and moves by one unit all the same. The model's: RES (log 7), the draws and their count, one for
each bit (log 4). -/
def Obligations.ByteIsTwoNybs : Prop :=
  ∀ s : State, s.inited = true →
    (s.cfg.upb = 8 → ∃ s₁ s₂, exec .nyb s = .next s₁ ∧ exec .nyb s₁ = .next s₂ ∧ s₁.res * 16 + s₂.res < 256 ∧
      s₂.wcur = s.wcur + 8 ∧ exec .byte s = .next { s₂ with res := s₁.res * 16 + s₂.res }) ∧
    (s.bitPos % 8 = 0 → s.bitPos / 8 < s.wlen →
      exec .byte s = .next { s with wcur := s.wcur + s.cfg.upb, res := (s.wbuf.getD (s.bitPos / 8) 0#8).toNat }) ∧
    (s.bitPos % 8 ≠ 0 → s.bitPos / 8 + 1 < s.wlen →
      exec .byte s = .next { s with
        wcur := s.wcur + s.cfg.upb,
        res := (s.wbuf.getD (s.bitPos / 8) 0#8).toNat % 2 ^ (8 - s.bitPos % 8) * 2 ^ (s.bitPos % 8) +
          (s.wbuf.getD (s.bitPos / 8 + 1) 0#8).toNat / 2 ^ (8 - s.bitPos % 8) }) ∧
    (s.cfg.upb = 1 → s.wlen ≤ s.wcur →
      ∃ t, exec .byte s = .next t ∧ t.res < 256 ∧
        t = { s with wcur := s.wcur + 1, res := t.res, status := s.status ||| 1#3, draws := s.draws + 8 })

/-- SHORT is two BYTEs under every unit, the first in bits 15:8. -/
def Obligations.ShortIsTwoBytes : Prop :=
  ∀ s : State, s.inited = true →
    ∃ s₁ s₂, exec .byte s = .next s₁ ∧ exec .byte s₁ = .next s₂ ∧ s₁.res * 256 + s₂.res < 65536 ∧
      s₂.wcur = s.wcur + 2 * s.cfg.upb ∧ exec .short s = .next { s₂ with res := s₁.res * 256 + s₂.res }

/-- A field of `n` bits inside the window has the value of the spec's sum over its stream bits, and reading it moves the cursor by
exactly that many bits and changes nothing else. -/
def Obligations.FieldIsSumOfStreamBits : Prop :=
  ∀ (n : Nat) (s : State), s.bitPos + n ≤ 8 * s.wlen →
    rd n s = (∑ k ∈ Finset.range n, (streamBit (s.bitPos + k) s).1.toNat * 2 ^ (n - 1 - k),
      { s with wcur := s.wcur + n / s.cfg.bpu })

/-! ### The integer codec (41_integer_codec.md) -/

/-- TAGV reads a half-nybble tag and then is HN, NYB, BYTE or SHORT; it is refused under the byte unit. The model's: the refusal
(log 11), RES (log 7). -/
def Obligations.TagvFollowsItsTag : Prop :=
  ∀ s : State, s.inited = true →
    (s.cfg.upb = 8 → ∃ s₁ t, exec .hn s = .next s₁ ∧ s₁.res < 4 ∧ exec .tagv s = .next t ∧ t.res < 65536 ∧
      (s₁.res = 0 → exec .hn s₁ = .next t ∧ t.wcur = s.wcur + 4) ∧
      (s₁.res = 1 → exec .nyb s₁ = .next t ∧ t.wcur = s.wcur + 6) ∧
      (s₁.res = 2 → exec .byte s₁ = .next t ∧ t.wcur = s.wcur + 10) ∧
      (s₁.res = 3 → exec .short s₁ = .next t ∧ t.wcur = s.wcur + 18)) ∧
    (s.cfg.upb = 1 → exec .tagv s = .refused .illegalUnit)

/-- ESCV reads one byte, which is its value below 255; after 255 it is the big-endian 16-bit value that follows. -/
def Obligations.EscvFollowsItsFirstByte : Prop :=
  ∀ s : State, s.inited = true →
    ∃ s₁ t, exec .byte s = .next s₁ ∧ exec .escv s = .next t ∧ t.res < 65536 ∧
      (s₁.res < 255 → t = s₁ ∧ t.wcur = s.wcur + s.cfg.upb) ∧
      (s₁.res = 255 → exec .short s₁ = .next t ∧ t.wcur = s.wcur + 3 * s.cfg.upb)

/-- READINT is ESCV under ESC_RL and TAGV under TAG_RL, where it completes with a value of 16 bits, moves the cursor by the length of a
token and touches no other state but OVR (and the model's RES and draws, logs 7 and 4). -/
def Obligations.ReadintIsTheSchemesDecoder : Prop :=
  ∀ s : State, s.inited = true →
    (s.cfg.scheme = .escRl → exec .readint s = exec .escv s) ∧
    (s.cfg.scheme = .tagRl → exec .readint s = exec .tagv s) ∧
    (s.cfg.scheme ≠ .qt → ∃ t i, exec .readint s = .next t ∧ t.res < 65536 ∧
      i.wf = true ∧ i.scheme? = some s.cfg.scheme ∧ i.runLength? = some t.res ∧
      t.wcur = s.wcur + (encode i).length / s.cfg.bpu ∧ (t.status = s.status ∨ t.status = s.status ||| 1#3) ∧
      t = { s with wcur := t.wcur, res := t.res, status := t.status, draws := t.draws })

/-- Round trip: over any encoding of `v` in the scheme, the shortest or a redundant one, READINT returns `v` and moves by exactly the
encoding's length; the shortest form of `v` is such an encoding. -/
def Obligations.ReadintRoundTrip : Prop :=
  ∀ (s : State) (i : Instr) (v : Nat), s.inited = true →
    i.wf = true → i.scheme? = some s.cfg.scheme →
    (i.runLength? = some v ∨ (v ≤ 65535 ∧ shortestRun s.cfg.scheme v = some i)) →
    s.holds (encode i) →
    exec .readint s = .next { s with wcur := s.wcur + (encode i).length / s.cfg.bpu, res := v }

/-! ### The chunk streamer (42_chunk_streamer.md) -/

/-- WLOAD: the window registers get the offset, the clamped length, the asset's bytes and the starting offset; nothing else changes;
where no register has reached the width `2^CW`, none does, and neither does an argument given to the asset port. -/
def Obligations.WloadLoadsClampedWindow : Prop :=
  ∀ s : State, s.inited = true →
    ∃ t, exec .wload s = .next t ∧
      t = { s with woff := t.woff, wbuf := t.wbuf, so := t.so, wcur := t.wcur } ∧
      t.woff = s.cursor / s.cfg.upb ∧ t.so = s.cursor % s.cfg.upb ∧ t.wcur = t.so ∧
      t.wlen = min s.cfg.npix (s.cfg.assetSize - t.woff - 1) ∧
      (∀ j < t.wlen, t.wbuf[j]? = some (memRead s.asset (t.woff + j))) ∧
      (0 < t.wlen → t.woff + t.wlen ≤ s.cfg.assetSize - 1) ∧
      (s.inWidth = true → t.inWidth = true)

/-- After WLOAD the bits of the window are the bits of the asset from the cursor's byte on, and the working cursor stands at the
absolute cursor (42_chunk_streamer.md R163, which the spec marks as its own inference). -/
def Obligations.WindowIsTheAssetAtTheCursor : Prop :=
  ∀ s t : State, s.inited = true → exec .wload s = .next t →
    t.woff * 8 + t.bitPos = s.cursor * s.cfg.bpu ∧
    ∀ p < 8 * t.wlen, streamBit p t = (s.assetBit (t.woff * 8 + p), t)

/-- WCOMMIT: the cursor moves by the working cursor less the starting offset, never backward; nothing else changes. The model's: where
the working cursor is below the starting offset, which no STEP reaches, the cursor stays (log 14). -/
def Obligations.WcommitAdvancesCursor : Prop :=
  ∀ s : State, s.inited = true →
    exec .wcommit s = .next { s with cursor := s.cursor + (s.wcur - s.so) }

/-- WRELEASE: only the window registers become unspecified (and one free value is taken, log 5); it always completes. -/
def Obligations.WreleaseFreesOnlyTheWindow : Prop :=
  ∀ s : State, s.inited = true →
    ∃ t, exec .wrelease s = .next t ∧
      t = { s with wcur := t.wcur, so := t.so, woff := t.woff, wbuf := t.wbuf, draws := t.draws }

/-! ### The pixel sink (45_pixel_sink.md) -/

/-- SETFG under PACKED1: the pixel's bit is set in its byte of the row, every other byte of memory and every other field is as
before. -/
def Obligations.SetfgSetsOneBit : Prop :=
  ∀ (s : State) (x y : Nat), s.inited = true → s.cfg.wf = true → s.cfg.surfFmt = .packed1 → x < s.cfg.w → y < s.cfg.h →
    ∃ t, exec (.setfg x y) s = .next t ∧ t = { s with surf := t.surf } ∧
      t.surfByte (y + s.cfg.offY) ((x + s.cfg.offX) / 8) =
        s.surfByte (y + s.cfg.offY) ((x + s.cfg.offX) / 8) ||| (1#8 <<< (7 - (x + s.cfg.offX) % 8)) ∧
      ∀ a, a ≠ pixelKey s.cfg x y → memRead t.surf a = memRead s.surf a

/-- SETFG under INDEXED8: the foreground index is stored in the pixel's byte of the row, every other byte of memory and every other
field is as before. -/
def Obligations.SetfgStoresTheIndex : Prop :=
  ∀ (s : State) (x y : Nat), s.inited = true → s.cfg.wf = true → s.cfg.surfFmt = .indexed8 → Mem.wf s.surf = true →
    x < s.cfg.w → y < s.cfg.h →
    ∃ t, exec (.setfg x y) s = .next t ∧ t = { s with surf := t.surf } ∧
      t.surfByte (y + s.cfg.offY) (x + s.cfg.offX) = s.cfg.fgIndex ∧
      ∀ a, a ≠ pixelKey s.cfg x y → memRead t.surf a = memRead s.surf a

/-- SETFG makes its pixel foreground, leaves every other pixel of the surface as it was, on the canvas or outside it, under either format,
and is idempotent. -/
def Obligations.SetfgShowsOnePixelOnce : Prop :=
  ∀ (s t : State) (x y : Nat), Mem.wf s.surf = true → exec (.setfg x y) s = .next t →
    exec (.setfg x y) t = .next t ∧ t.isFg x y = true ∧
    (∀ x' y', (x', y') ≠ (x, y) → t.isFg x' y' = s.isFg x' y') ∧
    s.keepsPixelsBut (fun x' y' => x' = x ∧ y' = y) t

/-! ### The run-length decoder (43_run_length_decoder.md) -/

/-- A run token completes: the cursor moves past it, the run is recorded, the pixels up to the run's end or the frame's are counted, the
class flips, RLX is recorded exactly when the run is longer than the pixels left; only PIX and the surface change besides. -/
def Obligations.RunTokenCountsAndFlips : Prop :=
  ∀ (i : Instr) (n : Nat) (s : State), s.inited = true → s.cfg.wf = true → s.pix.length = s.cfg.npix →
    i.wf = true → i.scheme? = some s.cfg.scheme → i.runLength? = some n →
    ∃ t, exec i s = .next t ∧
      t = { s with
        wcur := s.wcur + (encode i).length / s.cfg.bpu, run := n, pcnt := s.pcnt + min n (s.cfg.npix - s.pcnt),
        cls := !s.cls, status := if s.cfg.npix - s.pcnt < n then s.status ||| 2#3 else s.status,
        pix := t.pix, surf := t.surf }

/-- A run token's pixels: under a changed token each covered entry of PIX is inverted, under an unchanged one none, and no other entry
changes. -/
def Obligations.RunTokenTogglesItsPixels : Prop :=
  ∀ (i : Instr) (n : Nat) (s t : State), i.runLength? = some n → exec i s = .next t →
    ∀ j, t.pix[j]? =
      if s.pcnt ≤ j ∧ j < s.pcnt + min n (s.cfg.npix - s.pcnt) then (s.pix[j]?).map (xor s.cls) else s.pix[j]?

/-- What a run token does to the surface: a covered pixel is shown if it is true after the toggle, every other pixel of the surface, on the
canvas or outside it, is as before, and no byte changes but those of the covered pixels. -/
def Obligations.RunTokenShowsItsPixels : Prop :=
  ∀ (i : Instr) (n : Nat) (s t : State), i.runLength? = some n → Mem.wf s.surf = true → s.cfg.wf = true →
    exec i s = .next t →
    (∀ x y, x < s.cfg.w → y < s.cfg.h →
      t.isFg x y = (s.isFg x y ||
        (decide (s.pcnt ≤ y * s.cfg.w + x) && decide (y * s.cfg.w + x < s.pcnt + min n (s.cfg.npix - s.pcnt)) &&
          t.pix.getD (y * s.cfg.w + x) false))) ∧
    s.keepsPixelsBut (fun x y => s.cfg.onCanvas x y ∧ (s.pcnt ≤ y * s.cfg.w + x ∧
      y * s.cfg.w + x < s.pcnt + min n (s.cfg.npix - s.pcnt)) ∧ t.pix.getD (y * s.cfg.w + x) false = true) t ∧
    ∀ a, (∀ j, s.pcnt ≤ j → j < s.pcnt + min n (s.cfg.npix - s.pcnt) → a ≠ pixelKey s.cfg (j % s.cfg.w) (j / s.cfg.w)) →
      memRead t.surf a = memRead s.surf a

/-- A zero-length run touches no pixel and flips the class; it needs nothing of PIX or of the surface. -/
def Obligations.ZeroRunOnlyFlips : Prop :=
  ∀ (i : Instr) (s : State), s.inited = true → i.scheme? = some s.cfg.scheme → i.runLength? = some 0 →
    exec i s = .next { s with wcur := s.wcur + (encode i).length / s.cfg.bpu, run := 0, cls := !s.cls }

/-- RLPIXEL: under a changed token the entry is inverted, under an unchanged one not; then the pixel is written by SETFG exactly when
the entry is true. -/
def Obligations.RlpixelTogglesThenShows : Prop :=
  ∀ (s : State) (j : Nat) (c v : Bool), s.inited = true → s.cfg.scheme ≠ .qt → s.cfg.wf = true →
    s.pix.length = s.cfg.npix → s.pix[j]? = some v →
    (∃ t, exec (.rlpixel j c) s = .next t ∧ t = { s with pix := s.pix.set j (xor c v), surf := t.surf }) ∧
    (xor c v = false → exec (.rlpixel j c) s = .next { s with pix := s.pix.set j false }) ∧
    (xor c v = true → exec (.rlpixel j c) s =
      exec (.setfg (j % s.cfg.w) (j / s.cfg.w)) { s with pix := s.pix.set j true })

/-- The toggle is self-inverse: a changed pixel processed twice restores PIX. -/
def Obligations.ToggleTwiceRestores : Prop :=
  ∀ (s t u : State) (j : Nat), exec (.rlpixel j true) s = .next t → exec (.rlpixel j true) t = .next u → u.pix = s.pix

/-- RLFRAME over a stream whose run tokens make exactly one frame: it completes just past the last token, with no condition recorded,
and PIX is toggled exactly where the class is changed. -/
def Obligations.RlframeDecodesOneFrame : Prop :=
  ∀ (s : State) (ts : List Instr) (ns : List Nat), s.inited = true → s.cfg.wf = true → s.cfg.scheme ≠ .qt →
    s.pix.length = s.cfg.npix → s.runs ts ns → s.oneFrame ns → s.holds (ts.flatMap encode) →
    ∃ t, exec .rlframe s = .next t ∧
      t = { s with
        wcur := s.wcur + (ts.flatMap encode).length / s.cfg.bpu, pcnt := s.cfg.npix, cls := decide (ns.length % 2 = 1),
        run := ns.getLastD 0, pix := t.pix, surf := t.surf } ∧
      ∀ j, t.pix[j]? = (s.pix[j]?).map (xor (runClass false ns j))

/-- However a frame's bits come, from the window or as draws: RLFRAME ends with exactly NPIX pixels consumed, or it runs out of fuel
(log 8); PIX keeps its size, and no register of the player, no pixel of the surface outside the canvas and no byte of no pixel of the
canvas changes. -/
def Obligations.RlframeConsumesTheFrameOrRunsOut : Prop :=
  ∀ s : State, s.inited = true → s.cfg.wf = true → s.cfg.scheme ≠ .qt → s.pix.length = s.cfg.npix →
    exec .rlframe s = .fault .frameUnfinished ∨
    ∃ t, exec .rlframe s = .next t ∧ t.pcnt = s.cfg.npix ∧ t.pix.length = s.cfg.npix ∧ s.wcur ≤ t.wcur ∧
      t = { s with
        wcur := t.wcur, pcnt := t.pcnt, cls := t.cls, run := t.run, pix := t.pix, status := t.status, surf := t.surf,
        draws := t.draws } ∧
      (Mem.wf s.surf = true → s.keepsPixelsBut s.cfg.onCanvas t) ∧
      ∀ a, (∀ x y, x < s.cfg.w → y < s.cfg.h → a ≠ pixelKey s.cfg x y) → memRead t.surf a = memRead s.surf a

/-- After a run-length frame on a pre-cleared surface a logical pixel is foreground exactly when its entry of PIX is true
(43_run_length_decoder.md R188, which the spec marks as its own inference), and every pixel of the surface that is not one of these,
outside the canvas and in a byte shared with it too, is as the host left it, as is every byte of no pixel of the canvas. -/
def Obligations.RlframeShowsPix : Prop :=
  ∀ s t : State, s.cfg.wf = true → s.pix.length = s.cfg.npix → Mem.wf s.surf = true →
    (∀ x y, x < s.cfg.w → y < s.cfg.h → s.isFg x y = false) → exec .rlframe s = .next t →
    (∀ x y, x < s.cfg.w → y < s.cfg.h → t.isFg x y = t.pix.getD (y * s.cfg.w + x) false) ∧
    s.keepsPixelsBut (fun x y => s.cfg.onCanvas x y ∧ t.pix.getD (y * s.cfg.w + x) false = true) t ∧
    ∀ a, (∀ x y, x < s.cfg.w → y < s.cfg.h → a ≠ pixelKey s.cfg x y) → memRead t.surf a = memRead s.surf a

/-! ### The quadtree decoder (44_quadtree_decoder.md) -/

/-- Split geometry: left column and top row have the ceil halves, right column and bottom row the floor halves, in all four children; the
origins follow; and every pixel of the parent lies in exactly one child, no other pixel in any. -/
def Obligations.SplitTilesTheRectangle : Prop :=
  ∀ (r : QNode) (x y : Nat),
    r.tl.w + r.tr.w = r.w ∧ r.bl.w + r.br.w = r.w ∧ r.tl.h + r.bl.h = r.h ∧ r.tr.h + r.br.h = r.h ∧
    (r.tl.w = (r.w + 1) / 2 ∧ r.tr.w = r.w / 2 ∧ r.bl.w = (r.w + 1) / 2 ∧ r.br.w = r.w / 2) ∧
    (r.tl.h = (r.h + 1) / 2 ∧ r.tr.h = (r.h + 1) / 2 ∧ r.bl.h = r.h / 2 ∧ r.br.h = r.h / 2) ∧
    (r.tl.x = r.x ∧ r.tr.x = r.x + (r.w + 1) / 2 ∧ r.bl.x = r.x ∧ r.br.x = r.x + (r.w + 1) / 2) ∧
    (r.tl.y = r.y ∧ r.tr.y = r.y ∧ r.bl.y = r.y + (r.h + 1) / 2 ∧ r.br.y = r.y + (r.h + 1) / 2) ∧
    ([r.tl, r.tr, r.bl, r.br].filter fun q => q.covers x y).length = if r.covers x y then 1 else 0

/-- QSPLIT below the depth limit: the rectangle on top gives way to its four children, top-left on top; nothing else changes but the
cursor and QDEPTH. -/
def Obligations.QsplitPushesTheChildren : Prop :=
  ∀ (s : State) (r : QNode) (rest : List QNode), s.inited = true → s.cfg.scheme = .qt → s.cfg.qtSkipEmpty = false →
    s.qstk = r :: rest → r.d < s.cfg.qtMaxDepth →
    exec .qsplit s = .next { s with
      wcur := s.wcur + 1, qdepth := r.d, qstk := r.tl :: r.tr :: r.bl :: r.br :: rest }

/-- QSPLIT at the depth limit raises QTO: STATUS.QTO is set, PHASE becomes FAULT, the STEP is over, and the cursor, the frame counter,
the configuration, PIX and the memories stay; the transient registers are unspecified. -/
def Obligations.QsplitTooDeepFaults : Prop :=
  ∀ (s : State) (r : QNode) (rest : List QNode), s.inited = true → s.cfg.scheme = .qt →
    s.qstk = r :: rest → s.cfg.qtMaxDepth ≤ r.d →
    ∃ t, exec .qsplit s = .next t ∧
      t = { s with
        status := s.status ||| 4#3, phase := .fault, busy := false, wcur := t.wcur, so := t.so, woff := t.woff, wbuf := t.wbuf,
        pcnt := t.pcnt, cls := t.cls, run := t.run, qstk := t.qstk, qdepth := t.qdepth, draws := t.draws }

/-- QLEAF.BG takes its rectangle off the stack and makes no surface access; QLEAF.FG takes it off and is FILL on it. -/
def Obligations.LeavesLeaveOrFill : Prop :=
  ∀ (s : State) (r : QNode) (rest : List QNode), s.inited = true → s.cfg.scheme = .qt → s.qstk = r :: rest →
    exec .qleafBg s = .next { s with wcur := s.wcur + 2, qdepth := r.d, qstk := rest } ∧
    exec .qleafFg s = exec (.fill r.x r.y r.w r.h) { s with wcur := s.wcur + 2, qdepth := r.d, qstk := rest } ∧
    (s.cfg.wf = true → s.cfg.inside r = true →
      ∃ t, exec .qleafFg s = .next t ∧ t = { s with wcur := s.wcur + 2, qdepth := r.d, qstk := rest, surf := t.surf })

/-- FILL on a rectangle of the canvas makes every pixel of it foreground, leaves every other pixel of the surface, on the canvas or outside
it, and every byte of no pixel of it as before, and changes nothing but the surface; a rectangle of zero area changes nothing at all. -/
def Obligations.FillSetsTheRectangle : Prop :=
  ∀ (s : State) (x y w h : Nat), s.inited = true → s.cfg.wf = true → Mem.wf s.surf = true →
    s.cfg.inside ⟨x, y, w, h, 0⟩ = true →
    (∃ t, exec (.fill x y w h) s = .next t ∧ t = { s with surf := t.surf } ∧
      (∀ px py, t.isFg px py = (s.isFg px py || (⟨x, y, w, h, 0⟩ : QNode).covers px py)) ∧
      s.keepsPixelsBut (fun px py => (⟨x, y, w, h, 0⟩ : QNode).covers px py = true) t ∧
      ∀ a, (∀ px py, (⟨x, y, w, h, 0⟩ : QNode).covers px py = true → a ≠ pixelKey s.cfg px py) →
        memRead t.surf a = memRead s.surf a) ∧
    (w = 0 ∨ h = 0 → exec (.fill x y w h) s = .next s)

/-- QTFRAME is QTNODE on the whole canvas at depth 0, with nothing pending; over the bits of a tree it completes just past them, and
every pixel of the tree's foreground leaves becomes foreground, every other pixel of the surface, on the canvas or outside it, stays
(44_quadtree_decoder.md R209, which the spec marks as its own inference). -/
def Obligations.QtframeDecodesTheCanvas : Prop :=
  ∀ s : State, s.inited = true → s.cfg.scheme = .qt →
    exec .qtframe s = exec (.qtnode 0 0 s.cfg.w s.cfg.h 0) { s with qstk := [] } ∧
    ∀ tr : QTree, s.cfg.wf = true → s.cfg.qtSkipEmpty = false → Mem.wf s.surf = true → tr.depth ≤ s.cfg.qtMaxDepth →
      s.holds tr.bits →
      ∃ t, exec .qtframe s = .next t ∧
        t = { s with wcur := s.wcur + tr.bits.length, qstk := [], qdepth := t.qdepth, surf := t.surf } ∧
        (∀ x y, t.isFg x y = (s.isFg x y || tr.foreground s.cfg.root x y)) ∧
        s.keepsPixelsBut (fun x y => s.cfg.onCanvas x y ∧ tr.foreground s.cfg.root x y = true) t

/-- QTNODE on a rectangle of the canvas, QTFRAME and, under QT, STEP always complete, whatever bits or draws they read: with the frame
decoded, or with QTO taken; QTNODE changes neither the cursor, the frame counter, the configuration, PIX, the asset, any pixel of the
surface outside its rectangle, on the canvas or not, nor any byte of no pixel of its rectangle. -/
def Obligations.QuadtreeAlwaysCompletes : Prop :=
  ∀ (s : State) (x y w h d : Nat), s.inited = true → s.cfg.wf = true → s.cfg.upb = 8 → s.cfg.inside ⟨x, y, w, h, d⟩ = true →
    (∃ t, exec (.qtnode x y w h d) s = .next t ∧
      t.cursor = s.cursor ∧ t.fc = s.fc ∧ t.cfg = s.cfg ∧ t.pix = s.pix ∧ t.asset = s.asset ∧
      ((t.phase = s.phase ∧ t.busy = s.busy ∧ t.so = s.so ∧ t.woff = s.woff ∧ t.wbuf = s.wbuf ∧ s.wcur < t.wcur) ∨
       (t.phase = .fault ∧ t.busy = false ∧ Condition.qto.recorded t.status = true)) ∧
      (Mem.wf s.surf = true → s.keepsPixelsBut (fun px py => (⟨x, y, w, h, d⟩ : QNode).covers px py = true) t) ∧
      ∀ a, (∀ px py, (⟨x, y, w, h, d⟩ : QNode).covers px py = true → a ≠ pixelKey s.cfg px py) →
        memRead t.surf a = memRead s.surf a) ∧
    (s.cfg.scheme = .qt → (∃ t, exec .qtframe s = .next t) ∧ (s.busy = false → ∃ t, exec .step s = .next t))

/-- QTNODE over the bits of a tree laid on a rectangle of the canvas: it completes just past them, exactly the pixels of the tree's
foreground leaves become foreground, every other pixel of the surface, on the canvas or outside it, stays, and nothing changes but the
cursor, QDEPTH and the surface. -/
def Obligations.QtnodeDrawsTheTree : Prop :=
  ∀ (s : State) (tr : QTree) (x y w h d : Nat), s.inited = true → s.cfg.wf = true → s.cfg.upb = 8 →
    s.cfg.qtSkipEmpty = false → Mem.wf s.surf = true → s.cfg.inside ⟨x, y, w, h, d⟩ = true →
    tr.depth ≤ s.cfg.qtMaxDepth - d → s.holds tr.bits →
    ∃ t, exec (.qtnode x y w h d) s = .next t ∧
      t = { s with wcur := s.wcur + tr.bits.length, qdepth := t.qdepth, surf := t.surf } ∧
      (∀ px py, t.isFg px py = (s.isFg px py || tr.foreground ⟨x, y, w, h, d⟩ px py)) ∧
      s.keepsPixelsBut (fun px py => (⟨x, y, w, h, d⟩ : QNode).covers px py = true ∧ tr.foreground ⟨x, y, w, h, d⟩ px py = true) t ∧
      ∀ a, (∀ px py, (⟨x, y, w, h, d⟩ : QNode).covers px py = true → a ≠ pixelKey s.cfg px py) →
        memRead t.surf a = memRead s.surf a

/-! ### The player (46_player_control.md) -/

/-- INIT with a configuration the block accepts establishes it, with the asset's size as the asset port answers it, and the reset state,
and touches neither memory. -/
def Obligations.InitEstablishesTheResetState : Prop :=
  ∀ (s : State) (a : InitArgs) (c : Cfg), s.busy = false → a.derive s.assetSize = .ok c →
    ∃ t, exec (.init a) s = .next t ∧ t.inited = true ∧ t.cfg = c ∧ t.cursor = 0 ∧ t.fc = 0 ∧ t.status = 0#3 ∧
      t.phase = .idle ∧ t.pix = List.replicate (if c.scheme = .qt then 0 else c.w * c.h) false ∧
      t.surf = s.surf ∧ t.asset = s.asset ∧ t.assetSize = s.assetSize ∧ t.busy = false ∧ t.host = s.host ∧ t.res = s.res

/-- What the accepted configuration is: every register is its operand, the size is the asset port's answer, the canvas is as given or
derived from the surface, the scheme and the format are those of their codes, the default depth limit is the least `d` with
`max(W, H) <= 2^d`; every register has a legal value, so the canvas is not empty nor larger than the surface, the loop has frames, and
the rate is positive (that FPS = 0 is refused is the model's: log 12; QT_SKIP_EMPTY is the model's register: log 13). -/
def Obligations.InitDerivesTheConfiguration : Prop :=
  ∀ (a : InitArgs) (size : Nat) (c : Cfg), a.derive size = .ok c →
    c.legal = true ∧ 0 < c.fps ∧ 0 < c.nframes ∧ 0 < c.w ∧ c.w ≤ c.surfW ∧ 0 < c.h ∧ c.h ≤ c.surfH ∧
    c.nframes = a.nframes ∧ c.fps = a.fps ∧ c.surfW = a.surfW ∧ c.surfH = a.surfH ∧ c.fgIndex = a.fgIndex ∧
    c.dimsFromSurface = a.dimsFromSurface ∧ c.round = a.round ∧ c.roundNum = a.roundNum ∧ c.roundDen = a.roundDen ∧
    c.qtSkipEmpty = a.qtSkipEmpty ∧ c.cw = a.cw ∧ c.assetSize = size ∧
    c.scheme.code.toNat = a.schemeCode ∧ c.surfFmt.code = a.surfFmtCode ∧
    (a.dimsFromSurface = false → c.w = a.w ∧ c.h = a.h) ∧
    (a.dimsFromSurface = true → c.scheme = .qt) ∧
    (a.dimsFromSurface = true → a.round = false → c.w = a.surfW ∧ c.h = a.surfH) ∧
    (a.dimsFromSurface = true → a.round = true →
      c.w = a.surfW * a.roundNum / a.roundDen ∧ c.h = a.surfH * a.roundNum / a.roundDen) ∧
    (∀ d, a.qtMaxDepth = some d → c.qtMaxDepth = d) ∧
    (a.qtMaxDepth = none → max c.w c.h ≤ 2 ^ c.qtMaxDepth ∧ ∀ e, max c.w c.h ≤ 2 ^ e → c.qtMaxDepth ≤ e)

/-- The configurations the spec lists as refused are refused, by name; so are, and that is the model's choice (log 12), FPS = 0 and a
round ratio in use that is not `0 < ROUND_NUM <= ROUND_DEN`. -/
def Obligations.InitRefusesIllFormed : Prop :=
  ∀ (s : State) (a : InitArgs), s.busy = false →
    (3 ≤ a.schemeCode ∨ a.upb = some 2 ∨ (a.dimsFromSurface = true ∧ a.schemeCode ≠ 2) ∨ a.nframes = 0 ∨ a.fps = 0 ∨
      (a.dimsFromSurface = false ∧ (a.w = 0 ∨ a.h = 0 ∨ a.surfW < a.w ∨ a.surfH < a.h)) ∨
      (a.dimsFromSurface = true ∧ (a.surfW = 0 ∨ a.surfH = 0)) ∨
      (a.dimsFromSurface = true ∧ a.round = true ∧ (a.roundNum = 0 ∨ a.roundDen < a.roundNum))) →
    ∃ d, exec (.init a) s = .refused (.illFormedConfig d)

/-- RESET clears the cursor, the frame counter and PIX, PHASE becomes IDLE; STATUS, the configuration and the memories stay (RESET as an
operation on its own, and that it leaves FAULT, where the spec never has it, are the model's: log 15). -/
def Obligations.ResetClearsTheLoop : Prop :=
  ∀ s : State, s.inited = true →
    ∃ t, exec .reset s = .next t ∧ t.cursor = 0 ∧ t.fc = 0 ∧ t.phase = .idle ∧
      t.pix = List.replicate (if s.cfg.scheme = .qt then 0 else s.cfg.w * s.cfg.h) false ∧
      t.status = s.status ∧ t.cfg = s.cfg ∧ t.surf = s.surf ∧ t.asset = s.asset ∧ t.inited = true ∧ t.busy = s.busy ∧
      t.host = s.host ∧ t.res = s.res

/-- STEP in FAULT does nothing, as an operation and as the host's command; and of the acts of the host INIT alone takes the block out of
FAULT (the host's list is the model's: log 2). -/
def Obligations.StepInFaultDoesNothing : Prop :=
  ∀ (s : State) (rest : List HostAct), s.inited = true → s.busy = false → s.phase = .fault →
    exec .step s = .next s ∧
    Sys2Proof.Machine.step { s with host := .step :: rest } = .next { s with host := rest } ∧
    ∀ t, Sys2Proof.Machine.step s = .next t → (∀ a acts, s.host ≠ .init a :: acts) → t.phase = .fault

/-- The state machine: a STEP from IDLE or STREAMING that completes its frame advances the cursor and the counter together and wraps after
the last frame; one that takes QTO keeps both, and PHASE is FAULT; the configuration and the asset never change, and no STEP is in
progress after it. -/
def Obligations.StepMovesTheStateMachine : Prop :=
  ∀ s t : State, s.phase ≠ .fault → exec .step s = .next t →
    t.cfg = s.cfg ∧ t.asset = s.asset ∧ t.inited = true ∧ t.busy = false ∧ t.host = s.host ∧ t.res = s.res ∧
    ((∃ adv, s.counted adv t) ∨
     (s.cfg.scheme = .qt ∧ t.phase = .fault ∧ t.cursor = s.cursor ∧ t.fc = s.fc ∧ t.pix = s.pix ∧
       Condition.qto.recorded t.status = true))

/-- STEP plays a quadtree frame: on an asset that holds a tree's bits at the cursor, inside the window, it completes with no condition
recorded, shows exactly the tree's foreground leaves, leaves every other pixel of the surface, on the canvas or outside it, as the host
left it, and moves past its bits. -/
def Obligations.StepPlaysATree : Prop :=
  ∀ (s : State) (tr : QTree), s.inited = true → s.busy = false → s.phase ≠ .fault → s.cfg.scheme = .qt → s.cfg.wf = true →
    s.cfg.qtSkipEmpty = false → Mem.wf s.surf = true → tr.depth ≤ s.cfg.qtMaxDepth → s.plays tr.bits →
    ∃ t, exec .step s = .next t ∧ t.status = s.status ∧ s.counted tr.bits.length t ∧
      (∀ x y, t.isFg x y = (s.isFg x y || tr.foreground s.cfg.root x y)) ∧
      s.keepsPixelsBut (fun x y => s.cfg.onCanvas x y ∧ tr.foreground s.cfg.root x y = true) t ∧
      ∀ a, (∀ x y, x < s.cfg.w → y < s.cfg.h → a ≠ pixelKey s.cfg x y) → memRead t.surf a = memRead s.surf a

/-- STEP plays a run-length frame: on an asset that holds run tokens making exactly one frame at the cursor, inside the window, it
completes with no condition recorded and moves past them; unless the loop wraps, PIX is toggled exactly where the class is changed;
a pixel is foreground exactly if it was before or its toggled entry is true, and every pixel of the surface that is not of a true entry,
on the canvas or outside it, is as the host left it. -/
def Obligations.StepPlaysARunLengthFrame : Prop :=
  ∀ (s : State) (ts : List Instr) (ns : List Nat), s.inited = true → s.busy = false → s.phase ≠ .fault →
    s.cfg.scheme ≠ .qt → s.cfg.wf = true → s.pix.length = s.cfg.npix → Mem.wf s.surf = true →
    s.runs ts ns → s.oneFrame ns → s.plays (ts.flatMap encode) →
    ∃ t, exec .step s = .next t ∧ t.status = s.status ∧ s.counted ((ts.flatMap encode).length / s.cfg.bpu) t ∧
      (s.fc + 1 ≠ s.cfg.nframes → ∀ j, t.pix[j]? = (s.pix[j]?).map (xor (runClass false ns j))) ∧
      (∀ x y, x < s.cfg.w → y < s.cfg.h →
        t.isFg x y = (s.isFg x y || xor (runClass false ns (y * s.cfg.w + x)) (s.pix.getD (y * s.cfg.w + x) false))) ∧
      s.keepsPixelsBut (fun x y => s.cfg.onCanvas x y ∧
        xor (runClass false ns (y * s.cfg.w + x)) (s.pix.getD (y * s.cfg.w + x) false) = true) t ∧
      ∀ a, (∀ x y, x < s.cfg.w → y < s.cfg.h → a ≠ pixelKey s.cfg x y) → memRead t.surf a = memRead s.surf a

/-! ### Rules of the whole machine -/

/-- The ways to change CURSOR are the commit, RESET and INIT (and STEP, which runs them): no other instruction does. -/
def Obligations.OnlyCommitAndResetsMoveCursor : Prop :=
  ∀ (i : Instr) (s t : State), exec i s = .next t →
    i ≠ .wcommit → i ≠ .reset → i ≠ .step → (∀ a, i ≠ .init a) → t.cursor = s.cursor ∧ t.fc = s.fc

/-- STATUS bits are sticky: only INIT clears one. -/
def Obligations.OnlyInitClearsStatus : Prop :=
  ∀ (i : Instr) (s t : State), exec i s = .next t → (∀ a, i ≠ .init a) →
    ∀ k < 3, s.status.getLsbD k = true → t.status.getLsbD k = true

/-- No instruction writes the asset or changes the size its port answers, and only INIT writes the configuration. -/
def Obligations.AssetAndConfigurationAreReadOnly : Prop :=
  ∀ (i : Instr) (s t : State), exec i s = .next t →
    t.asset = s.asset ∧ t.assetSize = s.assetSize ∧ ((∀ a, i ≠ .init a) → t.cfg = s.cfg)

/-- No instruction writes background: a foreground pixel of the surface stays foreground; the surface's form is kept. -/
def Obligations.ForegroundIsNeverErased : Prop :=
  ∀ (i : Instr) (s t : State), Mem.wf s.surf = true → exec i s = .next t → (∀ a, i ≠ .init a) →
    Mem.wf t.surf = true ∧ ∀ x y, s.isFg x y = true → t.isFg x y = true

/-- Before the first INIT no well-formed instruction but INIT has a meaning; after it, a token, READINT or a frame operation outside its
scheme is refused by name (the names and the refusals of operations are the model's: logs 11 and 15). -/
def Obligations.RefusedBeforeInitAndOutsideTheScheme : Prop :=
  ∀ (i : Instr) (s : State), i.wf = true →
    (s.inited = false → (∀ a, i ≠ .init a) → exec i s = .refused .beforeInit) ∧
    (s.inited = true → ∀ sch, i.scheme? = some sch → sch ≠ s.cfg.scheme → exec i s = .refused .wrongScheme) ∧
    (s.inited = true → s.cfg.scheme = .qt →
      exec .rlframe s = .refused .wrongScheme ∧ exec .readint s = .refused .wrongScheme ∧
      ∀ j c, exec (.rlpixel j c) s = .refused .wrongScheme) ∧
    (s.inited = true → s.cfg.scheme ≠ .qt → exec .qtframe s = .refused .wrongScheme)

/-- Where the other operations stop, and under which name: SETFG at a byte the surface does not have, RLPIXEL at an entry PIX does not
have, a quadtree token with no rectangle pending, a one-byte run of 255, and INIT or STEP while a STEP is in progress (the names are the
model's: logs 11, 15, 19 and 20). -/
def Obligations.StopsOutsideTheDomain : Prop :=
  ∀ s : State, s.inited = true →
    (∀ x y, s.onSurface (y + s.cfg.offY) (pixelByte s.cfg x) = false → exec (.setfg x y) s = .fault .surfaceRange) ∧
    (∀ j c, s.cfg.scheme ≠ .qt → s.pix.length ≤ j → exec (.rlpixel j c) s = .fault .pixelRange) ∧
    (∀ i : Instr, i.scheme? = some .qt → s.cfg.scheme = .qt → s.qstk = [] → exec i s = .refused .noRectangle) ∧
    exec (.runE8 0xFF#8) s = .refused .escapeByte ∧
    (s.busy = true → exec .step s = .refused .overlap ∧ ∀ a, exec (.init a) s = .refused .overlap)

/-! ### The machine's step -/

/-- When a STEP is in progress, its frame not complete, and the bits at the working cursor are those of a well-formed token of the scheme,
the machine's step is exec of that token (the cut of a STEP into machine steps is the model's: log 1). -/
def Obligations.StepRunsTheFetchedToken : Prop :=
  ∀ (s : State) (i : Instr), s.busy = true → s.frameDone = false → i.wf = true → i.scheme? = some s.cfg.scheme →
    s.holds (encode i) → Sys2Proof.Machine.step s = exec i s

/-- Whatever the window holds: the machine's step is exec of some well-formed token of the scheme, in a state that differs from the
present one in OVR and the draws at most (logs 1 and 4). -/
def Obligations.StepAlwaysFindsAToken : Prop :=
  ∀ s : State, s.busy = true → s.frameDone = false →
    ∃ i u, i.wf = true ∧ i.scheme? = some s.cfg.scheme ∧ Sys2Proof.Machine.step s = exec i u ∧
      u = { s with status := u.status, draws := u.draws } ∧ (u.status = s.status ∨ u.status = s.status ||| 1#3)

/-- A STEP is indivisible towards the host: while one is in progress no act of the host is taken and the host's list stays. Between
steps, an INIT is exec of INIT; a STEP of an initialised block outside FAULT loads the window as WLOAD does and sets the frame decoder to
its start, no pixel counted and the class unchanged, or the whole canvas pending; a STEP before INIT is refused; a surface write by the
host stores its byte where the surface has one and faults elsewhere; and with no act pending the block holds its state (the host's list,
the cut of a STEP into machine steps, the refusal's and the fault's name are the model's: logs 2, 1, 15 and 19). -/
def Obligations.HostActsOnlyBetweenSteps : Prop :=
  (∀ s t : State, s.busy = true → Sys2Proof.Machine.step s = .next t → t.host = s.host) ∧
  (∀ s : State, s.busy = false → s.host = [] → Sys2Proof.Machine.step s = .next s) ∧
  (∀ (s : State) (a : InitArgs) (rest : List HostAct), s.busy = false → s.host = .init a :: rest →
    Sys2Proof.Machine.step s = exec (.init a) { s with host := rest }) ∧
  (∀ (s : State) (rest : List HostAct), s.busy = false → s.host = .step :: rest →
    (s.inited = true → s.phase ≠ .fault → ∃ u, exec .wload { s with host := rest } = .next u ∧
      (s.cfg.scheme ≠ .qt → Sys2Proof.Machine.step s = .next { u with busy := true, pcnt := 0, cls := false }) ∧
      (s.cfg.scheme = .qt →
        Sys2Proof.Machine.step s = .next { u with busy := true, qstk := [⟨0, 0, s.cfg.w, s.cfg.h, 0⟩] })) ∧
    (s.inited = false → Sys2Proof.Machine.step s = .refused .beforeInit)) ∧
  (∀ (s : State) (y c : Nat) (v : Byte) (rest : List HostAct), s.busy = false → s.host = .surfWrite y c v :: rest →
    s.inited = true → Mem.wf s.surf = true →
    (s.onSurface y c = true → ∃ t, Sys2Proof.Machine.step s = .next t ∧ t = { s with host := rest, surf := t.surf } ∧
      t.surfByte y c = v ∧ ∀ a, a ≠ surfKey y c → memRead t.surf a = memRead s.surf a) ∧
    (s.onSurface y c = false → Sys2Proof.Machine.step s = .fault .surfaceRange))

/-- A STEP command run machine step by machine step ends in the very state that exec gives the STEP, whenever exec gives one: the
work-stack form of the quadtree and the token-by-token form of the runs are the frame decoders (log 1). -/
def Obligations.MachineStepsMakeTheStep : Prop :=
  ∀ s t : State, exec .step s = .next t →
    ∃ k, (Host.Core.run Sys2Proof.core k ({ s with host := .step :: s.host } : State) : Out) = .next t

/-- The state after reset meets the invariant (every value of it is the model's choice: log 6). -/
def Obligations.ResetMeetsTheInvariant : Prop := Inv State.reset

/-- Every machine step keeps the invariant: canonical memories, a legal configuration with the asset's size in it, the counter
below NFRAMES, PIX of the canvas's size, the phase and the counter in agreement, the window that of the cursor, the pending rectangles
inside the canvas (that FPS = 0 is no legal configuration: log 12). -/
def Obligations.StepKeepsTheInvariant : Prop :=
  ∀ s t : State, Inv s → Sys2Proof.Machine.step s = .next t → Inv t

/-- A block with a STEP in progress never stops: no fault and no refusal, whatever the stream and the draws are. -/
def Obligations.BusyBlockNeverStops : Prop :=
  ∀ s : State, Inv s → s.busy = true → ∃ t, Sys2Proof.Machine.step s = .next t

/-- The work stack never holds more than `3 * QT_MAX_DEPTH + 1` rectangles (44_quadtree_decoder.md R208, which the spec marks as its own
inference). -/
def Obligations.WorkStackIsBounded : Prop :=
  ∀ s : State, Inv s → s.busy = true → s.cfg.scheme = .qt → s.qstk.length ≤ 3 * s.cfg.qtMaxDepth + 1
end

