-- ==== Sys2Proof/Laws/Bits.lean ====
section
/-! SUPPORT. Bits in stream order and the values they stand for. -/

namespace Sys2Proof

@[simp] theorem toBits_length (n v : Nat) : (toBits n v).length = n := by
  induction n with
  | zero => rfl
  | succ n ih => simp [toBits, ih]

theorem ofBitsFrom_eq (bs : List Bool) : ∀ acc, ofBitsFrom acc bs = acc * 2 ^ bs.length + ofBits bs := by
  induction bs with
  | nil => intro acc; simp [ofBits, ofBitsFrom]
  | cons b bs ih =>
    intro acc
    rw [ofBits, ofBitsFrom, ofBitsFrom, ih, ih (0 * 2 + b.toNat), List.length_cons, Nat.pow_succ]
    ring

@[simp] theorem ofBits_nil : ofBits [] = 0 := rfl

/-- The first bit is the most significant. -/
theorem ofBits_cons (b : Bool) (bs : List Bool) : ofBits (b :: bs) = b.toNat * 2 ^ bs.length + ofBits bs := by
  rw [ofBits, ofBitsFrom, ofBitsFrom_eq]; simp

theorem ofBits_append (as bs : List Bool) : ofBits (as ++ bs) = ofBits as * 2 ^ bs.length + ofBits bs := by
  induction as with
  | nil => simp
  | cons a as ih =>
    rw [List.cons_append, ofBits_cons, ih, ofBits_cons, List.length_append, Nat.pow_add]
    ring

theorem ofBits_lt (bs : List Bool) : ofBits bs < 2 ^ bs.length := by
  induction bs with
  | nil => simp
  | cons b bs ih =>
    rw [ofBits_cons, List.length_cons, Nat.pow_succ]
    cases b <;> simp <;> omega

/-- A field's bits read back as its value. -/
theorem ofBits_toBits (n v : Nat) : ofBits (toBits n v) = v % 2 ^ n := by
  induction n with
  | zero => simp [toBits, Nat.mod_one]
  | succ n ih =>
    rw [toBits, ofBits_cons, ih, toBits_length, Nat.mod_pow_succ, Nat.testBit_eq_decide_div_mod_eq]
    rcases Nat.mod_two_eq_zero_or_one (v / 2 ^ n) with h | h <;> simp [h, Nat.add_comm]

theorem ofBits_toBits_of_lt {n v : Nat} (h : v < 2 ^ n) : ofBits (toBits n v) = v := by
  rw [ofBits_toBits, Nat.mod_eq_of_lt h]

/-- Bits of one length are told apart by their value: the first bit is the value's top bit, the others are the remainder. -/
theorem ofBits_inj {as bs : List Bool} (h : as.length = bs.length) (hv : ofBits as = ofBits bs) : as = bs := by
  induction as generalizing bs with
  | nil => exact (List.length_eq_zero_iff.mp h.symm).symm
  | cons a as ih =>
    obtain ⟨b, bs, rfl⟩ := List.exists_cons_of_length_eq_add_one h.symm
    rw [List.length_cons, List.length_cons, Nat.succ_inj] at h
    have h1 := ofBits_lt as
    have h2 := ofBits_lt bs
    rw [ofBits_cons, ofBits_cons, h] at hv
    rw [h] at h1
    have top : a = b ∧ ofBits as = ofBits bs := by
      cases a <;> cases b <;> simp at hv ⊢ <;> omega
    rw [top.1, ih h top.2]

/-- A value's bits are the bits it was read from. -/
theorem toBits_ofBits (bs : List Bool) : toBits bs.length (ofBits bs) = bs :=
  ofBits_inj (toBits_length _ _) (ofBits_toBits_of_lt (ofBits_lt bs))

/-- Taking a field that was written there. -/
theorem takeField_toBits {n v : Nat} (h : v < 2 ^ n) (rest : List Bool) :
    takeField n (toBits n v ++ rest) = some (v, rest) := by
  simp only [takeField, List.length_append, toBits_length, Nat.le_add_right, if_true]
  rw [List.take_left' (toBits_length n v), List.drop_left' (toBits_length n v), ofBits_toBits_of_lt h]

/-- A field taken is what the bits began with. -/
theorem takeField_some {n v : Nat} {bs rest : List Bool} (h : takeField n bs = some (v, rest)) :
    bs = toBits n v ++ rest ∧ v < 2 ^ n := by
  unfold takeField at h
  split at h
  · rename_i hn
    simp only [Option.some.injEq, Prod.mk.injEq] at h
    obtain ⟨rfl, rfl⟩ := h
    have hl : (bs.take n).length = n := by simp [hn]
    have ht := toBits_ofBits (bs.take n)
    have hlt := ofBits_lt (bs.take n)
    rw [hl] at ht hlt
    exact ⟨by rw [ht, List.take_append_drop], hlt⟩
  · cases h

theorem takeField_isSome {n : Nat} {bs : List Bool} (h : n ≤ bs.length) :
    ∃ v rest, takeField n bs = some (v, rest) ∧ rest.length = bs.length - n :=
  ⟨ofBits (bs.take n), bs.drop n, by simp [takeField, h], by simp⟩

@[simp] theorem bytesToBits_length (bs : List Byte) : (bytesToBits bs).length = 8 * bs.length := by
  induction bs with
  | nil => rfl
  | cons b bs ih => simp only [bytesToBits, List.length_append, toBits_length, ih, List.length_cons]; omega

theorem toBits_getElem? (n v : Nat) : ∀ k, k < n → (toBits n v)[k]? = some (v.testBit (n - 1 - k)) := by
  induction n with
  | zero => intro k h; omega
  | succ n ih =>
    intro k h
    cases k with
    | zero => simp [toBits]
    | succ k =>
      have := ih k (by omega)
      simp only [toBits, List.getElem?_cons_succ, this]
      congr 2; omega

/-- Bit position `p` of a block of bytes is bit `7 - p mod 8` of byte `p div 8` (20_memory.md R65). -/
theorem bytesToBits_getElem? (bs : List Byte) : ∀ p, p < 8 * bs.length →
    (bytesToBits bs)[p]? = some ((bs.getD (p / 8) 0#8).getLsbD (7 - p % 8)) := by
  induction bs with
  | nil => intro p h; simp at h
  | cons b bs ih =>
    intro p h
    rw [bytesToBits]
    by_cases hp : p < 8
    · rw [List.getElem?_append_left (by simpa using hp), toBits_getElem? 8 b.toNat p hp]
      have h0 : p / 8 = 0 := by omega
      have h1 : p % 8 = p := by omega
      simp [h0, h1, BitVec.getLsbD]
    · rw [List.getElem?_append_right (by simp; omega), toBits_length, ih (p - 8) (by simp at h; omega)]
      have h0 : p / 8 = (p - 8) / 8 + 1 := by omega
      have h1 : (p - 8) % 8 = p % 8 := by omega
      rw [h0, h1, List.getD_cons_succ]

theorem ofBits_map (n : Nat) (f : Nat → Bool) :
    ofBits ((List.range n).map f) = ∑ k ∈ Finset.range n, (f k).toNat * 2 ^ (n - 1 - k) := by
  induction n generalizing f with
  | zero => rfl
  | succ n ih =>
    rw [List.range_succ_eq_map, List.map_cons, List.map_map, ofBits_cons, Finset.sum_range_succ', ih]
    simp only [List.length_map, List.length_range]
    rw [Nat.add_comm]
    congr 1
    apply Finset.sum_congr rfl
    intro k hk
    simp only [Function.comp]
    congr 2
    omega

theorem ofNat_toNat {n v : Nat} (h : v < 2 ^ n) : (BitVec.ofNat n v).toNat = v := by
  rw [BitVec.toNat_ofNat, Nat.mod_eq_of_lt h]

end Sys2Proof
end

