-- ==== Sys2Proof/Laws/State.lean ====
section
/-! SUPPORT. What each named update of the state does to each field: one lemma per field per update, so that no later proof unfolds
a record update. -/

namespace Sys2Proof.Machine

/-! ### raise -/

@[simp] theorem State.raise_inited (s : State) (c : Condition) : (s.raise c).inited = s.inited := rfl
@[simp] theorem State.raise_cfg (s : State) (c : Condition) : (s.raise c).cfg = s.cfg := rfl
@[simp] theorem State.raise_cursor (s : State) (c : Condition) : (s.raise c).cursor = s.cursor := rfl
@[simp] theorem State.raise_fc (s : State) (c : Condition) : (s.raise c).fc = s.fc := rfl
@[simp] theorem State.raise_pix (s : State) (c : Condition) : (s.raise c).pix = s.pix := rfl
@[simp] theorem State.raise_status (s : State) (c : Condition) : (s.raise c).status = c.set s.status := rfl
@[simp] theorem State.raise_phase (s : State) (c : Condition) : (s.raise c).phase = s.phase := rfl
@[simp] theorem State.raise_wcur (s : State) (c : Condition) : (s.raise c).wcur = s.wcur := rfl
@[simp] theorem State.raise_so (s : State) (c : Condition) : (s.raise c).so = s.so := rfl
@[simp] theorem State.raise_woff (s : State) (c : Condition) : (s.raise c).woff = s.woff := rfl
@[simp] theorem State.raise_wbuf (s : State) (c : Condition) : (s.raise c).wbuf = s.wbuf := rfl
@[simp] theorem State.raise_pcnt (s : State) (c : Condition) : (s.raise c).pcnt = s.pcnt := rfl
@[simp] theorem State.raise_cls (s : State) (c : Condition) : (s.raise c).cls = s.cls := rfl
@[simp] theorem State.raise_run (s : State) (c : Condition) : (s.raise c).run = s.run := rfl
@[simp] theorem State.raise_qstk (s : State) (c : Condition) : (s.raise c).qstk = s.qstk := rfl
@[simp] theorem State.raise_qdepth (s : State) (c : Condition) : (s.raise c).qdepth = s.qdepth := rfl
@[simp] theorem State.raise_asset (s : State) (c : Condition) : (s.raise c).asset = s.asset := rfl
@[simp] theorem State.raise_assetSize (s : State) (c : Condition) : (s.raise c).assetSize = s.assetSize := rfl
@[simp] theorem State.raise_surf (s : State) (c : Condition) : (s.raise c).surf = s.surf := rfl
@[simp] theorem State.raise_busy (s : State) (c : Condition) : (s.raise c).busy = s.busy := rfl
@[simp] theorem State.raise_res (s : State) (c : Condition) : (s.raise c).res = s.res := rfl
@[simp] theorem State.raise_draws (s : State) (c : Condition) : (s.raise c).draws = s.draws := rfl
@[simp] theorem State.raise_host (s : State) (c : Condition) : (s.raise c).host = s.host := rfl

/-! ### seek -/

@[simp] theorem State.seek_inited (s : State) (v : Nat) : (s.seek v).inited = s.inited := rfl
@[simp] theorem State.seek_cfg (s : State) (v : Nat) : (s.seek v).cfg = s.cfg := rfl
@[simp] theorem State.seek_cursor (s : State) (v : Nat) : (s.seek v).cursor = s.cursor := rfl
@[simp] theorem State.seek_fc (s : State) (v : Nat) : (s.seek v).fc = s.fc := rfl
@[simp] theorem State.seek_pix (s : State) (v : Nat) : (s.seek v).pix = s.pix := rfl
@[simp] theorem State.seek_status (s : State) (v : Nat) : (s.seek v).status = s.status := rfl
@[simp] theorem State.seek_phase (s : State) (v : Nat) : (s.seek v).phase = s.phase := rfl
@[simp] theorem State.seek_wcur (s : State) (v : Nat) : (s.seek v).wcur = v := rfl
@[simp] theorem State.seek_so (s : State) (v : Nat) : (s.seek v).so = s.so := rfl
@[simp] theorem State.seek_woff (s : State) (v : Nat) : (s.seek v).woff = s.woff := rfl
@[simp] theorem State.seek_wbuf (s : State) (v : Nat) : (s.seek v).wbuf = s.wbuf := rfl
@[simp] theorem State.seek_pcnt (s : State) (v : Nat) : (s.seek v).pcnt = s.pcnt := rfl
@[simp] theorem State.seek_cls (s : State) (v : Nat) : (s.seek v).cls = s.cls := rfl
@[simp] theorem State.seek_run (s : State) (v : Nat) : (s.seek v).run = s.run := rfl
@[simp] theorem State.seek_qstk (s : State) (v : Nat) : (s.seek v).qstk = s.qstk := rfl
@[simp] theorem State.seek_qdepth (s : State) (v : Nat) : (s.seek v).qdepth = s.qdepth := rfl
@[simp] theorem State.seek_asset (s : State) (v : Nat) : (s.seek v).asset = s.asset := rfl
@[simp] theorem State.seek_assetSize (s : State) (v : Nat) : (s.seek v).assetSize = s.assetSize := rfl
@[simp] theorem State.seek_surf (s : State) (v : Nat) : (s.seek v).surf = s.surf := rfl
@[simp] theorem State.seek_busy (s : State) (v : Nat) : (s.seek v).busy = s.busy := rfl
@[simp] theorem State.seek_res (s : State) (v : Nat) : (s.seek v).res = s.res := rfl
@[simp] theorem State.seek_draws (s : State) (v : Nat) : (s.seek v).draws = s.draws := rfl
@[simp] theorem State.seek_host (s : State) (v : Nat) : (s.seek v).host = s.host := rfl

/-! ### consume -/

@[simp] theorem State.consume_inited (s : State) (n : Nat) : (s.consume n).inited = s.inited := rfl
@[simp] theorem State.consume_cfg (s : State) (n : Nat) : (s.consume n).cfg = s.cfg := rfl
@[simp] theorem State.consume_cursor (s : State) (n : Nat) : (s.consume n).cursor = s.cursor := rfl
@[simp] theorem State.consume_fc (s : State) (n : Nat) : (s.consume n).fc = s.fc := rfl
@[simp] theorem State.consume_pix (s : State) (n : Nat) : (s.consume n).pix = s.pix := rfl
@[simp] theorem State.consume_status (s : State) (n : Nat) : (s.consume n).status = s.status := rfl
@[simp] theorem State.consume_phase (s : State) (n : Nat) : (s.consume n).phase = s.phase := rfl
@[simp] theorem State.consume_wcur (s : State) (n : Nat) : (s.consume n).wcur = s.wcur + n / s.cfg.bpu := rfl
@[simp] theorem State.consume_so (s : State) (n : Nat) : (s.consume n).so = s.so := rfl
@[simp] theorem State.consume_woff (s : State) (n : Nat) : (s.consume n).woff = s.woff := rfl
@[simp] theorem State.consume_wbuf (s : State) (n : Nat) : (s.consume n).wbuf = s.wbuf := rfl
@[simp] theorem State.consume_pcnt (s : State) (n : Nat) : (s.consume n).pcnt = s.pcnt := rfl
@[simp] theorem State.consume_cls (s : State) (n : Nat) : (s.consume n).cls = s.cls := rfl
@[simp] theorem State.consume_run (s : State) (n : Nat) : (s.consume n).run = s.run := rfl
@[simp] theorem State.consume_qstk (s : State) (n : Nat) : (s.consume n).qstk = s.qstk := rfl
@[simp] theorem State.consume_qdepth (s : State) (n : Nat) : (s.consume n).qdepth = s.qdepth := rfl
@[simp] theorem State.consume_asset (s : State) (n : Nat) : (s.consume n).asset = s.asset := rfl
@[simp] theorem State.consume_assetSize (s : State) (n : Nat) : (s.consume n).assetSize = s.assetSize := rfl
@[simp] theorem State.consume_surf (s : State) (n : Nat) : (s.consume n).surf = s.surf := rfl
@[simp] theorem State.consume_busy (s : State) (n : Nat) : (s.consume n).busy = s.busy := rfl
@[simp] theorem State.consume_res (s : State) (n : Nat) : (s.consume n).res = s.res := rfl
@[simp] theorem State.consume_draws (s : State) (n : Nat) : (s.consume n).draws = s.draws := rfl
@[simp] theorem State.consume_host (s : State) (n : Nat) : (s.consume n).host = s.host := rfl

/-! ### answer -/

@[simp] theorem State.answer_inited (s : State) (v : Nat) : (s.answer v).inited = s.inited := rfl
@[simp] theorem State.answer_cfg (s : State) (v : Nat) : (s.answer v).cfg = s.cfg := rfl
@[simp] theorem State.answer_cursor (s : State) (v : Nat) : (s.answer v).cursor = s.cursor := rfl
@[simp] theorem State.answer_fc (s : State) (v : Nat) : (s.answer v).fc = s.fc := rfl
@[simp] theorem State.answer_pix (s : State) (v : Nat) : (s.answer v).pix = s.pix := rfl
@[simp] theorem State.answer_status (s : State) (v : Nat) : (s.answer v).status = s.status := rfl
@[simp] theorem State.answer_phase (s : State) (v : Nat) : (s.answer v).phase = s.phase := rfl
@[simp] theorem State.answer_wcur (s : State) (v : Nat) : (s.answer v).wcur = s.wcur := rfl
@[simp] theorem State.answer_so (s : State) (v : Nat) : (s.answer v).so = s.so := rfl
@[simp] theorem State.answer_woff (s : State) (v : Nat) : (s.answer v).woff = s.woff := rfl
@[simp] theorem State.answer_wbuf (s : State) (v : Nat) : (s.answer v).wbuf = s.wbuf := rfl
@[simp] theorem State.answer_pcnt (s : State) (v : Nat) : (s.answer v).pcnt = s.pcnt := rfl
@[simp] theorem State.answer_cls (s : State) (v : Nat) : (s.answer v).cls = s.cls := rfl
@[simp] theorem State.answer_run (s : State) (v : Nat) : (s.answer v).run = s.run := rfl
@[simp] theorem State.answer_qstk (s : State) (v : Nat) : (s.answer v).qstk = s.qstk := rfl
@[simp] theorem State.answer_qdepth (s : State) (v : Nat) : (s.answer v).qdepth = s.qdepth := rfl
@[simp] theorem State.answer_asset (s : State) (v : Nat) : (s.answer v).asset = s.asset := rfl
@[simp] theorem State.answer_assetSize (s : State) (v : Nat) : (s.answer v).assetSize = s.assetSize := rfl
@[simp] theorem State.answer_surf (s : State) (v : Nat) : (s.answer v).surf = s.surf := rfl
@[simp] theorem State.answer_busy (s : State) (v : Nat) : (s.answer v).busy = s.busy := rfl
@[simp] theorem State.answer_res (s : State) (v : Nat) : (s.answer v).res = v := rfl
@[simp] theorem State.answer_draws (s : State) (v : Nat) : (s.answer v).draws = s.draws := rfl
@[simp] theorem State.answer_host (s : State) (v : Nat) : (s.answer v).host = s.host := rfl

/-! ### drawn -/

@[simp] theorem State.drawn_inited (s : State) : (s.drawn).inited = s.inited := rfl
@[simp] theorem State.drawn_cfg (s : State) : (s.drawn).cfg = s.cfg := rfl
@[simp] theorem State.drawn_cursor (s : State) : (s.drawn).cursor = s.cursor := rfl
@[simp] theorem State.drawn_fc (s : State) : (s.drawn).fc = s.fc := rfl
@[simp] theorem State.drawn_pix (s : State) : (s.drawn).pix = s.pix := rfl
@[simp] theorem State.drawn_status (s : State) : (s.drawn).status = s.status := rfl
@[simp] theorem State.drawn_phase (s : State) : (s.drawn).phase = s.phase := rfl
@[simp] theorem State.drawn_wcur (s : State) : (s.drawn).wcur = s.wcur := rfl
@[simp] theorem State.drawn_so (s : State) : (s.drawn).so = s.so := rfl
@[simp] theorem State.drawn_woff (s : State) : (s.drawn).woff = s.woff := rfl
@[simp] theorem State.drawn_wbuf (s : State) : (s.drawn).wbuf = s.wbuf := rfl
@[simp] theorem State.drawn_pcnt (s : State) : (s.drawn).pcnt = s.pcnt := rfl
@[simp] theorem State.drawn_cls (s : State) : (s.drawn).cls = s.cls := rfl
@[simp] theorem State.drawn_run (s : State) : (s.drawn).run = s.run := rfl
@[simp] theorem State.drawn_qstk (s : State) : (s.drawn).qstk = s.qstk := rfl
@[simp] theorem State.drawn_qdepth (s : State) : (s.drawn).qdepth = s.qdepth := rfl
@[simp] theorem State.drawn_asset (s : State) : (s.drawn).asset = s.asset := rfl
@[simp] theorem State.drawn_assetSize (s : State) : (s.drawn).assetSize = s.assetSize := rfl
@[simp] theorem State.drawn_surf (s : State) : (s.drawn).surf = s.surf := rfl
@[simp] theorem State.drawn_busy (s : State) : (s.drawn).busy = s.busy := rfl
@[simp] theorem State.drawn_res (s : State) : (s.drawn).res = s.res := rfl
@[simp] theorem State.drawn_draws (s : State) : (s.drawn).draws = s.draws + 1 := rfl
@[simp] theorem State.drawn_host (s : State) : (s.drawn).host = s.host := rfl

/-! ### putSurf -/

@[simp] theorem State.putSurf_inited (s : State) (m : Mem) : (s.putSurf m).inited = s.inited := rfl
@[simp] theorem State.putSurf_cfg (s : State) (m : Mem) : (s.putSurf m).cfg = s.cfg := rfl
@[simp] theorem State.putSurf_cursor (s : State) (m : Mem) : (s.putSurf m).cursor = s.cursor := rfl
@[simp] theorem State.putSurf_fc (s : State) (m : Mem) : (s.putSurf m).fc = s.fc := rfl
@[simp] theorem State.putSurf_pix (s : State) (m : Mem) : (s.putSurf m).pix = s.pix := rfl
@[simp] theorem State.putSurf_status (s : State) (m : Mem) : (s.putSurf m).status = s.status := rfl
@[simp] theorem State.putSurf_phase (s : State) (m : Mem) : (s.putSurf m).phase = s.phase := rfl
@[simp] theorem State.putSurf_wcur (s : State) (m : Mem) : (s.putSurf m).wcur = s.wcur := rfl
@[simp] theorem State.putSurf_so (s : State) (m : Mem) : (s.putSurf m).so = s.so := rfl
@[simp] theorem State.putSurf_woff (s : State) (m : Mem) : (s.putSurf m).woff = s.woff := rfl
@[simp] theorem State.putSurf_wbuf (s : State) (m : Mem) : (s.putSurf m).wbuf = s.wbuf := rfl
@[simp] theorem State.putSurf_pcnt (s : State) (m : Mem) : (s.putSurf m).pcnt = s.pcnt := rfl
@[simp] theorem State.putSurf_cls (s : State) (m : Mem) : (s.putSurf m).cls = s.cls := rfl
@[simp] theorem State.putSurf_run (s : State) (m : Mem) : (s.putSurf m).run = s.run := rfl
@[simp] theorem State.putSurf_qstk (s : State) (m : Mem) : (s.putSurf m).qstk = s.qstk := rfl
@[simp] theorem State.putSurf_qdepth (s : State) (m : Mem) : (s.putSurf m).qdepth = s.qdepth := rfl
@[simp] theorem State.putSurf_asset (s : State) (m : Mem) : (s.putSurf m).asset = s.asset := rfl
@[simp] theorem State.putSurf_assetSize (s : State) (m : Mem) : (s.putSurf m).assetSize = s.assetSize := rfl
@[simp] theorem State.putSurf_surf (s : State) (m : Mem) : (s.putSurf m).surf = m := rfl
@[simp] theorem State.putSurf_busy (s : State) (m : Mem) : (s.putSurf m).busy = s.busy := rfl
@[simp] theorem State.putSurf_res (s : State) (m : Mem) : (s.putSurf m).res = s.res := rfl
@[simp] theorem State.putSurf_draws (s : State) (m : Mem) : (s.putSurf m).draws = s.draws := rfl
@[simp] theorem State.putSurf_host (s : State) (m : Mem) : (s.putSurf m).host = s.host := rfl

/-! ### putPix -/

@[simp] theorem State.putPix_inited (s : State) (i : Nat) (v : Bool) : (s.putPix i v).inited = s.inited := rfl
@[simp] theorem State.putPix_cfg (s : State) (i : Nat) (v : Bool) : (s.putPix i v).cfg = s.cfg := rfl
@[simp] theorem State.putPix_cursor (s : State) (i : Nat) (v : Bool) : (s.putPix i v).cursor = s.cursor := rfl
@[simp] theorem State.putPix_fc (s : State) (i : Nat) (v : Bool) : (s.putPix i v).fc = s.fc := rfl
@[simp] theorem State.putPix_pix (s : State) (i : Nat) (v : Bool) : (s.putPix i v).pix = s.pix.set i v := rfl
@[simp] theorem State.putPix_status (s : State) (i : Nat) (v : Bool) : (s.putPix i v).status = s.status := rfl
@[simp] theorem State.putPix_phase (s : State) (i : Nat) (v : Bool) : (s.putPix i v).phase = s.phase := rfl
@[simp] theorem State.putPix_wcur (s : State) (i : Nat) (v : Bool) : (s.putPix i v).wcur = s.wcur := rfl
@[simp] theorem State.putPix_so (s : State) (i : Nat) (v : Bool) : (s.putPix i v).so = s.so := rfl
@[simp] theorem State.putPix_woff (s : State) (i : Nat) (v : Bool) : (s.putPix i v).woff = s.woff := rfl
@[simp] theorem State.putPix_wbuf (s : State) (i : Nat) (v : Bool) : (s.putPix i v).wbuf = s.wbuf := rfl
@[simp] theorem State.putPix_pcnt (s : State) (i : Nat) (v : Bool) : (s.putPix i v).pcnt = s.pcnt := rfl
@[simp] theorem State.putPix_cls (s : State) (i : Nat) (v : Bool) : (s.putPix i v).cls = s.cls := rfl
@[simp] theorem State.putPix_run (s : State) (i : Nat) (v : Bool) : (s.putPix i v).run = s.run := rfl
@[simp] theorem State.putPix_qstk (s : State) (i : Nat) (v : Bool) : (s.putPix i v).qstk = s.qstk := rfl
@[simp] theorem State.putPix_qdepth (s : State) (i : Nat) (v : Bool) : (s.putPix i v).qdepth = s.qdepth := rfl
@[simp] theorem State.putPix_asset (s : State) (i : Nat) (v : Bool) : (s.putPix i v).asset = s.asset := rfl
@[simp] theorem State.putPix_assetSize (s : State) (i : Nat) (v : Bool) : (s.putPix i v).assetSize = s.assetSize := rfl
@[simp] theorem State.putPix_surf (s : State) (i : Nat) (v : Bool) : (s.putPix i v).surf = s.surf := rfl
@[simp] theorem State.putPix_busy (s : State) (i : Nat) (v : Bool) : (s.putPix i v).busy = s.busy := rfl
@[simp] theorem State.putPix_res (s : State) (i : Nat) (v : Bool) : (s.putPix i v).res = s.res := rfl
@[simp] theorem State.putPix_draws (s : State) (i : Nat) (v : Bool) : (s.putPix i v).draws = s.draws := rfl
@[simp] theorem State.putPix_host (s : State) (i : Nat) (v : Bool) : (s.putPix i v).host = s.host := rfl

/-! ### dropWindow -/

@[simp] theorem State.dropWindow_inited (s : State) : (s.dropWindow).inited = s.inited := rfl
@[simp] theorem State.dropWindow_cfg (s : State) : (s.dropWindow).cfg = s.cfg := rfl
@[simp] theorem State.dropWindow_cursor (s : State) : (s.dropWindow).cursor = s.cursor := rfl
@[simp] theorem State.dropWindow_fc (s : State) : (s.dropWindow).fc = s.fc := rfl
@[simp] theorem State.dropWindow_pix (s : State) : (s.dropWindow).pix = s.pix := rfl
@[simp] theorem State.dropWindow_status (s : State) : (s.dropWindow).status = s.status := rfl
@[simp] theorem State.dropWindow_phase (s : State) : (s.dropWindow).phase = s.phase := rfl
@[simp] theorem State.dropWindow_wcur (s : State) : (s.dropWindow).wcur = (Config.freeWindow s.draws).wcur := rfl
@[simp] theorem State.dropWindow_so (s : State) : (s.dropWindow).so = (Config.freeWindow s.draws).so := rfl
@[simp] theorem State.dropWindow_woff (s : State) : (s.dropWindow).woff = (Config.freeWindow s.draws).woff := rfl
@[simp] theorem State.dropWindow_wbuf (s : State) : (s.dropWindow).wbuf = (Config.freeWindow s.draws).wbuf := rfl
@[simp] theorem State.dropWindow_pcnt (s : State) : (s.dropWindow).pcnt = s.pcnt := rfl
@[simp] theorem State.dropWindow_cls (s : State) : (s.dropWindow).cls = s.cls := rfl
@[simp] theorem State.dropWindow_run (s : State) : (s.dropWindow).run = s.run := rfl
@[simp] theorem State.dropWindow_qstk (s : State) : (s.dropWindow).qstk = s.qstk := rfl
@[simp] theorem State.dropWindow_qdepth (s : State) : (s.dropWindow).qdepth = s.qdepth := rfl
@[simp] theorem State.dropWindow_asset (s : State) : (s.dropWindow).asset = s.asset := rfl
@[simp] theorem State.dropWindow_assetSize (s : State) : (s.dropWindow).assetSize = s.assetSize := rfl
@[simp] theorem State.dropWindow_surf (s : State) : (s.dropWindow).surf = s.surf := rfl
@[simp] theorem State.dropWindow_busy (s : State) : (s.dropWindow).busy = s.busy := rfl
@[simp] theorem State.dropWindow_res (s : State) : (s.dropWindow).res = s.res := rfl
@[simp] theorem State.dropWindow_draws (s : State) : (s.dropWindow).draws = s.draws + 1 := rfl
@[simp] theorem State.dropWindow_host (s : State) : (s.dropWindow).host = s.host := rfl

/-! ### dropWork -/

@[simp] theorem State.dropWork_inited (s : State) : (s.dropWork).inited = s.inited := rfl
@[simp] theorem State.dropWork_cfg (s : State) : (s.dropWork).cfg = s.cfg := rfl
@[simp] theorem State.dropWork_cursor (s : State) : (s.dropWork).cursor = s.cursor := rfl
@[simp] theorem State.dropWork_fc (s : State) : (s.dropWork).fc = s.fc := rfl
@[simp] theorem State.dropWork_pix (s : State) : (s.dropWork).pix = s.pix := rfl
@[simp] theorem State.dropWork_status (s : State) : (s.dropWork).status = s.status := rfl
@[simp] theorem State.dropWork_phase (s : State) : (s.dropWork).phase = s.phase := rfl
@[simp] theorem State.dropWork_wcur (s : State) : (s.dropWork).wcur = s.wcur := rfl
@[simp] theorem State.dropWork_so (s : State) : (s.dropWork).so = s.so := rfl
@[simp] theorem State.dropWork_woff (s : State) : (s.dropWork).woff = s.woff := rfl
@[simp] theorem State.dropWork_wbuf (s : State) : (s.dropWork).wbuf = s.wbuf := rfl
@[simp] theorem State.dropWork_pcnt (s : State) : (s.dropWork).pcnt = (Config.freeWork s.draws).pcnt := rfl
@[simp] theorem State.dropWork_cls (s : State) : (s.dropWork).cls = (Config.freeWork s.draws).cls := rfl
@[simp] theorem State.dropWork_run (s : State) : (s.dropWork).run = (Config.freeWork s.draws).run := rfl
@[simp] theorem State.dropWork_qstk (s : State) : (s.dropWork).qstk = (Config.freeWork s.draws).qstk := rfl
@[simp] theorem State.dropWork_qdepth (s : State) : (s.dropWork).qdepth = (Config.freeWork s.draws).qdepth := rfl
@[simp] theorem State.dropWork_asset (s : State) : (s.dropWork).asset = s.asset := rfl
@[simp] theorem State.dropWork_assetSize (s : State) : (s.dropWork).assetSize = s.assetSize := rfl
@[simp] theorem State.dropWork_surf (s : State) : (s.dropWork).surf = s.surf := rfl
@[simp] theorem State.dropWork_busy (s : State) : (s.dropWork).busy = s.busy := rfl
@[simp] theorem State.dropWork_res (s : State) : (s.dropWork).res = s.res := rfl
@[simp] theorem State.dropWork_draws (s : State) : (s.dropWork).draws = s.draws + 1 := rfl
@[simp] theorem State.dropWork_host (s : State) : (s.dropWork).host = s.host := rfl

/-! ### dropTransient -/

@[simp] theorem State.dropTransient_inited (s : State) : (s.dropTransient).inited = s.inited := rfl
@[simp] theorem State.dropTransient_cfg (s : State) : (s.dropTransient).cfg = s.cfg := rfl
@[simp] theorem State.dropTransient_cursor (s : State) : (s.dropTransient).cursor = s.cursor := rfl
@[simp] theorem State.dropTransient_fc (s : State) : (s.dropTransient).fc = s.fc := rfl
@[simp] theorem State.dropTransient_pix (s : State) : (s.dropTransient).pix = s.pix := rfl
@[simp] theorem State.dropTransient_status (s : State) : (s.dropTransient).status = s.status := rfl
@[simp] theorem State.dropTransient_phase (s : State) : (s.dropTransient).phase = s.phase := rfl
@[simp] theorem State.dropTransient_wcur (s : State) : (s.dropTransient).wcur = (Config.freeWindow s.draws).wcur := rfl
@[simp] theorem State.dropTransient_so (s : State) : (s.dropTransient).so = (Config.freeWindow s.draws).so := rfl
@[simp] theorem State.dropTransient_woff (s : State) : (s.dropTransient).woff = (Config.freeWindow s.draws).woff := rfl
@[simp] theorem State.dropTransient_wbuf (s : State) : (s.dropTransient).wbuf = (Config.freeWindow s.draws).wbuf := rfl
@[simp] theorem State.dropTransient_pcnt (s : State) : (s.dropTransient).pcnt = (Config.freeWork (s.draws + 1)).pcnt := rfl
@[simp] theorem State.dropTransient_cls (s : State) : (s.dropTransient).cls = (Config.freeWork (s.draws + 1)).cls := rfl
@[simp] theorem State.dropTransient_run (s : State) : (s.dropTransient).run = (Config.freeWork (s.draws + 1)).run := rfl
@[simp] theorem State.dropTransient_qstk (s : State) : (s.dropTransient).qstk = (Config.freeWork (s.draws + 1)).qstk := rfl
@[simp] theorem State.dropTransient_qdepth (s : State) : (s.dropTransient).qdepth = (Config.freeWork (s.draws + 1)).qdepth := rfl
@[simp] theorem State.dropTransient_asset (s : State) : (s.dropTransient).asset = s.asset := rfl
@[simp] theorem State.dropTransient_assetSize (s : State) : (s.dropTransient).assetSize = s.assetSize := rfl
@[simp] theorem State.dropTransient_surf (s : State) : (s.dropTransient).surf = s.surf := rfl
@[simp] theorem State.dropTransient_busy (s : State) : (s.dropTransient).busy = s.busy := rfl
@[simp] theorem State.dropTransient_res (s : State) : (s.dropTransient).res = s.res := rfl
@[simp] theorem State.dropTransient_draws (s : State) : (s.dropTransient).draws = s.draws + 1 + 1 := rfl
@[simp] theorem State.dropTransient_host (s : State) : (s.dropTransient).host = s.host := rfl

/-! ### takeQto -/

@[simp] theorem State.takeQto_inited (s : State) : (s.takeQto).inited = s.inited := rfl
@[simp] theorem State.takeQto_cfg (s : State) : (s.takeQto).cfg = s.cfg := rfl
@[simp] theorem State.takeQto_cursor (s : State) : (s.takeQto).cursor = s.cursor := rfl
@[simp] theorem State.takeQto_fc (s : State) : (s.takeQto).fc = s.fc := rfl
@[simp] theorem State.takeQto_pix (s : State) : (s.takeQto).pix = s.pix := rfl
@[simp] theorem State.takeQto_status (s : State) : (s.takeQto).status = Condition.qto.set s.status := rfl
@[simp] theorem State.takeQto_phase (s : State) : (s.takeQto).phase = .fault := rfl
@[simp] theorem State.takeQto_wcur (s : State) : (s.takeQto).wcur = (Config.freeWindow s.draws).wcur := rfl
@[simp] theorem State.takeQto_so (s : State) : (s.takeQto).so = (Config.freeWindow s.draws).so := rfl
@[simp] theorem State.takeQto_woff (s : State) : (s.takeQto).woff = (Config.freeWindow s.draws).woff := rfl
@[simp] theorem State.takeQto_wbuf (s : State) : (s.takeQto).wbuf = (Config.freeWindow s.draws).wbuf := rfl
@[simp] theorem State.takeQto_pcnt (s : State) : (s.takeQto).pcnt = (Config.freeWork (s.draws + 1)).pcnt := rfl
@[simp] theorem State.takeQto_cls (s : State) : (s.takeQto).cls = (Config.freeWork (s.draws + 1)).cls := rfl
@[simp] theorem State.takeQto_run (s : State) : (s.takeQto).run = (Config.freeWork (s.draws + 1)).run := rfl
@[simp] theorem State.takeQto_qstk (s : State) : (s.takeQto).qstk = (Config.freeWork (s.draws + 1)).qstk := rfl
@[simp] theorem State.takeQto_qdepth (s : State) : (s.takeQto).qdepth = (Config.freeWork (s.draws + 1)).qdepth := rfl
@[simp] theorem State.takeQto_asset (s : State) : (s.takeQto).asset = s.asset := rfl
@[simp] theorem State.takeQto_assetSize (s : State) : (s.takeQto).assetSize = s.assetSize := rfl
@[simp] theorem State.takeQto_surf (s : State) : (s.takeQto).surf = s.surf := rfl
@[simp] theorem State.takeQto_busy (s : State) : (s.takeQto).busy = false := rfl
@[simp] theorem State.takeQto_res (s : State) : (s.takeQto).res = s.res := rfl
@[simp] theorem State.takeQto_draws (s : State) : (s.takeQto).draws = s.draws + 1 + 1 := rfl
@[simp] theorem State.takeQto_host (s : State) : (s.takeQto).host = s.host := rfl

end Sys2Proof.Machine
end

