-- ==== Sys2Proof/Laws/Guards.lean ====
section
/-! SUPPORT. When a guarded meaning answers a next state, and when an operation that can only fault does. -/

namespace Sys2Proof.Machine

@[simp] theorem whenReady_next {s t : State} {k : Out} :
    whenReady s k = .next t ↔ s.inited = true ∧ k = .next t := by
  unfold whenReady; split <;> simp_all

@[simp] theorem whenScheme_next {ok : Bool} {t : State} {k : Out} :
    whenScheme ok k = .next t ↔ ok = true ∧ k = .next t := by
  unfold whenScheme; split <;> simp_all

@[simp] theorem whenLegal_next {ok : Bool} {t : State} {k : Out} :
    whenLegal ok k = .next t ↔ ok = true ∧ k = .next t := by
  unfold whenLegal; split <;> simp_all

@[simp] theorem outcome_next {r : Except Fault State} {t : State} : outcome r = .next t ↔ r = .ok t := by
  cases r <;> simp [outcome]

theorem whenReady_of {s : State} (h : s.inited = true) (k : Out) : whenReady s k = k := by simp [whenReady, h]

@[simp] theorem whenScheme_true (k : Out) : whenScheme true k = k := rfl

@[simp] theorem whenLegal_true (k : Out) : whenLegal true k = k := rfl

end Sys2Proof.Machine
end

