-- ==== Sys2Proof/Laws/Stream.lean ====
section
/-! SUPPORT. What reading the stream does: inside the window nothing but the cursor moves; outside it OVR is recorded and draws are
taken, and nothing else changes. -/

namespace Sys2Proof.Machine

/-- Setting a condition twice is setting it once. -/
@[simp] theorem Condition.set_set (c : Condition) (b : BitVec 3) : c.set (c.set b) = c.set b := by
  simp [Condition.set, BitVec.or_assoc]

/-- A recorded condition stays recorded whatever else is. -/
theorem Condition.or_set (c : Condition) (b : BitVec 3) : b ||| c.set b = c.set b := by
  simp [Condition.set, ← BitVec.or_assoc]

/-- What reading window bits may change: draws taken, OVR recorded. -/
def ReadOnly (s t : State) : Prop :=
  t = { s with status := t.status, draws := t.draws } ∧ (t.status = s.status ∨ t.status = Condition.ovr.set s.status)

theorem ReadOnly.refl (s : State) : ReadOnly s s := ⟨rfl, .inl rfl⟩

theorem ReadOnly.trans {s t u : State} (h : ReadOnly s t) (k : ReadOnly t u) : ReadOnly s u := by
  obtain ⟨h1, h2⟩ := h
  obtain ⟨k1, k2⟩ := k
  refine ⟨by rw [k1, h1], ?_⟩
  rcases h2 with h2 | h2 <;> rcases k2 with k2 | k2 <;> simp [k2, h2]

theorem readWindow_inside {j : Nat} {s : State} (h : j < s.wlen) : readWindow j s = (s.wbuf.getD j 0#8, s) := by
  simp [readWindow, h]

theorem readWindow_outside {j : Nat} {s : State} (h : s.wlen ≤ j) :
    readWindow j s = (Config.draw8 s.draws, (s.raise .ovr).drawn) := by
  simp [readWindow, Nat.not_lt.mpr h]

theorem readWindow_readOnly (j : Nat) (s : State) : ReadOnly s (readWindow j s).2 := by
  by_cases h : j < s.wlen
  · rw [readWindow_inside h]; exact .refl s
  · rw [readWindow_outside (by omega)]; exact ⟨rfl, .inr rfl⟩

theorem streamBit_readOnly (p : Nat) (s : State) : ReadOnly s (streamBit p s).2 := readWindow_readOnly _ s

theorem readBits_readOnly (n : Nat) : ∀ p s, ReadOnly s (readBits n p s).2 := by
  induction n with
  | zero => intro p s; exact .refl s
  | succ n ih => intro p s; exact (streamBit_readOnly p s).trans (ih _ _)

@[simp] theorem readBits_length (n : Nat) : ∀ p s, (readBits n p s).1.length = n := by
  induction n with
  | zero => intro p s; rfl
  | succ n ih => intro p s; simp [readBits, ih]

/-- The stream bit inside the window. -/
theorem streamBit_inside {p : Nat} {s : State} (h : p < 8 * s.wlen) :
    streamBit p s = ((s.wbuf.getD (p / 8) 0#8).getLsbD (7 - p % 8), s) := by
  rw [streamBit, readWindow_inside (by omega)]

/-- Bits read inside the window are the window's bits, and reading them changes nothing. -/
theorem readBits_inside (n : Nat) : ∀ p (s : State), p + n ≤ 8 * s.wlen →
    readBits n p s = (((bytesToBits s.wbuf).drop p).take n, s) := by
  induction n with
  | zero => intro p s _; simp [readBits]
  | succ n ih =>
    intro p s h
    have hp : p < (bytesToBits s.wbuf).length := by rw [bytesToBits_length]; change p < 8 * s.wlen; omega
    have hb := bytesToBits_getElem? s.wbuf p (by rw [bytesToBits_length] at hp; exact hp)
    rw [List.getElem?_eq_getElem hp, Option.some.injEq] at hb
    rw [readBits, streamBit_inside (by omega), ih (p + 1) s (by omega), List.drop_eq_getElem_cons hp, List.take_succ_cons, hb]

/-- `RD(n)` inside the window (40_bitcursor.md R120). -/
theorem rd_inside {n : Nat} {s : State} (h : s.bitPos + n ≤ 8 * s.wlen) :
    rd n s = (ofBits (((bytesToBits s.wbuf).drop s.bitPos).take n), s.consume n) := by
  rw [rd, readBits_inside n s.bitPos s h]

/-- `RD(n)` where the window holds the bits `bs` at the working cursor. -/
theorem rd_prefix {bs : List Bool} {s : State} (h : bs <+: (bytesToBits s.wbuf).drop s.bitPos) :
    rd bs.length s = (ofBits bs, s.consume bs.length) := by
  have hl := h.length_le
  rw [List.length_drop, bytesToBits_length] at hl
  by_cases hz : bs.length = 0
  · have : bs = [] := List.length_eq_zero_iff.mp hz
    subst this; rfl
  · rw [rd_inside (by change _ ≤ 8 * s.wbuf.length; omega), ← List.prefix_iff_eq_take.mp h]

theorem rd_lt (n : Nat) (s : State) : (rd n s).1 < 2 ^ n := by
  have := ofBits_lt (readBits n s.bitPos s).1
  rwa [readBits_length] at this

/-- `RD(n)` changes the working cursor, and OVR and the draws. -/
theorem rd_state (n : Nat) (s : State) : ReadOnly (s.consume n) (rd n s).2 := by
  obtain ⟨h, k⟩ := readBits_readOnly n s.bitPos s
  refine ⟨?_, k⟩
  show (readBits n s.bitPos s).2.consume n = _
  rw [h]; rfl

@[simp] theorem ReadOnly.wcur {s t : State} (h : ReadOnly s t) : t.wcur = s.wcur := by rw [h.1]
@[simp] theorem ReadOnly.cfg {s t : State} (h : ReadOnly s t) : t.cfg = s.cfg := by rw [h.1]
@[simp] theorem ReadOnly.wbuf {s t : State} (h : ReadOnly s t) : t.wbuf = s.wbuf := by rw [h.1]

/-- One more bit is read: the first on its own, the rest after it. -/
theorem readBits_succ (n p : Nat) (s : State) :
    readBits (n + 1) p s =
      ((streamBit p s).1 :: (readBits n (p + 1) (streamBit p s).2).1, (readBits n (p + 1) (streamBit p s).2).2) := rfl

/-- Two fields read one after the other are one field. -/
theorem readBits_add (m : Nat) : ∀ n p s,
    readBits (m + n) p s =
      ((readBits m p s).1 ++ (readBits n (p + m) (readBits m p s).2).1, (readBits n (p + m) (readBits m p s).2).2) := by
  induction m with
  | zero => intro n p s; simp [readBits]
  | succ m ih =>
    intro n p s
    have h1 : m + 1 + n = (m + n) + 1 := by omega
    have h2 : p + (m + 1) = p + 1 + m := by omega
    rw [h1, readBits_succ, ih, readBits_succ, h2]
    rfl

/-- What a stream bit read depends on and changes: the window, the draws, STATUS. -/
theorem streamBit_congr (p : Nat) {s t : State} (h1 : t.wbuf = s.wbuf) (h2 : t.draws = s.draws) (h3 : t.status = s.status) :
    (streamBit p t).1 = (streamBit p s).1 ∧ (streamBit p t).2.draws = (streamBit p s).2.draws ∧
    (streamBit p t).2.status = (streamBit p s).2.status := by
  unfold streamBit readWindow State.wlen
  rw [h1]
  by_cases h : p / 8 < s.wbuf.length
  · simp [h, h2, h3]
  · simp [h, h2, h3, State.raise, State.drawn]

/-- What a field read depends on and changes: the window, the draws, STATUS. -/
theorem readBits_congr (n : Nat) : ∀ (p : Nat) {s t : State}, t.wbuf = s.wbuf → t.draws = s.draws → t.status = s.status →
    (readBits n p t).1 = (readBits n p s).1 ∧ (readBits n p t).2.draws = (readBits n p s).2.draws ∧
    (readBits n p t).2.status = (readBits n p s).2.status := by
  induction n with
  | zero => intro p s t h1 h2 h3; exact ⟨rfl, h2, h3⟩
  | succ n ih =>
    intro p s t h1 h2 h3
    obtain ⟨a, b, c⟩ := streamBit_congr p h1 h2 h3
    have hs := streamBit_readOnly p s
    have ht := streamBit_readOnly p t
    obtain ⟨x, y, z⟩ := ih (p + 1) (s := (streamBit p s).2) (t := (streamBit p t).2) (by rw [hs.wbuf, ht.wbuf, h1]) b c
    simp [readBits_succ, a, x, y, z]

/-- rd in terms of readBits. -/
theorem rd_eq (n : Nat) (s : State) : rd n s =
    (ofBits (readBits n s.bitPos s).1, { s with
      wcur := s.wcur + n / s.cfg.bpu, status := (readBits n s.bitPos s).2.status, draws := (readBits n s.bitPos s).2.draws }) := by
  have h := (readBits_readOnly n s.bitPos s).1
  unfold rd
  dsimp only
  rw [h]; rfl

/-- The two units: a byte under ESC_RL, a bit otherwise (00_scope.md R9). -/
theorem bpu_cases (s : State) : (s.cfg.scheme = .escRl ∧ s.cfg.upb = 1 ∧ s.cfg.bpu = 8) ∨
    (s.cfg.scheme ≠ .escRl ∧ s.cfg.upb = 8 ∧ s.cfg.bpu = 1) := by
  unfold Cfg.bpu Cfg.upb
  cases s.cfg.scheme <;> simp [Scheme.upb]

/-- two rd's in a row are one, when the first is a whole number of units -/
theorem rd_add (m n : Nat) (s : State) (v : Nat) (hm : m % s.cfg.bpu = 0) :
    rd (m + n) s =
      ((rd m s).1 * 2 ^ n + (rd n ((rd m s).2.answer v)).1,
       { (rd n ((rd m s).2.answer v)).2 with res := s.res }) := by
  have hb : 0 < s.cfg.bpu := by rcases bpu_cases s with h | h <;> omega
  have hu : m / s.cfg.bpu * s.cfg.bpu = m := Nat.div_mul_cancel (Nat.dvd_of_mod_eq_zero hm)
  simp only [rd_eq]
  have hp : State.bitPos ({ s with
      wcur := s.wcur + m / s.cfg.bpu, status := (readBits m s.bitPos s).2.status,
      draws := (readBits m s.bitPos s).2.draws }.answer v) = s.bitPos + m := by
    simp only [State.bitPos, State.answer]; rw [Nat.add_mul, hu]
  rw [hp]
  have hro := readBits_readOnly m s.bitPos s
  obtain ⟨a, b, c⟩ := readBits_congr n (s.bitPos + m) (s := (readBits m s.bitPos s).2)
    (t := { s with
      wcur := s.wcur + m / s.cfg.bpu, status := (readBits m s.bitPos s).2.status,
      draws := (readBits m s.bitPos s).2.draws }.answer v) (by rw [hro.wbuf]; rfl) rfl rfl
  rw [a, b, c, readBits_add, ofBits_append, readBits_length]
  simp only [State.answer]
  have : (m + n) / s.cfg.bpu = m / s.cfg.bpu + n / s.cfg.bpu := by
    obtain ⟨k, hk⟩ := Nat.dvd_of_mod_eq_zero hm
    rw [hk, Nat.mul_add_div hb, Nat.mul_div_cancel_left _ hb]
  rw [this, Nat.add_assoc]

theorem bpu_of_upb8 {s : State} (h : s.cfg.upb = 8) : s.cfg.bpu = 1 := by rcases bpu_cases s with ⟨_, a, b⟩ | ⟨_, a, b⟩ <;> omega

theorem bpu_of_upb1 {s : State} (h : s.cfg.upb = 1) : s.cfg.bpu = 8 := by rcases bpu_cases s with ⟨_, a, b⟩ | ⟨_, a, b⟩ <;> omega

theorem upb_eq (s : State) : 8 / s.cfg.bpu = s.cfg.upb := by rcases bpu_cases s with ⟨_, a, b⟩ | ⟨_, a, b⟩ <;> simp [a, b]

theorem bpu_dvd8 (s : State) : 8 % s.cfg.bpu = 0 := by rcases bpu_cases s with ⟨_, a, b⟩ | ⟨_, a, b⟩ <;> simp [b]

theorem upb_bpu (c : Cfg) : c.upb * c.bpu = 8 ∧ 0 < c.upb ∧ 0 < c.bpu := by
  unfold Cfg.bpu Cfg.upb; cases c.scheme <;> simp [Scheme.upb]

/-- A field inside the window, bit by bit. -/
theorem readBits_eq_map (n : Nat) : ∀ p (s : State), p + n ≤ 8 * s.wlen →
    (readBits n p s).1 = (List.range n).map fun k => (streamBit (p + k) s).1 := by
  induction n with
  | zero => intro p s _; rfl
  | succ n ih =>
    intro p s h
    rw [readBits_succ, List.range_succ_eq_map, List.map_cons, List.map_map]
    rw [streamBit_inside (by omega)] 
    dsimp only
    rw [ih (p + 1) s (by omega)]
    simp only [Nat.add_zero]
    rw [streamBit_inside (by omega)]
    congr 1
    apply List.map_congr_left
    intro k _
    simp [Nat.add_assoc, Nat.add_comm 1]

/-- consecutive rd's, value and state -/
theorem rd_rd (m n : Nat) (s : State) (hm : m % s.cfg.bpu = 0) :
    (rd n (rd m s).2).1 = ofBits (readBits n (s.bitPos + m) (readBits m s.bitPos s).2).1 ∧
    (rd n (rd m s).2).2 = { s with
      wcur := s.wcur + (m + n) / s.cfg.bpu, status := (readBits (m + n) s.bitPos s).2.status,
      draws := (readBits (m + n) s.bitPos s).2.draws } := by
  have hb : 0 < s.cfg.bpu := by rcases bpu_cases s with h | h <;> omega
  have hu : m / s.cfg.bpu * s.cfg.bpu = m := Nat.div_mul_cancel (Nat.dvd_of_mod_eq_zero hm)
  have hro := readBits_readOnly m s.bitPos s
  have hp : (rd m s).2.bitPos = s.bitPos + m := by
    rw [rd_eq]; simp only [State.bitPos]; rw [Nat.add_mul, hu]
  have hc := readBits_congr n (s.bitPos + m) (s := (readBits m s.bitPos s).2) (t := (rd m s).2)
    (by rw [hro.wbuf, rd_eq]) (by rw [rd_eq]) (by rw [rd_eq])
  have hd : (m + n) / s.cfg.bpu = m / s.cfg.bpu + n / s.cfg.bpu := by
    obtain ⟨k, hk⟩ := Nat.dvd_of_mod_eq_zero hm
    rw [hk, Nat.mul_add_div hb, Nat.mul_div_cancel_left _ hb]
  rw [rd_eq n (rd m s).2, hp]
  refine ⟨by rw [hc.1], ?_⟩
  dsimp only
  rw [hc.2.1, hc.2.2, readBits_add, rd_eq m s, hd, Nat.add_assoc]

/-- The returned value does not change what is read next. -/
theorem answer_rd (n v : Nat) (s : State) : (rd n (s.answer v)).1 = (rd n s).1 ∧ (rd n (s.answer v)).2 = (rd n s).2.answer v := by
  have hc := readBits_congr n s.bitPos (s := s) (t := s.answer v) rfl rfl rfl
  have hp : (s.answer v).bitPos = s.bitPos := rfl
  rw [rd_eq, rd_eq, hp]
  dsimp only
  rw [hc.1, hc.2.1, hc.2.2]
  exact ⟨rfl, rfl⟩

end Sys2Proof.Machine
end

