-- ==== Sys2Proof/Laws/Codec.lean ====
section
/-! SUPPORT. What the cursor primitives and the integer decoders do (40_bitcursor.md R121 to R126, 41_integer_codec.md R140 to R143). -/

namespace Sys2Proof.Machine

/-- A legal primitive completes with its field. -/
theorem primitive_next {n : Nat} {s : State} (hi : s.inited = true) (hl : n % s.cfg.bpu = 0) :
    primitive n s = .next ((rd n s).2.answer (rd n s).1) := by
  unfold primitive
  rw [whenReady_of hi]
  simp [State.legalField, hl]

/-- A primitive of a fraction of a unit is refused (40_bitcursor.md R126). -/
theorem primitive_refused {n : Nat} {s : State} (hi : s.inited = true) (hl : n % s.cfg.bpu ≠ 0) :
    primitive n s = .refused .illegalUnit := by
  unfold primitive
  rw [whenReady_of hi]
  simp [whenLegal, State.legalField, hl]

/-- TAGV is two fields, the second of the width the first names. -/
theorem tagv_def (s : State) : tagv s = rd (tagWidth (rd 2 s).1) (rd 2 s).2 := rfl

/-- What READINT reads is the encoding of a well-formed run token. -/
theorem readInt_token (s : State) (hq : s.cfg.scheme ≠ .qt) :
    ∃ i k, i.wf = true ∧ i.scheme? = some s.cfg.scheme ∧ i.runLength? = some (readInt s).1 ∧
      encode i = (readBits k s.bitPos s).1 ∧ k % s.cfg.bpu = 0 ∧ (readInt s).1 < 65536 ∧
      (readInt s).2 = { s with
        wcur := s.wcur + k / s.cfg.bpu, status := (readBits k s.bitPos s).2.status, draws := (readBits k s.bitPos s).2.draws } := by
  unfold readInt
  have tb : ∀ n (bs : List Bool), bs.length = n → toBits n (ofBits bs) = bs := fun n bs h => by rw [← h, toBits_ofBits]
  rcases hs : s.cfg.scheme with _ | _ | _
  · dsimp only
    have hb : s.cfg.bpu = 8 := by simp [Cfg.bpu, Cfg.upb, hs, Scheme.upb]
    unfold escv
    dsimp only
    have h8 := rd_lt 8 s
    have e8 : (rd 8 s).1 = ofBits (readBits 8 s.bitPos s).1 := by rw [rd_eq]
    split
    · rename_i hlt
      refine ⟨.runE8 (BitVec.ofNat 8 (rd 8 s).1), 8, ?_, rfl, ?_, ?_, by simp [hb], by omega, by rw [rd_eq]⟩
      · simp only [Instr.wf, bne_iff_ne, ne_eq]
        intro e
        have := congrArg BitVec.toNat e
        rw [ofNat_toNat h8] at this; simp at this; omega
      · rw [Instr.runLength?, ofNat_toNat h8]
      · rw [encode, ofNat_toNat h8, e8]
        exact tb _ _ (by simp)
    · obtain ⟨a, b⟩ := rd_rd 8 16 s (by simp [hb])
      have hlt := rd_lt 16 (rd 8 s).2
      refine ⟨.runE24 (BitVec.ofNat 16 (rd 16 (rd 8 s).2).1), 24, rfl, rfl, ?_, ?_, by simp [hb], hlt, b⟩
      · rw [Instr.runLength?, ofNat_toNat hlt]
      · have h255 : (rd 8 s).1 = 255 := by omega
        rw [e8] at h255
        rw [readBits_add 8 16]
        rw [encode, ofNat_toNat hlt, a]
        rw [← h255, tb _ _ (by simp), tb _ _ (by simp)]
  · dsimp only
    have hb : s.cfg.bpu = 1 := by simp [Cfg.bpu, Cfg.upb, hs, Scheme.upb]
    unfold tagv
    dsimp only
    have h4 := rd_lt 2 s
    have e2 : (rd 2 s).1 = ofBits (readBits 2 s.bitPos s).1 := by rw [rd_eq]
    have h : (rd 2 s).1 = 0 ∨ (rd 2 s).1 = 1 ∨ (rd 2 s).1 = 2 ∨ (rd 2 s).1 = 3 := by omega
    rcases h with h | h | h | h <;> simp only [h, tagWidth] <;> norm_num <;> have hv2 := e2.symm.trans h
    · obtain ⟨a, b⟩ := rd_rd 2 2 s (by simp [hb])
      have hlt := rd_lt 2 (rd 2 s).2
      refine ⟨.runT2 (BitVec.ofNat 2 (rd 2 (rd 2 s).2).1), rfl, rfl, ?_, 4, ?_, by simp [hb], by omega, b⟩
      · rw [Instr.runLength?, ofNat_toNat hlt]
      · rw [readBits_add 2 2]
        rw [encode, ofNat_toNat hlt, a]
        rw [tb _ _ (by simp)]; congr 1; rw [← tb 2 (readBits 2 s.bitPos s).1 (by simp), hv2]
    · obtain ⟨a, b⟩ := rd_rd 2 4 s (by simp [hb])
      have hlt := rd_lt 4 (rd 2 s).2
      refine ⟨.runT4 (BitVec.ofNat 4 (rd 4 (rd 2 s).2).1), rfl, rfl, ?_, 6, ?_, by simp [hb], by omega, b⟩
      · rw [Instr.runLength?, ofNat_toNat hlt]
      · rw [readBits_add 2 4]
        rw [encode, ofNat_toNat hlt, a]
        rw [tb _ _ (by simp)]; congr 1; rw [← tb 2 (readBits 2 s.bitPos s).1 (by simp), hv2]
    · obtain ⟨a, b⟩ := rd_rd 2 8 s (by simp [hb])
      have hlt := rd_lt 8 (rd 2 s).2
      refine ⟨.runT8 (BitVec.ofNat 8 (rd 8 (rd 2 s).2).1), rfl, rfl, ?_, 10, ?_, by simp [hb], by omega, b⟩
      · rw [Instr.runLength?, ofNat_toNat hlt]
      · rw [readBits_add 2 8]
        rw [encode, ofNat_toNat hlt, a]
        rw [tb _ _ (by simp)]; congr 1; rw [← tb 2 (readBits 2 s.bitPos s).1 (by simp), hv2]
    · obtain ⟨a, b⟩ := rd_rd 2 16 s (by simp [hb])
      have hlt := rd_lt 16 (rd 2 s).2
      refine ⟨.runT16 (BitVec.ofNat 16 (rd 16 (rd 2 s).2).1), rfl, rfl, ?_, 18, ?_, by simp [hb], by omega, b⟩
      · rw [Instr.runLength?, ofNat_toNat hlt]
      · rw [readBits_add 2 16]
        rw [encode, ofNat_toNat hlt, a]
        rw [tb _ _ (by simp)]; congr 1; rw [← tb 2 (readBits 2 s.bitPos s).1 (by simp), hv2]
  · exact absurd hs hq

end Sys2Proof.Machine
end

