-- ==== Sys2Proof/Laws/Memory.lean ====
section
/-! SUPPORT. The byte memories: a read after a write, and the canonical form that every operation keeps. -/

namespace Sys2Proof.Machine

@[simp] theorem memRead_nil (a : Nat) : memRead [] a = 0#8 := rfl

/-- A write leaves every other address alone, whatever the memory's form. -/
theorem memRead_memWrite_other (m : Mem) {a b : Nat} (v : Byte) (h : b ≠ a) :
    memRead (memWrite m a v) b = memRead m b := by
  have h' : a ≠ b := fun e => h e.symm
  induction m with
  | nil => by_cases hv : v = 0#8 <;> simp [memWrite, memRead, hv, h']
  | cons e m ih =>
    obtain ⟨k, w⟩ := e
    by_cases hlt : a < k
    · by_cases hv : v = 0#8 <;> simp [memWrite, memRead, hlt, hv, h']
    · by_cases hk : a = k
      · subst hk
        by_cases hv : v = 0#8 <;> simp [memWrite, memRead, hv, h']
      · simp [memWrite, memRead, hlt, hk, ih]

/-- Below its lower bound a canonical memory reads 00. -/
theorem memRead_below {lo a : Nat} {m : Mem} (hw : memWfFrom lo m = true) (h : a < lo) : memRead m a = 0#8 := by
  induction m generalizing lo with
  | nil => rfl
  | cons e m ih =>
    obtain ⟨k, w⟩ := e
    simp only [memWfFrom, Bool.and_eq_true, decide_eq_true_eq] at hw
    have : k ≠ a := by omega
    simp only [memRead, this, if_false]
    exact ih hw.2 (by omega)

theorem memRead_memWrite_same_from {lo : Nat} {m : Mem} (hw : memWfFrom lo m = true) (a : Nat) (v : Byte) :
    memRead (memWrite m a v) a = v := by
  induction m generalizing lo with
  | nil => by_cases hv : v = 0#8 <;> simp [memWrite, memRead, hv]
  | cons e m ih =>
    obtain ⟨k, w⟩ := e
    simp only [memWfFrom, Bool.and_eq_true, decide_eq_true_eq] at hw
    by_cases hlt : a < k
    · by_cases hv : v = 0#8
      · have hk : k ≠ a := by omega
        simp [memWrite, memRead, hlt, hv, hk, memRead_below hw.2 (by omega : a < k + 1)]
      · simp [memWrite, memRead, hlt, hv]
    · by_cases hk : a = k
      · subst hk
        by_cases hv : v = 0#8
        · simp [memWrite, hv, memRead_below hw.2 (by omega : a < a + 1)]
        · simp [memWrite, memRead, hv]
      · have hk' : k ≠ a := fun e => hk e.symm
        simp [memWrite, memRead, hlt, hk, hk', ih hw.2]

/-- A read after a write to the same address. -/
theorem memRead_memWrite_same {m : Mem} (hw : Mem.wf m = true) (a : Nat) (v : Byte) :
    memRead (memWrite m a v) a = v := memRead_memWrite_same_from hw a v

theorem memWrite_wfFrom {lo : Nat} {m : Mem} (hw : memWfFrom lo m = true) {a : Nat} (h : lo ≤ a) (v : Byte) :
    memWfFrom lo (memWrite m a v) = true := by
  induction m generalizing lo with
  | nil => by_cases hv : v = 0#8 <;> simp [memWrite, memWfFrom, hv, h]
  | cons e m ih =>
    obtain ⟨k, w⟩ := e
    simp only [memWfFrom, Bool.and_eq_true, decide_eq_true_eq, bne_iff_ne, ne_eq] at hw
    have weaken : ∀ {m : Mem} {l : Nat}, memWfFrom (k + 1) m = true → l ≤ k + 1 → memWfFrom l m = true := by
      intro m l hm hl
      cases m with
      | nil => rfl
      | cons e m =>
        obtain ⟨j, u⟩ := e
        simp only [memWfFrom, Bool.and_eq_true, decide_eq_true_eq, bne_iff_ne, ne_eq] at hm ⊢
        exact ⟨⟨by omega, hm.1.2⟩, hm.2⟩
    by_cases hlt : a < k
    · by_cases hv : v = 0#8
      · simpa [memWrite, memWfFrom, hlt, hv] using hw
      · simp only [memWrite, hlt, if_true, hv, if_false, memWfFrom, Bool.and_eq_true, decide_eq_true_eq, bne_iff_ne, ne_eq]
        exact ⟨⟨h, not_false⟩, ⟨by omega, hw.1.2⟩, hw.2⟩
    · by_cases hk : a = k
      · by_cases hv : v = 0#8
        · simp only [memWrite, hk, hv, if_true, if_false, Nat.lt_irrefl]
          exact weaken hw.2 (by omega)
        · simp only [memWrite, hk, hv, if_true, if_false, Nat.lt_irrefl, memWfFrom, Bool.and_eq_true, decide_eq_true_eq,
            bne_iff_ne, ne_eq]
          exact ⟨⟨hw.1.1, not_false⟩, hw.2⟩
      · simp only [memWrite, hlt, hk, if_false, memWfFrom, Bool.and_eq_true, decide_eq_true_eq, bne_iff_ne, ne_eq]
        exact ⟨hw.1, ih hw.2 (by omega)⟩

/-- A write keeps the canonical form. -/
theorem memWrite_wf {m : Mem} (hw : Mem.wf m = true) (a : Nat) (v : Byte) : Mem.wf (memWrite m a v) = true :=
  memWrite_wfFrom hw (Nat.zero_le _) v

theorem memOfBytes_wfFrom (bs : List Byte) : ∀ a, memWfFrom a (memOfBytes a bs) = true := by
  induction bs with
  | nil => intro a; rfl
  | cons b bs ih =>
    intro a
    have weaken : ∀ {m : Mem} {l : Nat}, memWfFrom (l + 1) m = true → memWfFrom l m = true := by
      intro m l hm
      cases m with
      | nil => rfl
      | cons e m =>
        obtain ⟨j, u⟩ := e
        simp only [memWfFrom, Bool.and_eq_true, decide_eq_true_eq, bne_iff_ne, ne_eq] at hm ⊢
        exact ⟨⟨by omega, hm.1.2⟩, hm.2⟩
    by_cases hb : b = 0#8
    · simpa [memOfBytes, hb] using weaken (ih (a + 1))
    · simp [memOfBytes, hb, memWfFrom, ih (a + 1)]

/-- A loaded program's memory is canonical. -/
theorem memOfBytes_wf (bs : List Byte) : Mem.wf (memOfBytes 0 bs) = true := memOfBytes_wfFrom bs 0

theorem reset_asset_wf : Mem.wf State.reset.asset = true := rfl

theorem reset_surf_wf : Mem.wf State.reset.surf = true := rfl

/-- Writing back what an address reads changes nothing. -/
theorem memWrite_read_from {lo : Nat} {m : Mem} (hw : memWfFrom lo m = true) (a : Nat) :
    memWrite m a (memRead m a) = m := by
  induction m generalizing lo with
  | nil => simp [memWrite]
  | cons e m ih =>
    obtain ⟨k, w⟩ := e
    simp only [memWfFrom, Bool.and_eq_true, decide_eq_true_eq, bne_iff_ne, ne_eq] at hw
    by_cases hlt : a < k
    · have hk : k ≠ a := by omega
      simp [memWrite, memRead, hlt, hk, memRead_below hw.2 (by omega : a < k + 1)]
    · by_cases hk : a = k
      · subst hk
        have hw0 : w ≠ 0#8 := hw.1.2
        simp [memWrite, memRead, hw0]
      · have hk' : k ≠ a := fun e => hk e.symm
        simp [memWrite, memRead, hlt, hk, hk', ih hw.2]

theorem memWrite_read {m : Mem} (hw : Mem.wf m = true) (a : Nat) : memWrite m a (memRead m a) = m :=
  memWrite_read_from hw a

/-- The model's keys of two surface bytes differ unless row and column agree. -/
theorem surfKey_inj {y c y' c' : Nat} : surfKey y c = surfKey y' c' ↔ y = y' ∧ c = c' := Nat.pair_eq_pair

/-- What `loadRange` gives depends on the asset alone. -/
theorem loadRange_congr {s t : State} (h : t.asset = s.asset) (n : Nat) : ∀ a, t.loadRange a n = s.loadRange a n := by
  induction n with
  | zero => intro a; rfl
  | succ n ih => intro a; rw [State.loadRange, State.loadRange, h, ih]

/-- `loadRange` gives as many bytes as asked. -/
@[simp] theorem loadRange_length (s : State) (n : Nat) : ∀ a, (s.loadRange a n).length = n := by
  induction n with
  | zero => intro a; rfl
  | succ n ih => intro a; simp [State.loadRange, ih]

/-- Byte `j` of a loaded range is the asset's byte at that offset. -/
theorem loadRange_getElem? (s : State) (n : Nat) : ∀ a j, j < n → (s.loadRange a n)[j]? = some (memRead s.asset (a + j)) := by
  induction n with
  | zero => intro a j h; omega
  | succ n ih =>
    intro a j h
    cases j with
    | zero => rfl
    | succ j =>
      have := ih (a + 1) j (by omega)
      simpa [State.loadRange, Nat.add_assoc, Nat.add_comm 1 j] using this

end Sys2Proof.Machine
end

