-- ==== Sys2Proof/Laws/PerInstr.lean ====
section
/-! SUPPORT. Statements about every instruction as syntax, one lemma per constructor. -/

namespace Sys2Proof.Laws.TokenUnits

/-- The length of an encoding: a token of a scheme is a whole number of the scheme's elementary units, at least one and at most three
bytes of bits (00_scope.md R9, 30_encoding.md R97); an operation encodes as nothing (30_encoding.md R103). -/
def Statement (i : Instr) : Prop :=
  match i.scheme? with
  | none => encode i = []
  | some .escRl => (encode i).length % 8 = 0 ∧ 0 < (encode i).length ∧ (encode i).length ≤ 24
  | some .tagRl => 4 ≤ (encode i).length ∧ (encode i).length ≤ 18
  | some .qt => 1 ≤ (encode i).length ∧ (encode i).length ≤ 2

theorem runE8 (n : BitVec 8) : Statement (.runE8 n) := by simp [Statement, Instr.scheme?, encode]

theorem runE24 (n : BitVec 16) : Statement (.runE24 n) := by simp [Statement, Instr.scheme?, encode]

theorem runT2 (n : BitVec 2) : Statement (.runT2 n) := by simp [Statement, Instr.scheme?, encode]

theorem runT4 (n : BitVec 4) : Statement (.runT4 n) := by simp [Statement, Instr.scheme?, encode]

theorem runT8 (n : BitVec 8) : Statement (.runT8 n) := by simp [Statement, Instr.scheme?, encode]

theorem runT16 (n : BitVec 16) : Statement (.runT16 n) := by simp [Statement, Instr.scheme?, encode]

theorem qsplit : Statement .qsplit := by simp [Statement, Instr.scheme?, encode]

theorem qleafBg : Statement .qleafBg := by simp [Statement, Instr.scheme?, encode]

theorem qleafFg : Statement .qleafFg := by simp [Statement, Instr.scheme?, encode]

theorem bit : Statement .bit := rfl

theorem hn : Statement .hn := rfl

theorem nyb : Statement .nyb := rfl

theorem byte : Statement .byte := rfl

theorem short : Statement .short := rfl

theorem tagv : Statement .tagv := rfl

theorem escv : Statement .escv := rfl

theorem readint : Statement .readint := rfl

theorem wload : Statement .wload := rfl

theorem wcommit : Statement .wcommit := rfl

theorem wrelease : Statement .wrelease := rfl

theorem rlframe : Statement .rlframe := rfl

theorem rlpixel (i : Nat) (c : Bool) : Statement (.rlpixel i c) := rfl

theorem qtframe : Statement .qtframe := rfl

theorem qtnode (x y w h d : Nat) : Statement (.qtnode x y w h d) := rfl

theorem fill (x y w h : Nat) : Statement (.fill x y w h) := rfl

theorem setfg (x y : Nat) : Statement (.setfg x y) := rfl

theorem init (a : InitArgs) : Statement (.init a) := rfl

theorem step : Statement .step := rfl

theorem reset : Statement .reset := rfl

end Sys2Proof.Laws.TokenUnits
end

