-- ==== Sys2Proof/Laws/Sink.lean ====
section
/-! SUPPORT. What lighting pixels does to the surface: the pixels lit become foreground, no other pixel and no other byte changes. -/

namespace Sys2Proof.Machine

/-- Whether a surface content shows a logical pixel as foreground. -/
def showsFg (c : Cfg) (m : Mem) (x y : Nat) : Bool :=
  match c.surfFmt with
  | .packed1 => (memRead m (pixelKey c x y)).getLsbD (7 - pixelCol c x % 8) == c.fgBit
  | .indexed8 => memRead m (pixelKey c x y) == c.fgIndex

theorem isFg_eq (s : State) (x y : Nat) : s.isFg x y = showsFg s.cfg s.surf x y := rfl

/-- The value a surface content gives a surface pixel. -/
def pixelAt (c : Cfg) (m : Mem) (px py : Nat) : Nat :=
  match c.surfFmt with
  | .packed1 => ((memRead m (surfKey py (px / 8))).getLsbD (7 - px % 8)).toNat
  | .indexed8 => (memRead m (surfKey py px)).toNat

theorem surfPixel_eq (s : State) (px py : Nat) : s.surfPixel px py = pixelAt s.cfg s.surf px py := rfl

/-- `m'` is the surface `m` with exactly the pixels of `P` lit. -/
structure Lit (c : Cfg) (P : Nat → Nat → Prop) (m m' : Mem) : Prop where
  wf    : Mem.wf m = true → Mem.wf m' = true
  shows : Mem.wf m = true → ∀ x y, showsFg c m' x y = true ↔ showsFg c m x y = true ∨ P x y
  bytes : ∀ a, (∀ x y, P x y → a ≠ pixelKey c x y) → memRead m' a = memRead m a
  pixels : Mem.wf m = true → ∀ px py, (∀ x y, P x y → ¬ (px = pixelCol c x ∧ py = pixelRow c y)) →
    pixelAt c m' px py = pixelAt c m px py

theorem Lit.none (c : Cfg) (m : Mem) : Lit c (fun _ _ => False) m m :=
  ⟨id, fun _ _ _ => by simp, fun _ _ => rfl, fun _ _ _ _ => rfl⟩

theorem Lit.congr {c : Cfg} {P Q : Nat → Nat → Prop} {m m' : Mem} (h : Lit c P m m') (e : ∀ x y, P x y ↔ Q x y) :
    Lit c Q m m' :=
  ⟨h.wf, fun hw x y => by rw [h.shows hw, e], fun a ha => h.bytes a fun x y hp => ha x y ((e x y).mp hp),
   fun hw px py ha => h.pixels hw px py fun x y hp => ha x y ((e x y).mp hp)⟩

theorem Lit.trans {c : Cfg} {P Q : Nat → Nat → Prop} {m m' m'' : Mem} (h : Lit c P m m') (k : Lit c Q m' m'') :
    Lit c (fun x y => P x y ∨ Q x y) m m'' :=
  ⟨fun hw => k.wf (h.wf hw), fun hw x y => by rw [k.shows (h.wf hw), h.shows hw, or_assoc],
   fun a ha => by rw [k.bytes a fun x y hq => ha x y (.inr hq), h.bytes a fun x y hp => ha x y (.inl hp)],
   fun hw px py ha => by
     rw [k.pixels (h.wf hw) px py fun x y hq => ha x y (.inr hq), h.pixels hw px py fun x y hp => ha x y (.inl hp)]⟩

/-- Lighting some of the pixels of `Q` keeps every other pixel of the surface. -/
theorem Lit.keeps {s t : State} {P Q : Nat → Nat → Prop} (h : Lit s.cfg P s.surf t.surf) (hc : t.cfg = s.cfg)
    (hw : Mem.wf s.surf = true) (e : ∀ x y, P x y → Q x y) : s.keepsPixelsBut Q t := by
  intro px py ha
  rw [surfPixel_eq, surfPixel_eq, hc]
  exact h.pixels hw px py fun x y hp => ha x y (e x y hp)

/-- A row, a byte and a bit within it name one logical pixel. -/
theorem pixelKey_inj_packed {c : Cfg} {x y x' y' : Nat} (hf : c.surfFmt = .packed1) (h : pixelKey c x y = pixelKey c x' y')
    (hb : pixelCol c x % 8 = pixelCol c x' % 8) : x = x' ∧ y = y' := by
  obtain ⟨h1, h2⟩ := surfKey_inj.mp h
  simp only [pixelByte, hf] at h2
  simp only [pixelRow] at h1
  simp only [pixelCol] at hb h2
  omega

theorem pixelKey_inj_indexed {c : Cfg} {x y x' y' : Nat} (hf : c.surfFmt = .indexed8)
    (h : pixelKey c x y = pixelKey c x' y') : x = x' ∧ y = y' := by
  obtain ⟨h1, h2⟩ := surfKey_inj.mp h
  simp only [pixelByte, hf] at h2
  simp only [pixelRow] at h1
  simp only [pixelCol] at h2
  omega

/-- A pixel's mask is the one bit of its column. -/
theorem pixelMask_getLsbD {px k : Nat} (h : k < 8) : (pixelMask px).getLsbD k = decide (k = 7 - px % 8) := by
  have hm : px % 8 < 8 := Nat.mod_lt _ (by decide)
  unfold pixelMask
  generalize px % 8 = m at hm
  revert k
  interval_cases m <;> decide

/-- Lighting one pixel (45_pixel_sink.md R220). -/
theorem lit_one (s : State) (x y : Nat) :
    Lit s.cfg (fun x' y' => x' = x ∧ y' = y) s.surf (memWrite s.surf (pixelKey s.cfg x y) (s.litByte x y)) := by
  refine ⟨fun hw => memWrite_wf hw _ _, fun hw x' y' => ?_, fun a ha => ?_, fun hw px py ha => ?_⟩
  · unfold showsFg State.litByte
    cases hf : s.cfg.surfFmt with
    | packed1 =>
      simp only [Cfg.fgBit, beq_true]
      by_cases hk : pixelKey s.cfg x' y' = pixelKey s.cfg x y
      · rw [hk, memRead_memWrite_same hw]
        have hlt : 7 - pixelCol s.cfg x' % 8 < 8 := by omega
        simp only [BitVec.getLsbD_or, pixelMask_getLsbD hlt, Bool.or_eq_true, decide_eq_true_eq]
        refine or_congr Iff.rfl ⟨fun e => ?_, fun e => by rw [e.1]⟩
        exact pixelKey_inj_packed hf hk (by omega)
      · rw [memRead_memWrite_other _ _ hk]
        refine (or_iff_left ?_).symm
        rintro ⟨rfl, rfl⟩; exact hk rfl
    | indexed8 =>
      simp only [beq_iff_eq]
      by_cases hk : pixelKey s.cfg x' y' = pixelKey s.cfg x y
      · rw [hk, memRead_memWrite_same hw]
        exact ⟨fun _ => .inr (pixelKey_inj_indexed hf hk), fun _ => rfl⟩
      · rw [memRead_memWrite_other _ _ hk]
        refine (or_iff_left ?_).symm
        rintro ⟨rfl, rfl⟩; exact hk rfl
  · exact memRead_memWrite_other _ _ (ha x y ⟨rfl, rfl⟩)
  · have ne := ha x y ⟨rfl, rfl⟩
    unfold pixelAt State.litByte
    cases hf : s.cfg.surfFmt with
    | packed1 =>
      dsimp only
      by_cases hk : surfKey py (px / 8) = pixelKey s.cfg x y
      · rw [hk, memRead_memWrite_same hw]
        obtain ⟨h1, h2⟩ := surfKey_inj.mp hk
        simp only [pixelByte, hf] at h2
        have hlt : 7 - px % 8 < 8 := by omega
        have hne : 7 - px % 8 ≠ 7 - pixelCol s.cfg x % 8 := fun e => ne ⟨by omega, h1⟩
        simp only [BitVec.getLsbD_or, pixelMask_getLsbD hlt, hne, decide_false, Bool.or_false]
        rfl
      · rw [memRead_memWrite_other _ _ hk]
    | indexed8 =>
      dsimp only
      rw [memRead_memWrite_other]
      intro hk
      obtain ⟨h1, h2⟩ := surfKey_inj.mp hk
      simp only [pixelByte, hf] at h2
      exact ne ⟨h2, h1⟩

/-- Everything SETFG can do. -/
theorem setFg_ok {x y : Nat} {s t : State} (h : setFg x y s = .ok t) :
    t = s.putSurf (memWrite s.surf (pixelKey s.cfg x y) (s.litByte x y)) := by
  unfold setFg surfWrite at h
  split at h
  · exact (Except.ok.inj h).symm
  · cases h

/-- A pixel of the canvas lies on the surface (45_pixel_sink.md R227). -/
theorem setFg_inside {x y : Nat} {s : State} (hw : s.cfg.wf = true) (hx : x < s.cfg.w) (hy : y < s.cfg.h) :
    setFg x y s = .ok (s.putSurf (memWrite s.surf (pixelKey s.cfg x y) (s.litByte x y))) := by
  unfold setFg surfWrite
  have : s.onSurface (pixelRow s.cfg y) (pixelByte s.cfg x) = true := by
    simp only [Cfg.wf, Bool.and_eq_true, decide_eq_true_eq] at hw
    have h1 : pixelRow s.cfg y < s.cfg.surfH := by simp only [pixelRow, Cfg.offY]; omega
    have h2 : pixelByte s.cfg x < s.cfg.rowBytes := by
      unfold pixelByte Cfg.rowBytes pixelCol Cfg.offX
      cases s.cfg.surfFmt <;> dsimp only <;> omega
    simp [State.onSurface, h1, h2]
  rw [if_pos this]; rfl

/-- What a row of a fill can do. -/
theorem fillRow_ok (n : Nat) : ∀ {x y : Nat} {s t : State}, fillRow n x y s = .ok t →
    t = { s with surf := t.surf } ∧ Lit s.cfg (fun x' y' => (x ≤ x' ∧ x' < x + n) ∧ y' = y) s.surf t.surf := by
  induction n with
  | zero =>
    intro x y s t h
    cases h
    exact ⟨rfl, (Lit.none _ _).congr fun x' y' => ⟨False.elim, fun h => by omega⟩⟩
  | succ n ih =>
    intro x y s t h
    unfold fillRow at h
    split at h
    · rename_i u hu
      have hu := setFg_ok hu
      subst hu
      obtain ⟨h1, h2⟩ := ih h
      refine ⟨by rw [h1]; rfl, ((lit_one s x y).trans h2).congr fun x' y' => ?_⟩
      omega
    · cases h

/-- What a fill can do (44_quadtree_decoder.md R205). -/
theorem fillRect_ok {x w : Nat} (n : Nat) : ∀ {y : Nat} {s t : State}, fillRect x w n y s = .ok t →
    t = { s with surf := t.surf } ∧
      Lit s.cfg (fun x' y' => (x ≤ x' ∧ x' < x + w) ∧ (y ≤ y' ∧ y' < y + n)) s.surf t.surf := by
  induction n with
  | zero =>
    intro y s t h
    cases h
    exact ⟨rfl, (Lit.none _ _).congr fun x' y' => ⟨False.elim, fun h => by omega⟩⟩
  | succ n ih =>
    intro y s t h
    unfold fillRect at h
    split at h
    · rename_i u hu
      obtain ⟨k1, k2⟩ := fillRow_ok w hu
      obtain ⟨h1, h2⟩ := ih h
      have hc : u.cfg = s.cfg := by rw [k1]
      rw [hc] at h2
      refine ⟨by rw [h1, k1], (k2.trans h2).congr fun x' y' => ?_⟩
      omega
    · cases h

/-- A row inside the canvas fills. -/
theorem fillRow_inside (n : Nat) : ∀ {x y : Nat} {s : State}, s.cfg.wf = true → x + n ≤ s.cfg.w → y < s.cfg.h →
    ∃ t, fillRow n x y s = .ok t := by
  induction n with
  | zero => intro x y s _ _ _; exact ⟨s, rfl⟩
  | succ n ih =>
    intro x y s hw hx hy
    unfold fillRow
    rw [setFg_inside hw (by omega) hy]
    exact ih hw (by simpa using by omega) hy

/-- A rectangle inside the canvas fills. -/
theorem fillRect_inside {x w : Nat} (n : Nat) : ∀ {y : Nat} {s : State}, s.cfg.wf = true → x + w ≤ s.cfg.w → y + n ≤ s.cfg.h →
    ∃ t, fillRect x w n y s = .ok t := by
  induction n with
  | zero => intro y s _ _ _; exact ⟨s, rfl⟩
  | succ n ih =>
    intro y s hw hx hy
    unfold fillRect
    obtain ⟨u, hu⟩ := fillRow_inside w (y := y) hw hx (by omega)
    rw [hu]
    have hc : u.cfg = s.cfg := by rw [(fillRow_ok w hu).1]
    exact ih (by rw [hc]; exact hw) (by rw [hc]; exact hx) (by rw [hc]; omega)

end Sys2Proof.Machine
end

