-- ==== Sys2Proof/Laws/Quadtree.lean ====
section
/-! SUPPORT. What the quadtree decoder does: a node draws inside its rectangle and completes or takes QTO (44_quadtree_decoder.md R201 to R207). -/

namespace Sys2Proof.Machine

theorem covers_iff {r : QNode} {x y : Nat} : r.covers x y = true ↔ (r.x ≤ x ∧ x < r.x + r.w) ∧ (r.y ≤ y ∧ y < r.y + r.h) := by
  simp [QNode.covers, and_assoc]

theorem inside_iff {c : Cfg} {r : QNode} : c.inside r = true ↔ r.x + r.w ≤ c.w ∧ r.y + r.h ≤ c.h := by
  simp [Cfg.inside]

/-- the four children of a rectangle -/
theorem child_covers {r q : QNode} (hq : q = r.tl ∨ q = r.tr ∨ q = r.bl ∨ q = r.br) {x y : Nat} (h : q.covers x y = true) :
    r.covers x y = true := by
  rw [covers_iff] at *
  rcases hq with rfl | rfl | rfl | rfl <;> simp only [QNode.tl, QNode.tr, QNode.bl, QNode.br, ceil2, floor2] at h <;> omega

/-- The children of a rectangle of the canvas lie on the canvas. -/
theorem child_inside {c : Cfg} {r q : QNode} (hq : q = r.tl ∨ q = r.tr ∨ q = r.bl ∨ q = r.br) (h : c.inside r = true) :
    c.inside q = true := by
  rw [inside_iff] at *
  rcases hq with rfl | rfl | rfl | rfl <;> simp only [QNode.tl, QNode.tr, QNode.bl, QNode.br, ceil2, floor2] <;> omega

theorem root_inside (c : Cfg) : c.inside c.root = true := by simp [Cfg.inside, Cfg.root]

theorem qt_scheme {s : State} (h : s.cfg.scheme = .qt) : s.cfg.upb = 8 ∧ s.cfg.bpu = 1 := by
  simp [Cfg.bpu, Cfg.upb, h, Scheme.upb]

/-- A foreground pixel of a tree lies in the rectangle the tree is laid over. -/
theorem foreground_covers (tr : QTree) : ∀ (r : QNode) x y, tr.foreground r x y = true → r.covers x y = true := by
  induction tr with
  | leaf fg => intro r x y h; simp [QTree.foreground] at h; exact h.2
  | split a b c d iha ihb ihc ihd =>
    intro r x y h
    simp only [QTree.foreground, Bool.or_eq_true] at h
    rcases h with ((h | h) | h) | h
    · exact child_covers (by simp) (iha _ _ _ h)
    · exact child_covers (by simp) (ihb _ _ _ h)
    · exact child_covers (by simp) (ihc _ _ _ h)
    · exact child_covers (by simp) (ihd _ _ _ h)

/-- A foreground pixel of a frame's tree lies on the canvas. -/
theorem foreground_onCanvas {c : Cfg} {tr : QTree} {x y : Nat} (h : tr.foreground c.root x y = true) : c.onCanvas x y := by
  have := covers_iff.mp (foreground_covers tr _ _ _ h)
  simp only [Cfg.root, Nat.zero_add] at this
  exact ⟨this.1.2, this.2.2⟩

/-- What a part of a quadtree frame has changed so far. -/
structure Drew (P : Nat → Nat → Prop) (s u : State) : Prop where
  frame : u = { s with wcur := u.wcur, status := u.status, draws := u.draws, qdepth := u.qdepth, surf := u.surf }
  wcur : s.wcur ≤ u.wcur
  lit : Lit s.cfg P s.surf u.surf

theorem Drew.cfg {P} {s u : State} (h : Drew P s u) : u.cfg = s.cfg := by rw [h.frame]

theorem Drew.trans {P Q} {s u v : State} (h : Drew P s u) (k : Drew Q u v) : Drew (fun x y => P x y ∨ Q x y) s v := by
  refine ⟨by rw [k.frame, h.frame], Nat.le_trans h.wcur k.wcur, h.lit.trans ?_⟩
  have := k.lit
  rwa [h.cfg] at this

theorem Drew.weaken {P Q : Nat → Nat → Prop} {s u : State} (h : Drew P s u) (e : ∀ x y, P x y ↔ Q x y) : Drew Q s u :=
  ⟨h.frame, h.wcur, h.lit.congr e⟩

theorem drew_rd (n : Nat) (s : State) : Drew (fun _ _ => False) s (rd n s).2 := by
  rw [rd_eq]; exact ⟨rfl, Nat.le_add_right _ _, Lit.none _ _⟩

theorem drew_depth (d : Nat) (s : State) : Drew (fun _ _ => False) s { s with qdepth := d } := ⟨rfl, Nat.le_refl _, Lit.none _ _⟩

theorem drew_refl (s : State) : Drew (fun _ _ => False) s s := ⟨rfl, Nat.le_refl _, Lit.none _ _⟩

/-- A walk over a rectangle: complete or aborted by QTO, having drawn inside the rectangle only. -/
def Walked (r : QNode) (s : State) (w : Walk) : Prop :=
  ∃ P u, (w = .done u ∨ w = .abort u.takeQto) ∧ Drew P s u ∧ ∀ x y, P x y → r.covers x y = true

/-- A leaf on the canvas completes and fills its rectangle exactly when its colour bit is 1. -/
theorem qtLeaf_walked {r : QNode} {s : State} (hw : s.cfg.wf = true) (hi : s.cfg.inside r = true) :
    ∃ u, qtLeaf r s = .done u ∧ Drew (fun x y => (rd 1 s).1 = 1 ∧ r.covers x y = true) s u := by
  have hd := drew_rd 1 s
  rw [inside_iff] at hi
  unfold qtLeaf
  dsimp only
  split
  · rename_i h1
    obtain ⟨u, hu⟩ := fillRect_inside (x := r.x) (w := r.w) r.h (y := r.y) (s := (rd 1 s).2) (by rw [hd.cfg]; exact hw)
      (by rw [hd.cfg]; exact hi.1) (by rw [hd.cfg]; exact hi.2)
    obtain ⟨k1, k2⟩ := fillRect_ok _ hu
    rw [hu]
    refine ⟨u, rfl, (hd.trans (v := u) ⟨by rw [k1], by rw [k1], k2⟩).weaken fun x y => ?_⟩
    rw [covers_iff, false_or]
    exact ⟨fun h => ⟨h1, h⟩, fun h => h.2⟩
  · rename_i h1
    exact ⟨_, rfl, hd.weaken fun x y => ⟨False.elim, fun h => h1 h.1⟩⟩

/-- Two walks one after the other draw inside whatever contains both. -/
theorem walked_andThen {r q : QNode} {s : State} {w : Walk} {k : State → Walk} (h : Walked r s w)
    (hk : ∀ u, u.cfg = s.cfg → Walked q u (k u)) (e : QNode) (h1 : ∀ x y, r.covers x y = true → e.covers x y = true)
    (h2 : ∀ x y, q.covers x y = true → e.covers x y = true) : Walked e s (w.andThen k) := by
  obtain ⟨P, u, hw, hd, hP⟩ := h
  rcases hw with rfl | rfl
  · obtain ⟨Q, v, hv, hd2, hQ⟩ := hk u hd.cfg
    exact ⟨_, v, hv, hd.trans hd2, fun x y h => h.elim (fun h => h1 x y (hP x y h)) (fun h => h2 x y (hQ x y h))⟩
  · exact ⟨P, u, .inr rfl, hd, fun x y h => h1 x y (hP x y h)⟩

/-- the state after a node's flag bit -/
def flagRead (r : QNode) (s : State) : State := (rd 1 { s with qdepth := r.d }).2

theorem drew_flag (r : QNode) (s : State) : Drew (fun _ _ => False) s (flagRead r s) :=
  ((drew_depth r.d s).trans (drew_rd 1 { s with qdepth := r.d })).weaken fun _ _ => by simp

/-- The flag bit belongs to the walk. -/
theorem walked_of_flag {r : QNode} {s : State} {w : Walk} (h : Walked r (flagRead r s) w) : Walked r s w := by
  obtain ⟨P, u, a, b, c⟩ := h
  exact ⟨_, u, a, (drew_flag r s).trans b, fun x y h => by simpa using c x y (by simpa using h)⟩

/-- A leaf draws inside its rectangle only. -/
theorem qtLeaf_walked' {r : QNode} {s : State} (hw : s.cfg.wf = true) (hi : s.cfg.inside r = true) : Walked r s (qtLeaf r s) := by
  obtain ⟨u, hu, hd⟩ := qtLeaf_walked hw hi
  exact ⟨_, u, .inl hu, hd, fun x y h => h.2⟩

/-- A node on the canvas completes or takes QTO, whatever its bits are, and draws inside its rectangle only. -/
theorem qtNode_walked (n : Nat) : ∀ {r : QNode} {s : State}, s.cfg.wf = true → s.cfg.inside r = true →
    Walked r (flagRead r s) (qtNode n r s) := by
  induction n with
  | zero =>
    intro r s hw hi
    have hc := (drew_flag r s).cfg
    unfold qtNode
    dsimp only
    split
    · exact ⟨_, _, .inr rfl, drew_refl _, by simp⟩
    · exact qtLeaf_walked' (by rw [← hc] at hw; exact hw) (by rw [← hc] at hi; exact hi)
  | succ n ih =>
    intro r s hw hi
    have hc := (drew_flag r s).cfg
    unfold qtNode
    dsimp only
    split
    · have vis : ∀ q, (q = r.tl ∨ q = r.tr ∨ q = r.bl ∨ q = r.br) → ∀ u : State, u.cfg = s.cfg →
          Walked q u (if u.cfg.visits q = true then qtNode n q u else Walk.done u) := by
        intro q hq u hu
        split
        · exact walked_of_flag (ih (by rw [hu]; exact hw) (by rw [hu]; exact child_inside hq hi))
        · exact ⟨_, u, .inl rfl, drew_refl u, by simp⟩
      have cv : ∀ q, (q = r.tl ∨ q = r.tr ∨ q = r.bl ∨ q = r.br) → ∀ x y, q.covers x y = true → r.covers x y = true :=
        fun q hq x y => child_covers hq
      have h1 : Walked r (flagRead r s) (if (flagRead r s).cfg.visits r.tl = true then qtNode n r.tl (flagRead r s)
            else Walk.done (flagRead r s)) := by
        obtain ⟨P, u, a, b, c⟩ := vis r.tl (by simp) _ hc
        exact ⟨P, u, a, b, fun x y h => cv r.tl (by simp) x y (c x y h)⟩
      have h2 := walked_andThen h1 (fun u hu => vis r.tr (by simp) u (hu.trans hc)) r (fun _ _ h => h) (cv r.tr (by simp))
      have h3 := walked_andThen h2 (fun u hu => vis r.bl (by simp) u (hu.trans hc)) r (fun _ _ h => h) (cv r.bl (by simp))
      exact walked_andThen h3 (fun u hu => vis r.br (by simp) u (hu.trans hc)) r (fun _ _ h => h) (cv r.br (by simp))
    · exact qtLeaf_walked' (by rw [← hc] at hw; exact hw) (by rw [← hc] at hi; exact hi)

/-- Everything taking QTO changes. -/
theorem takeQto_facts (s : State) : s.takeQto = { s with
    status := s.status ||| 4#3, phase := .fault, busy := false, wcur := s.takeQto.wcur, so := s.takeQto.so,
    woff := s.takeQto.woff, wbuf := s.takeQto.wbuf, pcnt := s.takeQto.pcnt, cls := s.takeQto.cls, run := s.takeQto.run,
    qstk := s.takeQto.qstk, qdepth := s.takeQto.qdepth, draws := s.takeQto.draws } := rfl

/-- STATUS after QTO records it. -/
theorem qto_recorded (b : BitVec 3) : Condition.qto.recorded (b ||| 4#3) = true := by
  simp [Condition.recorded, Condition.code]

/-- A token works on the rectangle on top. -/
theorem onTop_eq {s : State} {r : QNode} {rest : List QNode} (h : s.qstk = r :: rest) (k : QNode → State → Out) :
    onTop s k = k r { s with qstk := rest, qdepth := r.d } := by
  unfold onTop; rw [h]

/-- A quadtree token with a rectangle pending is its effect on that rectangle. -/
theorem qtToken_eq {s : State} (hi : s.inited = true) (hq : s.cfg.scheme = .qt) {r : QNode} {rest : List QNode} (h : s.qstk = r :: rest)
    (w : Nat) (k : QNode → State → Out) : qtToken w k s = k r { s with wcur := s.wcur + w, qstk := rest, qdepth := r.d } := by
  unfold qtToken
  rw [whenReady_of hi, hq, show (Scheme.qt == Scheme.qt) = true from rfl, whenScheme_true, onTop_eq (r := r) (rest := rest) (by exact h)]
  simp [State.consume, State.seek, (qt_scheme hq).2]

end Sys2Proof.Machine
end

