-- ==== Sys2Proof/Laws/RunLength.lean ====
section
/-! SUPPORT. What a pixel, a run, a run token and the frame loop do (43_run_length_decoder.md R180 to R184). -/

namespace Sys2Proof.Machine

/-- Everything RLPIXEL can do. -/
theorem rlPixel_ok {i : Nat} {c : Bool} {s t : State} (h : rlPixel i c s = .ok t) :
    ∃ v, s.pix[i]? = some v ∧ t = { s with pix := s.pix.set i (xor c v), surf := t.surf } ∧
      Lit s.cfg (fun x y => (x = i % s.cfg.w ∧ y = i / s.cfg.w) ∧ xor c v = true) s.surf t.surf := by
  unfold rlPixel at h
  split at h
  · rename_i hi
    have hg : s.pix.getD i false = s.pix[i] := by simp [hi]
    refine ⟨s.pix[i], by simp [hi], ?_⟩
    simp only [hg] at h
    split at h
    · rename_i hv
      have h' := setFg_ok h
      subst h'
      refine ⟨rfl, (lit_one (s.putPix i _) _ _).congr fun x y => ?_⟩
      exact ⟨fun e => ⟨e, hv⟩, fun e => e.1⟩
    · rename_i hv
      cases h
      refine ⟨rfl, (Lit.none _ _).congr fun x y => ⟨False.elim, fun e => hv e.2⟩⟩
  · cases h

/-- RLPIXEL on an entry of PIX whose pixel lies on the canvas. -/
theorem rlPixel_inside {i : Nat} {c : Bool} {s : State} (hw : s.cfg.wf = true) (hi : i < s.pix.length)
    (hn : i < s.cfg.npix) : ∃ t, rlPixel i c s = .ok t := by
  unfold rlPixel
  rw [if_pos hi]
  have hwf := hw
  simp only [Cfg.wf, Bool.and_eq_true, decide_eq_true_eq] at hw
  have hx : i % s.cfg.w < s.cfg.w := Nat.mod_lt _ (by omega)
  have hy : i / s.cfg.w < s.cfg.h := Nat.div_lt_of_lt_mul hn
  dsimp only
  split
  · exact ⟨_, setFg_inside (s := s.putPix i _) hwf hx hy⟩
  · exact ⟨_, rfl⟩

/-- What the pixels of a run can do. -/
theorem runPixels_ok (k : Nat) : ∀ {s t : State}, runPixels k s = .ok t →
    t = { s with
      pcnt := s.pcnt + min k (s.cfg.npix - s.pcnt), pix := t.pix, surf := t.surf,
      status := if s.cfg.npix - s.pcnt < k then Condition.rlx.set s.status else s.status } ∧
    t.pix.length = s.pix.length ∧
    (∀ j, s.pcnt ≤ j ∧ j < s.pcnt + min k (s.cfg.npix - s.pcnt) → t.pix[j]? = (s.pix[j]?).map (xor s.cls)) ∧
    (∀ j, ¬(s.pcnt ≤ j ∧ j < s.pcnt + min k (s.cfg.npix - s.pcnt)) → t.pix[j]? = s.pix[j]?) ∧
    Lit s.cfg (fun x y => ∃ j, (s.pcnt ≤ j ∧ j < s.pcnt + min k (s.cfg.npix - s.pcnt)) ∧
      (x = j % s.cfg.w ∧ y = j / s.cfg.w) ∧ t.pix.getD j false = true) s.surf t.surf := by
  induction k with
  | zero =>
    intro s t h
    cases h
    refine ⟨by simp, rfl, fun j hj => by omega, fun _ _ => rfl, (Lit.none _ _).congr fun x y => ⟨False.elim, ?_⟩⟩
    rintro ⟨j, hj, -⟩; omega
  | succ k ih =>
    intro s t h
    unfold runPixels at h
    split at h
    · rename_i hlt
      split at h
      · rename_i u hu
        obtain ⟨v, hv, hu1, hu2⟩ := rlPixel_ok hu
        obtain ⟨h1, h2, h3, h4, h5⟩ := ih h
        have hcfg : u.cfg = s.cfg := by rw [hu1]
        have hp : u.pcnt = s.pcnt := by rw [hu1]
        have hcl : u.cls = s.cls := by rw [hu1]
        have hst : u.status = s.status := by rw [hu1]
        have hpx : u.pix = s.pix.set s.pcnt (xor s.cls v) := by rw [hu1]
        simp only [hcfg, hp, hcl, hst] at h1 h2 h3 h4 h5
        have hm : s.pcnt + 1 + min k (s.cfg.npix - (s.pcnt + 1)) = s.pcnt + min (k + 1) (s.cfg.npix - s.pcnt) := by omega
        rw [hm] at h1 h3 h4 h5
        have hcond : (s.cfg.npix - (s.pcnt + 1) < k) ↔ (s.cfg.npix - s.pcnt < k + 1) := by omega
        simp only [hcond] at h1
        have hlen : s.pcnt < s.pix.length := by
          rcases Nat.lt_or_ge s.pcnt s.pix.length with h' | h'
          · exact h'
          · rw [List.getElem?_eq_none h'] at hv; cases hv
        have hfirst : t.pix[s.pcnt]? = some (xor s.cls v) := by
          rw [h4 s.pcnt (by omega), hpx, List.getElem?_set]
          simp [hlen]
        refine ⟨?_, ?_, ?_, ?_, ?_⟩
        · rw [h1, hu1]
        · rw [h2, hpx, List.length_set]
        · intro j hj
          by_cases he : j = s.pcnt
          · rw [he, hfirst, hv]; rfl
          · rw [h3 j (by omega), hpx, List.getElem?_set]
            simp [Ne.symm he]
        · intro j hj
          have he : s.pcnt ≠ j := by omega
          rw [h4 j (by omega), hpx, List.getElem?_set]
          simp [he]
        · refine (hu2.trans h5).congr fun x y => ⟨?_, ?_⟩
          · rintro (⟨hxy, hx⟩ | ⟨j, hj, hxy⟩)
            · exact ⟨s.pcnt, by omega, hxy, by rw [List.getD_eq_getElem?_getD, hfirst, hx]; rfl⟩
            · exact ⟨j, by omega, hxy⟩
          · rintro ⟨j, hj, hxy, ht⟩
            by_cases he : j = s.pcnt
            · subst he
              rw [List.getD_eq_getElem?_getD, hfirst] at ht
              exact .inl ⟨hxy, ht⟩
            · exact .inr ⟨j, by omega, hxy, ht⟩
      · cases h
    · rename_i hge
      cases h
      refine ⟨?_, rfl, fun j hj => by omega, fun _ _ => rfl, (Lit.none _ _).congr fun x y => ⟨False.elim, ?_⟩⟩
      · have h1 : s.cfg.npix - s.pcnt = 0 := by omega
        simp [h1, State.raise]
      · rintro ⟨j, hj, -⟩; omega

/-- A run on a canvas whose PIX has an entry for every pixel. -/
theorem runPixels_inside (k : Nat) : ∀ {s : State}, s.cfg.wf = true → s.cfg.npix ≤ s.pix.length →
    ∃ t, runPixels k s = .ok t := by
  induction k with
  | zero => intro s _ _; exact ⟨s, rfl⟩
  | succ k ih =>
    intro s hw hp
    unfold runPixels
    split
    · rename_i hlt
      obtain ⟨u, hu⟩ := rlPixel_inside (c := s.cls) hw (Nat.lt_of_lt_of_le hlt hp) hlt
      rw [hu]
      obtain ⟨v, -, hu1, -⟩ := rlPixel_ok hu
      have hcfg : u.cfg = s.cfg := by rw [hu1]
      have hpx : u.pix.length = s.pix.length := by rw [hu1]; simp
      exact ih (by simpa [hcfg] using hw) (by simpa [hcfg, hpx] using hp)
    · exact ⟨_, rfl⟩

/-- What the effect of a run token can be, once the token is read. -/
theorem applyRun_ok {n : Nat} {s t : State} (h : applyRun n s = .ok t) :
    t = { s with
      run := n, pcnt := s.pcnt + min n (s.cfg.npix - s.pcnt), cls := !s.cls, pix := t.pix, surf := t.surf,
      status := if s.cfg.npix - s.pcnt < n then Condition.rlx.set s.status else s.status } ∧
    t.pix.length = s.pix.length ∧
    (∀ j, s.pcnt ≤ j ∧ j < s.pcnt + min n (s.cfg.npix - s.pcnt) → t.pix[j]? = (s.pix[j]?).map (xor s.cls)) ∧
    (∀ j, ¬(s.pcnt ≤ j ∧ j < s.pcnt + min n (s.cfg.npix - s.pcnt)) → t.pix[j]? = s.pix[j]?) ∧
    Lit s.cfg (fun x y => ∃ j, (s.pcnt ≤ j ∧ j < s.pcnt + min n (s.cfg.npix - s.pcnt)) ∧
      (x = j % s.cfg.w ∧ y = j / s.cfg.w) ∧ t.pix.getD j false = true) s.surf t.surf := by
  unfold applyRun at h
  split at h
  · rename_i u hu
    cases h
    obtain ⟨h1, h2, h3, h4, h5⟩ := runPixels_ok n hu
    exact ⟨by rw [h1], h2, h3, h4, h5⟩
  · cases h

/-- A run token of a frame on the canvas never faults. -/
theorem applyRun_inside {n : Nat} {s : State} (hw : s.cfg.wf = true) (hp : s.cfg.npix ≤ s.pix.length) :
    ∃ t, applyRun n s = .ok t := by
  obtain ⟨u, hu⟩ := runPixels_inside n (s := { s with run := n }) hw hp
  exact ⟨_, by unfold applyRun; rw [hu]⟩

/-- A zero-length run only flips the class (43_run_length_decoder.md R183). -/
theorem applyRun_zero (s : State) : applyRun 0 s = .ok { s with run := 0, cls := !s.cls } := rfl

/-- The pixel of a row-major index. -/
theorem index_xy {w x y : Nat} (hx : x < w) : (y * w + x) % w = x ∧ (y * w + x) / w = y := by
  have hw : 0 < w := by omega
  constructor
  · rw [Nat.add_comm, Nat.add_mul_mod_self_right, Nat.mod_eq_of_lt hx]
  · rw [Nat.add_comm, Nat.add_mul_div_right _ _ hw, Nat.div_eq_of_lt hx, Nat.zero_add]

/-- The row-major index of a pixel. -/
theorem xy_index {w x y j : Nat} (h : x = j % w ∧ y = j / w) : j = y * w + x := by
  rw [h.1, h.2, Nat.mul_comm]; exact (Nat.div_add_mod j w).symm

/-- The pixel of an index of the frame lies on the canvas. -/
theorem pixel_of_index {c : Cfg} (hw : c.wf = true) {j : Nat} (hj : j < c.npix) : j % c.w < c.w ∧ j / c.w < c.h := by
  simp only [Cfg.wf, Bool.and_eq_true, decide_eq_true_eq] at hw
  exact ⟨Nat.mod_lt _ (by omega), Nat.div_lt_of_lt_mul hj⟩

/-- what a whole loop can do, from PCNT on -/
theorem rlLoop_ok (k : Nat) : ∀ {s t : State}, s.cfg.scheme ≠ .qt → rlLoop k s = .ok t → s.pcnt ≤ s.cfg.npix →
    t.pcnt = s.cfg.npix ∧ t.pix.length = s.pix.length ∧ s.wcur ≤ t.wcur ∧
    t = { s with wcur := t.wcur, pcnt := t.pcnt, cls := t.cls, run := t.run, pix := t.pix, status := t.status, surf := t.surf,
                 draws := t.draws } ∧
    (∀ j, j < s.pcnt → t.pix[j]? = s.pix[j]?) ∧
    Lit s.cfg (fun x y => ∃ j, (s.pcnt ≤ j ∧ j < s.cfg.npix) ∧ (x = j % s.cfg.w ∧ y = j / s.cfg.w) ∧ t.pix.getD j false = true)
      s.surf t.surf := by
  induction k with
  | zero =>
    intro s t _ h hp
    unfold rlLoop at h
    split at h
    · cases h
    · cases h
      exact ⟨by omega, rfl, Nat.le_refl _, rfl, fun _ _ => rfl, (Lit.none _ _).congr fun x y => ⟨False.elim, by rintro ⟨j, hj, -⟩; omega⟩⟩
  | succ k ih =>
    intro s t hq h hp
    unfold rlLoop at h
    split at h
    · rename_i hlt
      split at h
      · rename_i u hu
        obtain ⟨i, b, -, -, -, -, -, -, hr⟩ := readInt_token s hq
        obtain ⟨h1, h2, h3, h4, h5⟩ := applyRun_ok hu
        rw [hr] at h1 h2 h3 h4 h5
        dsimp only at h1 h2 h3 h4 h5
        have hc : u.cfg = s.cfg := by rw [h1]
        have hup : u.pcnt = s.pcnt + min (readInt s).1 (s.cfg.npix - s.pcnt) := by rw [h1]
        have hw : u.wcur = s.wcur + b / s.cfg.bpu := by rw [h1]
        obtain ⟨g1, g2, g3, g4, g5, g6⟩ := ih (by rw [hc]; exact hq) h (by rw [hc, hup]; omega)
        rw [hc] at g1 g6
        refine ⟨g1, by rw [g2, h2], by rw [hw] at g3; exact Nat.le_trans (Nat.le_add_right _ _) g3, by rw [g4, h1], ?_, ?_⟩
        · intro j hj
          rw [g5 j (by omega), h4 j (by omega)]
        · refine (h5.trans g6).congr fun x y => ⟨?_, ?_⟩
          · rintro (⟨j, hj, hxy, ht⟩ | ⟨j, hj, hxy, ht⟩)
            · refine ⟨j, by omega, hxy, ?_⟩
              rw [List.getD_eq_getElem?_getD, g5 j (by omega), ← List.getD_eq_getElem?_getD]; exact ht
            · exact ⟨j, by omega, hxy, ht⟩
          · rintro ⟨j, hj, hxy, ht⟩
            by_cases hju : j < u.pcnt
            · refine .inl ⟨j, by omega, hxy, ?_⟩
              rw [List.getD_eq_getElem?_getD, ← g5 j hju, ← List.getD_eq_getElem?_getD]; exact ht
            · exact .inr ⟨j, by omega, hxy, ht⟩
      · cases h
    · cases h
      exact ⟨by omega, rfl, Nat.le_refl _, rfl, fun _ _ => rfl, (Lit.none _ _).congr fun x y => ⟨False.elim, by rintro ⟨j, hj, -⟩; omega⟩⟩

/-- The frame loop ends, or runs out of fuel, and never faults otherwise. -/
theorem rlLoop_total (k : Nat) : ∀ {s : State}, s.cfg.scheme ≠ .qt → s.cfg.wf = true → s.cfg.npix ≤ s.pix.length →
    rlLoop k s = .error .frameUnfinished ∨ ∃ t, rlLoop k s = .ok t := by
  induction k with
  | zero => intro s _ _ _; unfold rlLoop; split <;> simp
  | succ k ih =>
    intro s hq hw hp
    unfold rlLoop
    split
    · obtain ⟨i, b, -, -, -, -, -, -, hr⟩ := readInt_token s hq
      have hc : (readInt s).2.cfg = s.cfg := by rw [hr]
      have hpx : (readInt s).2.pix = s.pix := by rw [hr]
      obtain ⟨u, hu⟩ := applyRun_inside (n := (readInt s).1) (s := (readInt s).2) (by rw [hc]; exact hw) (by rw [hc, hpx]; exact hp)
      rw [hu]
      obtain ⟨h1, h2, -⟩ := applyRun_ok hu
      have hc2 : u.cfg = s.cfg := by rw [h1]; exact hc
      dsimp only
      exact ih (by rw [hc2]; exact hq) (by rw [hc2]; exact hw) (by rw [hc2, h2, hpx]; exact hp)
    · exact .inr ⟨_, rfl⟩

end Sys2Proof.Machine
end

