-- ==== Sys2Proof/Laws/Player.lean ====
section
/-! SUPPORT. What INIT derives, what the ends of a STEP do, and what each guarded operation is once its guards hold (46_player_control.md R241 to R249). -/

namespace Sys2Proof.Machine

theorem pixCount_eq (c : Cfg) : c.pixCount = if c.scheme = .qt then 0 else c.w * c.h := by
  unfold Cfg.pixCount Cfg.npix; cases c.scheme <;> rfl

/-- A scheme's code is the code it was read from. -/
theorem schemeOfCode_code {n : Nat} {sch : Scheme} (h : schemeOfCode n = some sch) : sch.code.toNat = n := by
  match n, h with
  | 0, h => cases h; rfl
  | 1, h => cases h; rfl
  | 2, h => cases h; rfl
  | k + 3, h => cases h

/-- A format's code is the code it was read from. -/
@[simp] theorem surfFmtOfCode_code (b : BitVec 1) : (surfFmtOfCode b).code = b := by
  revert b; decide

/-- What an accepted configuration has passed. -/
theorem derive_ok {a : InitArgs} {size : Nat} {c : Cfg} (h : a.derive size = .ok c) :
    ∃ sch, schemeOfCode a.schemeCode = some sch ∧ c = a.toCfg size sch ∧
      a.unitOk = true ∧ (a.dimsFromSurface = true → sch = .qt) ∧ a.ratioOk = true ∧ ¬ (c.w = 0 ∨ c.h = 0) ∧ a.nframes ≠ 0 ∧
      a.fps ≠ 0 ∧ ¬ (a.surfW < c.w ∨ a.surfH < c.h) := by
  unfold InitArgs.derive at h
  split at h
  · cases h
  · rename_i sch hs
    split_ifs at h with h1 h2 h3 h4 h5 h6 h7
    cases h
    exact ⟨sch, hs, rfl, by simpa using h1, by simpa using h2, by simpa using h3, h4, h5, h6, h7⟩

/-- A legal configuration is well formed. -/
theorem legal_wf {c : Cfg} (h : c.legal = true) : c.wf = true := by
  simp only [Cfg.legal, Bool.and_eq_true] at h
  exact h.1.1.1

/-- A legal configuration has a rate. -/
theorem legal_fps {c : Cfg} (h : c.legal = true) : 0 < c.fps := by
  simp only [Cfg.legal, Bool.and_eq_true, decide_eq_true_eq] at h
  exact h.1.1.2

/-- An accepted configuration is legal. -/
theorem derive_legal {a : InitArgs} {size : Nat} {c : Cfg} (h : a.derive size = .ok c) : c.legal = true := by
  obtain ⟨sch, -, rfl, -, hd, hr, h2, h3, h4, h5⟩ := derive_ok h
  have hw : (a.toCfg size sch).wf = true := by
    have e1 : (a.toCfg size sch).surfW = a.surfW := rfl
    have e2 : (a.toCfg size sch).surfH = a.surfH := rfl
    have e3 : (a.toCfg size sch).nframes = a.nframes := rfl
    simp only [Cfg.wf, Bool.and_eq_true, decide_eq_true_eq, e1, e2, e3]
    omega
  have hs : (!a.dimsFromSurface || sch == .qt) = true := by
    cases hx : a.dimsFromSurface <;> simp [hd, hx]
  show ((_ && decide (0 < a.fps)) && (!a.dimsFromSurface || sch == .qt) && a.ratioOk) = true
  rw [hw, hs, hr]
  simpa using Nat.pos_of_ne_zero h4

/-- ceil(log2(m)) is the least power that reaches m. -/
theorem ceilLog2_spec (m : Nat) : m ≤ 2 ^ ceilLog2 m ∧ ∀ e, m ≤ 2 ^ e → ceilLog2 m ≤ e := by
  unfold ceilLog2
  split
  · rename_i h
    exact ⟨by simpa using h, fun e _ => Nat.zero_le _⟩
  · rename_i h
    refine ⟨?_, ?_⟩
    · have := Nat.lt_log2_self (n := m - 1)
      omega
    · intro e he
      have : (m - 1).log2 < e := by
        rw [Nat.log2_lt (by omega)]; omega
      omega

/-- what the end of a STEP does -/
theorem closeStep_counted {s t : State} {n : Nat} (hf : t.fc = s.fc) (hc : t.cfg = s.cfg) (hcur : t.cursor + (t.wcur - t.so) = s.cursor + n) :
    s.counted n (closeStep t) := by
  unfold State.counted closeStep countFrame
  dsimp only
  have e : (wcommit t).dropWindow.fc + 1 = (wcommit t).dropWindow.cfg.nframes ↔ s.fc + 1 = s.cfg.nframes := by
    show t.fc + 1 = t.cfg.nframes ↔ _; rw [hf, hc]
  by_cases h : s.fc + 1 = s.cfg.nframes
  · rw [if_pos h, if_pos (e.mpr h)]
    refine ⟨rfl, rfl, rfl, ?_⟩
    show List.replicate t.cfg.pixCount false = _
    rw [hc]
  · rw [if_neg h, if_neg (fun k => h (e.mp k))]
    refine ⟨hcur, ?_, rfl⟩
    show t.fc + 1 = _
    rw [hf]

/-- What the end of a STEP leaves. -/
theorem closeStep_keeps (t : State) : (closeStep t).cfg = t.cfg ∧ (closeStep t).asset = t.asset ∧ (closeStep t).inited = t.inited ∧
    (closeStep t).busy = false ∧ (closeStep t).host = t.host ∧ (closeStep t).res = t.res ∧ (closeStep t).status = t.status ∧
    (closeStep t).surf = t.surf ∧ (closeStep t).assetSize = t.assetSize := by
  unfold closeStep countFrame
  dsimp only
  split <;> exact ⟨rfl, rfl, rfl, rfl, rfl, rfl, rfl, rfl, rfl⟩

/-- PIX stays unless the loop wraps. -/
theorem closeStep_pix {t : State} (h : t.fc + 1 ≠ t.cfg.nframes) : (closeStep t).pix = t.pix := by
  unfold closeStep countFrame
  dsimp only
  rw [if_neg (by exact h)]; rfl

/-- The frame decoder of the run-length schemes. -/
theorem wholeFrame_rl {s : State} (hq : s.cfg.scheme ≠ .qt) : wholeFrame s = Walk.ofExcept (rlFrame s) := by
  unfold wholeFrame
  rcases h : s.cfg.scheme with _ | _ | _
  · rfl
  · rfl
  · exact absurd h hq

/-- The frame decoder of the quadtree scheme. -/
theorem wholeFrame_qt {s : State} (hq : s.cfg.scheme = .qt) : wholeFrame s = qtFrame s := by
  unfold wholeFrame; rw [hq]

/-- A STEP that completes began in an initialised block with no STEP in progress. -/
theorem execStep_next {s t : State} (h : exec .step s = .next t) : s.inited = true ∧ s.busy = false := by
  simp only [exec, execStep, whenReady_next] at h
  refine ⟨h.1, ?_⟩
  cases hb : s.busy
  · rfl
  · rw [hb] at h; simp at h

/-- STEP past its guards. -/
theorem execStep_eq {s : State} (hi : s.inited = true) (hb : s.busy = false) : exec .step s =
    if s.phase = .fault then .next s else
       match wholeFrame (openStep s) with
       | .done t => .next (closeStep t)
       | .abort t => .next t
       | .stop f => .fault f := by
  simp only [exec, execStep]; rw [whenReady_of hi, hb]; rfl

theorem execQtnode_eq {s : State} (hi : s.inited = true) (hu : s.cfg.upb = 8) (x y w h d : Nat) :
    exec (.qtnode x y w h d) s = (qtNode (s.cfg.qtMaxDepth - d) ⟨x, y, w, h, d⟩ s).outcome := by
  simp only [exec, execQtnode]; rw [whenReady_of hi]
  simp [whenLegal, State.legalField, bpu_of_upb8 hu, qtVisit]

theorem execQtframe_eq {s : State} (hi : s.inited = true) (hq : s.cfg.scheme = .qt) : exec .qtframe s = (qtFrame s).outcome := by
  simp only [exec, execQtframe]; rw [whenReady_of hi]; simp [whenScheme, hq]

theorem execFill_eq {s : State} (hi : s.inited = true) (x y w h : Nat) : exec (.fill x y w h) s = outcome (fillRect x w h y s) := by
  simp only [exec, execFill]; rw [whenReady_of hi]

theorem execReadint_eq {s : State} (hi : s.inited = true) (hq : s.cfg.scheme ≠ .qt) :
    exec .readint s = .next ((readInt s).2.answer (readInt s).1) := by
  simp only [exec, execReadint]; rw [whenReady_of hi]; simp [whenScheme, hq]

theorem execWload_eq {s : State} (hi : s.inited = true) : exec .wload s = .next (wload s) := by
  simp only [exec, execWload]; rw [whenReady_of hi]

theorem execSetfg_eq {s : State} (hi : s.inited = true) (x y : Nat) : exec (.setfg x y) s = outcome (setFg x y s) := by
  simp only [exec, execSetfg]; rw [whenReady_of hi]

theorem execRlpixel_eq {s : State} (hi : s.inited = true) (hq : s.cfg.scheme ≠ .qt) (j : Nat) (c : Bool) :
    exec (.rlpixel j c) s = outcome (rlPixel j c s) := by
  simp only [exec, execRlpixel]; rw [whenReady_of hi]; simp [whenScheme, hq]

theorem execRlframe_eq {s : State} (hi : s.inited = true) (hq : s.cfg.scheme ≠ .qt) :
    exec .rlframe s = outcome (rlFrame s) := by
  simp only [exec, execRlframe]; rw [whenReady_of hi]; simp [whenScheme, hq]

/-- a run token is runToken -/
theorem exec_run {i : Instr} {n : Nat} (s : State) (hw : i.wf = true) (hr : i.runLength? = some n) :
    ∃ sch, i.scheme? = some sch ∧ sch ≠ .qt ∧ exec i s = runToken sch (encode i).length n s := by
  cases i <;> simp only [Instr.runLength?, Option.some.injEq, reduceCtorEq] at hr <;> subst hr
  case runE8 n =>
    refine ⟨.escRl, rfl, by decide, ?_⟩
    simp only [Instr.wf, bne_iff_ne, ne_eq] at hw
    simp only [exec, execRunE8, if_neg hw, encode, toBits_length]
  all_goals exact ⟨_, rfl, by decide, by simp [exec, encode, execRunE24, execRunT2, execRunT4, execRunT8, execRunT16]⟩

/-- A run token that completes. -/
theorem exec_run_next {i : Instr} {n : Nat} {s t : State} (hr : i.runLength? = some n) (h : exec i s = .next t) :
    s.inited = true ∧ s.cfg.scheme ≠ .qt ∧ i.wf = true ∧ applyRun n (s.consume (encode i).length) = .ok t := by
  have hw : i.wf = true := by
    cases i <;> try rfl
    case runE8 n =>
      simp only [exec, execRunE8] at h
      split at h
      · cases h
      · simpa [Instr.wf] using by assumption
  obtain ⟨sch, h1, h2, h3⟩ := exec_run s hw hr
  rw [h3] at h
  simp only [runToken, whenReady_next, whenScheme_next, outcome_next, beq_iff_eq] at h
  exact ⟨h.1, by rw [h.2.1]; exact h2, hw, h.2.2⟩

/-- A run token under its scheme. -/
theorem exec_run_eq {i : Instr} {n : Nat} {s : State} (hi : s.inited = true) (hw : i.wf = true) (hr : i.runLength? = some n)
    (hs : i.scheme? = some s.cfg.scheme) : exec i s = outcome (applyRun n (s.consume (encode i).length)) := by
  obtain ⟨sch, h1, h2, h3⟩ := exec_run s hw hr
  rw [h1] at hs
  simp only [Option.some.injEq] at hs
  rw [h3, runToken, whenReady_of hi, hs]; simp

/-- Between steps the machine takes an act of the host. -/
theorem step_idle {s : State} (hb : s.busy = false) : step s = hostStep s := by
  unfold Machine.step; rw [if_neg (by simp [hb])]

/-- A frame that is decoded is closed. -/
theorem step_done {s : State} (hb : s.busy = true) (hd : s.frameDone = true) : step s = .next (closeStep s) := by
  unfold Machine.step; rw [if_pos hb, if_pos hd]

end Sys2Proof.Machine
end

