-- ==== Sys2Proof/Tests/Slice0.lean ====
section
/-! SUPPORT. The package's own tests. The expected results are the vectors V<n> of 95_test_vectors.md or are worked out by hand from the
rule named; a witness shows values that meet the hypotheses of the obligation it is named after. -/

namespace Sys2Proof.Tests

open Sys2Proof.Machine

/-! ### Small states -/

/-- A configuration: `w` by `h` on a surface of `sw` by `sh`. -/
def cfgOf (sch : Scheme) (w h sw sh nframes depth size : Nat) : Cfg where
  w := w
  h := h
  nframes := nframes
  fps := 1
  scheme := sch
  surfW := sw
  surfH := sh
  surfFmt := .packed1
  fgIndex := 0xFF#8
  dimsFromSurface := false
  round := false
  roundNum := 1
  roundDen := 1
  qtMaxDepth := depth
  qtSkipEmpty := false
  assetSize := size
  cw := 32

/-- The block after INIT, on an asset that begins with these bytes and has the size of the configuration. -/
def ready (c : Cfg) (bytes : List Byte) : State :=
  { State.reset with inited := true, cfg := c, pix := clearedPix c, asset := memOfBytes 0 bytes, assetSize := c.assetSize }

/-- A block whose window is these bytes, its working cursor at `p`. -/
def window (sch : Scheme) (bytes : List Byte) (p : Nat) : State :=
  { ready (cfgOf sch 4 2 8 2 10 2 100) [] with wbuf := bytes, wcur := p }

/-- Whether the outcome is a next state of which `p` holds. -/
def after (r : Out) (p : State → Bool) : Bool :=
  match r with
  | .next t => p t
  | .fault _ => false
  | .refused _ => false

/-- The bytes `0 .. n-1` of surface row `y`. -/
def row (t : State) (y n : Nat) : List Byte := (List.range n).map (t.surfByte y)

/-! ### WellFormed -/

theorem test_wf_refuses_escape : Instr.wf (.runE8 0xFF#8) = false := by decide

theorem test_wf_accepts_254 : Instr.wf (.runE8 254#8) = true ∧ Instr.wf (.runE24 0xFFFF#16) = true := by decide

/-! ### Decoding: words written out from 30_encoding.md R92 to R94 -/

/-- R92: byte `FE`. -/
theorem test_decode_runE8 : decode .escRl [true, true, true, true, true, true, true, false] = .ok (.runE8 254#8, []) := by decide

/-- R92: bytes `FF 12 34`, big-endian. -/
theorem test_decode_runE24 :
    decode .escRl [true, true, true, true, true, true, true, true, false, false, false, true, false, false, true, false,
      false, false, true, true, false, true, false, false] = .ok (.runE24 0x1234#16, []) := by decide

/-- R93: `00 10`. -/
theorem test_decode_runT2 : decode .tagRl [false, false, true, false] = .ok (.runT2 2#2, []) := by decide

/-- R93: `01 1000`. -/
theorem test_decode_runT4 : decode .tagRl [false, true, true, false, false, false] = .ok (.runT4 8#4, []) := by decide

/-- R93: `10 00010000` (V29). -/
theorem test_decode_runT8 :
    decode .tagRl [true, false, false, false, false, true, false, false, false, false] = .ok (.runT8 16#8, []) := by decide

/-- R93: `11 0000000100000000` (V31). -/
theorem test_decode_runT16 :
    decode .tagRl [true, true, false, false, false, false, false, false, false, true, false, false, false, false, false, false,
      false, false] = .ok (.runT16 256#16, []) := by decide

/-- R94: `1`, `0 0`, `0 1`. -/
theorem test_decode_quadtree :
    decode .qt [true, false] = .ok (.qsplit, [false]) ∧ decode .qt [false, false, true] = .ok (.qleafBg, [true]) ∧
    decode .qt [false, true] = .ok (.qleafFg, []) := by decide

/-- R97: bits that end inside a token do not decode. -/
theorem test_decode_truncated :
    decode .escRl [true, true, true, true, true, true, true, true, false] = .error (.truncated .escRl) ∧
    decode .tagRl [true, true, false] = .error (.truncated .tagRl) ∧ decode .qt [false] = .error (.truncated .qt) := by decide

/-- The table's numbers: the first stream bit is the most significant (log 3). -/
theorem test_table_words :
    decodeTableWord 8 254 = some (.runE8 254#8) ∧ decodeTableWord 24 0xFF0100 = some (.runE24 256#16) ∧
    decodeTableWord 4 3 = some (.runT2 3#2) ∧ decodeTableWord 6 0x18 = some (.runT4 8#4) ∧
    decodeTableWord 10 0x210 = some (.runT8 16#8) ∧ decodeTableWord 18 0x30100 = some (.runT16 256#16) ∧
    decodeTableWord 1 1 = some .qsplit ∧ decodeTableWord 2 0 = some .qleafBg ∧ decodeTableWord 2 1 = some .qleafFg := by decide

/-- A placed token is the next instruction: RUN.E8 5 as the first token of a frame counts five pixels. -/
theorem test_placed_token_runs :
    after (step (State.reset.withFetchWord 8 5)) (fun t => t.run == 5 && t.pcnt == 5 && t.wcur == 1 && t.cls) = true := by decide

/-! ### Cursor primitives (95_test_vectors.md section 2.1) -/

/-- V10, the first and the last bit of `A5`. -/
theorem test_bit :
    after (exec .bit (window .qt [0xA5#8] 0)) (fun t => t.res == 1 && t.wcur == 1) = true ∧
    after (exec .bit (window .qt [0xA5#8] 6)) (fun t => t.res == 0 && t.wcur == 7) = true := by decide

/-- V17: the first bit past the window records OVR. -/
theorem test_bit_overrun :
    after (exec .bit (window .tagRl [0x80#8] 8)) (fun t => t.status == 1#3 && t.wcur == 9) = true := by decide

/-- V11, and the straddling example of 40_bitcursor.md R122. -/
theorem test_hn :
    after (exec .hn (window .tagRl [0xB4#8, 0x6F#8, 0x9C#8] 2)) (fun t => t.res == 3 && t.wcur == 4) = true ∧
    after (exec .hn (window .tagRl [0x01#8, 0x80#8] 7)) (fun t => t.res == 3 && t.wcur == 9) = true := by decide

/-- V12, and the example of 40_bitcursor.md R123. -/
theorem test_nyb :
    after (exec .nyb (window .tagRl [0xB4#8, 0x6F#8, 0x9C#8] 4)) (fun t => t.res == 4 && t.wcur == 8) = true ∧
    after (exec .nyb (window .tagRl [0x3C#8] 2)) (fun t => t.res == 15 && t.wcur == 6) = true := by decide

/-- V14: a byte across a boundary. -/
theorem test_byte_unaligned :
    after (exec .byte (window .tagRl [0xB4#8, 0x6F#8, 0x9C#8] 3)) (fun t => t.res == 0xA3 && t.wcur == 11) = true := by decide

/-- Section 2.1 under the byte unit, and V19. -/
theorem test_byte_unit :
    after (exec .byte (window .escRl [0xB4#8, 0x6F#8, 0x9C#8] 0)) (fun t => t.res == 0xB4 && t.wcur == 1) = true ∧
    exec .nyb (window .escRl [0xB4#8] 0) = .refused .illegalUnit := ⟨by decide, rfl⟩

/-- V16, and SHORT at 1 under the byte unit. -/
theorem test_short :
    after (exec .short (window .qt [0xB4#8, 0x6F#8, 0x9C#8] 5)) (fun t => t.res == 0x8DF3 && t.wcur == 21) = true ∧
    after (exec .short (window .escRl [0xB4#8, 0x6F#8, 0x9C#8] 1)) (fun t => t.res == 0x6F9C && t.wcur == 3) = true := by decide

/-! ### Integer codec (section 2.2) -/

/-- V25 and V36: the shortest token, and one whose tag straddles a byte boundary. -/
theorem test_tagv :
    after (exec .tagv (window .tagRl [0x30#8] 0)) (fun t => t.res == 3 && t.wcur == 4) = true ∧
    after (exec .tagv (window .tagRl [0x01#8, 0x80#8, 0x80#8, 0x00#8] 7)) (fun t => t.res == 256 && t.wcur == 25) = true := by
  decide

/-- V28 and V30. -/
theorem test_tagv_widths :
    after (exec .tagv (window .tagRl [0x7C#8] 0)) (fun t => t.res == 15 && t.wcur == 6) = true ∧
    after (exec .tagv (window .tagRl [0xBF#8, 0xC0#8] 0)) (fun t => t.res == 255 && t.wcur == 10) = true := by decide

/-- V21 and V22. -/
theorem test_escv :
    after (exec .escv (window .escRl [0xFE#8] 0)) (fun t => t.res == 254 && t.wcur == 1) = true ∧
    after (exec .escv (window .escRl [0xFF#8, 0x00#8, 0xFF#8] 0)) (fun t => t.res == 255 && t.wcur == 3) = true := by decide

/-- V38 and V33: redundant long forms. -/
theorem test_readint :
    after (exec .readint (window .escRl [0xFF#8, 0x00#8, 0x03#8] 0)) (fun t => t.res == 3 && t.wcur == 3) = true ∧
    after (exec .readint (window .tagRl [0xC0#8, 0x00#8, 0xC0#8] 0)) (fun t => t.res == 3 && t.wcur == 18) = true := by decide

/-! ### Chunk streamer (section 2.3) -/

/-- The block of section 2.3: NPIX 16, ASSET_SIZE 100. -/
def streamer (sch : Scheme) (cursor : Nat) : State :=
  { ready (cfgOf sch 4 4 8 4 10 2 100) [0x11#8, 0x22#8, 0x33#8, 0x44#8, 0x55#8, 0x66#8, 0x77#8] with cursor := cursor }

/-- V41, with the bytes of the window. -/
theorem test_wload :
    after (exec .wload (streamer .tagRl 43)) (fun t => t.woff == 5 && t.so == 3 && t.wlen == 16 && t.wcur == 3 &&
      t.wbuf.take 3 == [0x66#8, 0x77#8, 0x00#8]) = true := by decide

/-- V44, V46 and V48: the clamp. -/
theorem test_wload_clamp :
    after (exec .wload (streamer .escRl 84)) (fun t => t.wlen == 15) = true ∧
    after (exec .wload (streamer .escRl 99)) (fun t => t.wlen == 0) = true ∧
    after (exec .wload (streamer .qt 1047)) (fun t => t.woff == 130 && t.so == 7 && t.wlen == 0 && t.wcur == 7) = true := by decide

/-- V49. -/
theorem test_wcommit :
    after (exec .wcommit { streamer .tagRl 43 with so := 3, wcur := 29 }) (fun t => t.cursor == 69) = true := by decide

/-- 42_chunk_streamer.md R162: the absolute cursor stays. -/
theorem test_wrelease :
    after (exec .wrelease (streamer .tagRl 43)) (fun t => t.cursor == 43 && t.fc == 0) = true := by decide

/-! ### Run-length decoder (section 2.4): W 4, H 2 on a surface of 8 by 2 -/

def rl (sch : Scheme) (bytes : List Byte) : State :=
  ready (cfgOf sch 4 2 8 2 10 2 bytes.length) bytes

/-- PIX as a string of bits from its first entry. -/
def pixOf (t : State) : List Nat := t.pix.map Bool.toNat

/-- V50: RLFRAME on the window of `03 02 03`. -/
theorem test_rlframe :
    after (exec .rlframe { rl .escRl [] with wbuf := [0x03#8, 0x02#8, 0x03#8] })
      (fun t => pixOf t == [0, 0, 0, 1, 1, 0, 0, 0] && row t 0 1 == [0x04#8] && row t 1 1 == [0x20#8] && t.wcur == 3) = true := by
  decide

/-- V50 on a surface whose columns 0, 1, 6 and 7 of row 0 the host has set: they share their byte with the canvas and stay
(43_run_length_decoder.md R188). -/
theorem test_letterbox :
    after (exec .rlframe { rl .escRl [] with wbuf := [0x03#8, 0x02#8, 0x03#8], surf := [(surfKey 0 0, 0xC3#8)] })
      (fun t => row t 0 1 == [0xC7#8] && [1, 4, 5, 7].map (t.surfPixel · 0) == [1, 0, 1, 1]) = true := by
  decide

/-- V53: a run that overshoots. -/
theorem test_rlframe_rlx :
    after (exec .rlframe { rl .escRl [] with wbuf := [0x03#8, 0xC8#8, 0x08#8] })
      (fun t => pixOf t == [0, 0, 0, 1, 1, 1, 1, 1] && row t 1 1 == [0x3C#8] && t.status == 2#3 && t.wcur == 2) = true := by decide

/-- 43_run_length_decoder.md R182: a changed pixel that was true becomes false and is not written. -/
theorem test_rlpixel :
    after (exec (.rlpixel 4 true) (rl .escRl [])) (fun t => pixOf t == [0, 0, 0, 0, 1, 0, 0, 0] && row t 1 1 == [0x20#8]) = true ∧
    after (exec (.rlpixel 4 true) { rl .escRl [] with pix := [false, false, false, false, true, false, false, false] })
      (fun t => pixOf t == [0, 0, 0, 0, 0, 0, 0, 0] && row t 1 1 == [0x00#8]) = true := by decide

/-- An unchanged pixel that is true is written again (43_run_length_decoder.md R182). -/
theorem test_rlpixel_unchanged :
    after (exec (.rlpixel 1 false) { rl .tagRl [] with pix := [false, true, false, false, false, false, false, false] })
      (fun t => pixOf t == [0, 1, 0, 0, 0, 0, 0, 0] && row t 0 1 == [0x10#8]) = true := by decide

/-- V50's second token: RUN.E8 2 of the changed class after three pixels. -/
theorem test_runE8 :
    after (exec (.runE8 2#8) { rl .escRl [] with pcnt := 3, cls := true, wcur := 1 })
      (fun t => pixOf t == [0, 0, 0, 1, 1, 0, 0, 0] && t.pcnt == 5 && !t.cls && t.wcur == 2 && row t 1 1 == [0x20#8]) = true := by
  decide

/-- V1's third token on the small canvas: the excess of RUN.E24 256 is dropped. -/
theorem test_runE24 :
    after (exec (.runE24 256#16) (rl .escRl [])) (fun t => t.pcnt == 8 && t.wcur == 3 && t.status == 2#3 && t.run == 256) = true := by
  decide

/-- V58's first token. -/
theorem test_runT2 :
    after (exec (.runT2 3#2) (rl .tagRl [])) (fun t => t.pcnt == 3 && t.wcur == 4 && t.cls && pixOf t == [0, 0, 0, 0, 0, 0, 0, 0]) = true := by
  decide

/-- P2, frame 1: RUN.T4 8 of the changed class. -/
theorem test_runT4 :
    after (exec (.runT4 8#4) { rl .tagRl [] with cls := true, wcur := 8 })
      (fun t => t.pcnt == 8 && t.wcur == 14 && row t 0 1 == [0x3C#8] && t.status == 0#3) = true := by decide

theorem test_runT8 :
    after (exec (.runT8 5#8) { rl .tagRl [] with cls := true })
      (fun t => t.pcnt == 5 && t.wcur == 10 && pixOf t == [1, 1, 1, 1, 1, 0, 0, 0]) = true := by decide

theorem test_runT16 :
    after (exec (.runT16 0#16) { rl .tagRl [] with cls := true })
      (fun t => t.pcnt == 0 && t.wcur == 18 && !t.cls && pixOf t == [0, 0, 0, 0, 0, 0, 0, 0]) = true := by decide

/-! ### Quadtree decoder (section 2.5) -/

def qt (w h depth : Nat) (bytes : List Byte) : State :=
  { ready (cfgOf .qt w h 8 h 10 depth 100) [] with wbuf := bytes }

/-- V4: split, then background, foreground, background, foreground. -/
theorem test_qtframe :
    after (exec .qtframe (qt 4 4 2 [0x88#8, 0x80#8]))
      (fun t => t.wcur == 9 && (List.range 4).map (t.surfByte · 0) == [0x0C#8, 0x0C#8, 0x0C#8, 0x0C#8]) = true := by decide

/-- V70: a fill done before QTO stays. -/
theorem test_qtframe_qto :
    after (exec .qtframe (qt 4 4 2 [0xB8#8]))
      (fun t => t.phase == .fault && t.status == 4#3 && t.cursor == 0 &&
        (List.range 4).map (t.surfByte · 0) == [0x30#8, 0x30#8, 0x00#8, 0x00#8]) = true := by decide

/-- V63: odd sides. -/
theorem test_qtnode :
    after (exec (.qtnode 0 0 5 3 0) (qt 5 3 3 [0xA0#8, 0x80#8]))
      (fun t => t.wcur == 9 && (List.range 3).map (t.surfByte · 0) == [0x70#8, 0x70#8, 0x0C#8]) = true := by decide

/-- V67: foreground leaves of zero area write nothing. -/
theorem test_qtnode_empty :
    after (exec (.qtnode 0 0 2 1 0) (qt 2 1 1 [0x8A#8, 0x80#8])) (fun t => t.wcur == 9 && row t 0 1 == [0x08#8]) = true := by decide

/-- 44_quadtree_decoder.md R205: `FILL(2, 0, 2, 2)`. -/
theorem test_fill :
    after (exec (.fill 2 0 2 2) (qt 4 4 2 []))
      (fun t => (List.range 4).map (t.surfByte · 0) == [0x0C#8, 0x0C#8, 0x00#8, 0x00#8]) = true := by decide

/-- The split geometry table of section 2.5, `(0,0,5,3)`: top-left is on top. -/
theorem test_qsplit :
    after (exec .qsplit { qt 5 3 3 [] with qstk := [⟨0, 0, 5, 3, 0⟩] })
      (fun t => t.qstk == [⟨0, 0, 3, 2, 1⟩, ⟨3, 0, 2, 2, 1⟩, ⟨0, 2, 3, 1, 1⟩, ⟨3, 2, 2, 1, 1⟩] && t.wcur == 1) = true := by decide

/-- V68: a split at the depth limit. -/
theorem test_qsplit_qto :
    after (exec .qsplit { qt 1 1 0 [] with qstk := [⟨0, 0, 1, 1, 0⟩] }) (fun t => t.phase == .fault && t.status == 4#3) = true := by
  decide

theorem test_qleafBg :
    after (exec .qleafBg { qt 1 1 0 [] with qstk := [⟨0, 0, 1, 1, 0⟩] }) (fun t => t.qstk == [] && t.wcur == 2 && t.surf == []) = true := by
  decide

/-- V61. -/
theorem test_qleafFg :
    after (exec .qleafFg { qt 1 1 0 [] with qstk := [⟨0, 0, 1, 1, 0⟩] })
      (fun t => t.qstk == [] && t.wcur == 2 && row t 0 1 == [0x10#8]) = true := by decide

/-! ### Pixel sink (section 2.6) -/

/-- V77: logical neighbours in different bytes. -/
theorem test_setfg_packed :
    after (exec (.setfg 2 0) (ready (cfgOf .qt 6 1 16 1 10 3 100) [])) (fun t => row t 0 2 == [0x01#8, 0x00#8]) = true ∧
    after (exec (.setfg 3 0) (ready (cfgOf .qt 6 1 16 1 10 3 100) [])) (fun t => row t 0 2 == [0x00#8, 0x80#8]) = true := by decide

/-- V78. -/
theorem test_setfg_indexed :
    after (exec (.setfg 1 2) (ready { cfgOf .qt 2 3 4 3 10 2 100 with surfFmt := .indexed8 } []))
      (fun t => row t 2 4 == [0x00#8, 0x00#8, 0xFF#8, 0x00#8]) = true := by decide

/-! ### Player control (section 2.7) -/

/-- A quadtree build on a surface of 8 by 6, as P3. -/
def args : InitArgs :=
  { w := 4, h := 4, nframes := 2, fps := 1, schemeCode := 2, fgIndex := 0xFF#8, dimsFromSurface := false, round := false,
    roundNum := 1, roundDen := 1, surfW := 8, surfH := 6, surfFmtCode := 0#1 }

/-- V80 and V85, with the derived values of P3. -/
theorem test_init :
    after (exec (.init args) { qt 1 1 0 [] with phase := .fault, status := 7#3, cursor := 9, fc := 3 })
      (fun t => t.cursor == 0 && t.fc == 0 && t.status == 0#3 && t.phase == .idle && t.cfg.qtMaxDepth == 2 && t.cfg.offX == 2 &&
        t.cfg.offY == 1 && t.cfg.upb == 8 && t.cfg.npix == 16) = true := by decide

/-- 46_player_control.md R241: UPB 2, and a canvas larger than the surface; FPS 0, which 10_state.md R32 does not call legal (log 12). -/
theorem test_init_refused :
    exec (.init { args with upb := some 2 }) State.reset = .refused (.illFormedConfig .badUnit) ∧
    exec (.init { args with w := 9 }) State.reset = .refused (.illFormedConfig .surfaceTooSmall) ∧
    exec (.init { args with fps := 0 }) State.reset = .refused (.illFormedConfig .noRate) := ⟨rfl, rfl, rfl⟩

/-- 20_memory.md R63: a second INIT reads the same size; 10_state.md R32: format code 1 is INDEXED8; 00_scope.md R11: CW is 32 unless
given. -/
theorem test_init_again :
    after (exec (.init { args with surfFmtCode := 1#1 }) (ready (cfgOf .qt 1 1 8 1 10 0 5) []))
      (fun t => t.cfg.assetSize == 5 && t.assetSize == 5 && t.cfg.surfFmt == .indexed8 && t.cfg.cw == 32) = true := by decide

/-- The codes of 92_eei_decisions.md D21; a scheme's and a format's code is read back as it. -/
theorem test_codes :
    [Scheme.escRl, .tagRl, .qt].map Scheme.code = [0#2, 1#2, 2#2] ∧ [SurfFmt.packed1, .indexed8].map SurfFmt.code = [0#1, 1#1] ∧
    [Phase.idle, .streaming, .fault].map Phase.code = [0, 1, 2] ∧
    (∀ c, schemeOfCode (Scheme.code c).toNat = some c) ∧ ∀ f, surfFmtOfCode (SurfFmt.code f) = f :=
  ⟨rfl, rfl, rfl, fun c => by cases c <;> rfl, fun f => by cases f <;> rfl⟩

/-- P1, the first STEP. -/
theorem test_step :
    after (exec .step (ready (cfgOf .escRl 4 2 8 2 3 2 7) [0x03#8, 0x02#8, 0x03#8, 0x00#8, 0x08#8, 0x08#8, 0x00#8]))
      (fun t => t.cursor == 3 && t.fc == 1 && t.phase == .streaming && pixOf t == [0, 0, 0, 1, 1, 0, 0, 0] &&
        row t 0 1 == [0x04#8] && row t 1 1 == [0x20#8] && t.status == 0#3) = true := by decide

/-- P3, the second STEP: the carried bit, and the wrap. -/
theorem test_step_wrap :
    after (exec .step { ready (cfgOf .qt 4 4 8 6 2 2 5) [0x88#8, 0xE8#8, 0x29#8, 0x14#8, 0x00#8] with
        cursor := 9, fc := 1, phase := .streaming })
      (fun t => t.cursor == 0 && t.fc == 0 && t.phase == .idle &&
        (List.range 6).map (t.surfByte · 0) == [0x00#8, 0x2C#8, 0x1C#8, 0x04#8, 0x08#8, 0x00#8]) = true := by decide

/-- V82: RESET leaves STATUS. -/
theorem test_reset :
    after (exec .reset { rl .escRl [] with
        cursor := 5, fc := 2, status := 2#3, phase := .streaming, pix := [true, true, true, false, false, true, true, true] })
      (fun t => t.cursor == 0 && t.fc == 0 && t.status == 2#3 && t.phase == .idle && pixOf t == [0, 0, 0, 0, 0, 0, 0, 0]) = true := by
  decide

/-- log 2: at reset, with no act of the host pending, the block idles; a STEP before INIT has no meaning (10_state.md R36). -/
theorem test_idle_at_reset :
    step State.reset = .next State.reset ∧ step { State.reset with host := [.step] } = .refused .beforeInit := ⟨rfl, rfl⟩

/-! ### Witnesses: values that meet the hypotheses of each obligation, at the boundaries of its clauses -/

theorem witness_DecodeInvertsEncode :
    (Instr.wf (.runE8 254#8) = true ∧ (Instr.runE8 254#8).scheme? = some .escRl) ∧
    (Instr.wf (.runT16 0xFFFF#16) = true ∧ (Instr.runT16 0xFFFF#16).scheme? = some .tagRl) ∧
    (Instr.wf .qleafFg = true ∧ Instr.qleafFg.scheme? = some .qt) := by decide

theorem witness_EncodeInvertsDecode :
    decode .tagRl [false, false, true, true, true] = .ok (.runT2 3#2, [true]) := by decide

theorem witness_EveryBitPatternDecodes :
    24 ≤ (List.replicate 24 true).length ∧ 18 ≤ (List.replicate 18 true).length ∧ 2 ≤ [false, true].length := by decide

theorem witness_BitReadsOneBit :
    ((window .qt [0xA5#8] 7).inited = true ∧ (window .qt [0xA5#8] 7).cfg.upb = 8 ∧
      (window .qt [0xA5#8] 7).wcur / 8 < (window .qt [0xA5#8] 7).wlen) ∧
    ((window .qt [0xA5#8] 8).inited = true ∧ (window .qt [0xA5#8] 8).cfg.upb = 8 ∧
      (window .qt [0xA5#8] 8).wlen ≤ (window .qt [0xA5#8] 8).wcur / 8) ∧
    ((window .escRl [] 0).inited = true ∧ (window .escRl [] 0).cfg.upb = 1) := by decide

theorem witness_HnIsTwoBits :
    ((window .tagRl [0x01#8, 0x80#8] 7).inited = true ∧ (window .tagRl [0x01#8, 0x80#8] 7).cfg.upb = 8) ∧
    ((window .escRl [] 0).inited = true ∧ (window .escRl [] 0).cfg.upb = 1) := by decide

theorem witness_NybIsTwoHns :
    ((window .tagRl [0x0F#8] 6).inited = true ∧ (window .tagRl [0x0F#8] 6).cfg.upb = 8) ∧
    ((window .escRl [] 0).inited = true ∧ (window .escRl [] 0).cfg.upb = 1) := by decide

theorem witness_ByteIsTwoNybs :
    ((window .tagRl [0xB4#8] 0).inited = true ∧ (window .tagRl [0xB4#8] 0).cfg.upb = 8) ∧
    ((window .escRl [0xB4#8] 0).bitPos % 8 = 0 ∧ (window .escRl [0xB4#8] 0).bitPos / 8 < (window .escRl [0xB4#8] 0).wlen) ∧
    ((window .qt [0x12#8, 0x34#8] 7).bitPos % 8 ≠ 0 ∧
      (window .qt [0x12#8, 0x34#8] 7).bitPos / 8 + 1 < (window .qt [0x12#8, 0x34#8] 7).wlen) ∧
    ((window .escRl [0xB4#8] 1).cfg.upb = 1 ∧ (window .escRl [0xB4#8] 1).wlen ≤ (window .escRl [0xB4#8] 1).wcur) := by decide

theorem witness_ShortIsTwoBytes : (window .escRl [0xB4#8, 0x6F#8] 0).inited = true := by decide

theorem witness_FieldIsSumOfStreamBits :
    (window .qt [0xB4#8, 0x6F#8] 3).bitPos + 13 ≤ 8 * (window .qt [0xB4#8, 0x6F#8] 3).wlen := by decide

/-- One state for each tag, and one under the byte unit. -/
theorem witness_TagvFollowsItsTag :
    (window .tagRl [0x00#8] 0).inited = true ∧ (window .tagRl [0x00#8] 0).cfg.upb = 8 ∧
    after (exec .hn (window .tagRl [0x00#8] 0)) (fun t => t.res == 0) = true ∧
    after (exec .hn (window .tagRl [0x40#8] 0)) (fun t => t.res == 1) = true ∧
    after (exec .hn (window .tagRl [0x80#8] 0)) (fun t => t.res == 2) = true ∧
    after (exec .hn (window .tagRl [0xC0#8] 0)) (fun t => t.res == 3) = true ∧
    (window .escRl [] 0).inited = true ∧ (window .escRl [] 0).cfg.upb = 1 := by decide

theorem witness_EscvFollowsItsFirstByte :
    (window .escRl [0xFE#8] 0).inited = true ∧
    after (exec .byte (window .escRl [0xFE#8] 0)) (fun t => t.res == 254) = true ∧
    after (exec .byte (window .escRl [0xFF#8] 0)) (fun t => t.res == 255) = true := by decide

theorem witness_ReadintIsTheSchemesDecoder :
    (rl .escRl []).inited = true ∧ (rl .escRl []).cfg.scheme = .escRl ∧ (rl .tagRl []).cfg.scheme = .tagRl ∧
    (qt 1 1 0 []).inited = true ∧ (qt 1 1 0 []).cfg.scheme = .qt := by decide

/-- A shortest form and a redundant one. -/
theorem witness_ReadintRoundTrip :
    ((window .escRl [0xFF#8, 0x00#8, 0xFF#8] 0).inited = true ∧ Instr.wf (.runE24 255#16) = true ∧
      (Instr.runE24 255#16).scheme? = some (window .escRl [0xFF#8, 0x00#8, 0xFF#8] 0).cfg.scheme ∧
      shortestRun .escRl 255 = some (.runE24 255#16) ∧
      (window .escRl [0xFF#8, 0x00#8, 0xFF#8] 0).holds (encode (.runE24 255#16))) ∧
    ((Instr.runT8 3#8).runLength? = some 3 ∧ (Instr.runT8 3#8).scheme? = some (window .tagRl [0x80#8, 0xC0#8] 0).cfg.scheme ∧
      (window .tagRl [0x80#8, 0xC0#8] 0).holds (encode (.runT8 3#8))) := by decide

/-- With a window of 15 bytes, its last byte included, and with an empty one. -/
theorem witness_WloadLoadsClampedWindow :
    (streamer .escRl 84).inited = true ∧
    after (exec .wload (streamer .escRl 84)) (fun t => decide (14 < t.wlen) && decide (0 < t.wlen)) = true ∧
    after (exec .wload (streamer .escRl 99)) (fun t => t.wlen == 0) = true ∧ (streamer .escRl 99).inWidth = true := by decide

theorem witness_WindowIsTheAssetAtTheCursor :
    (streamer .tagRl 43).inited = true ∧ exec .wload (streamer .tagRl 43) = .next (wload (streamer .tagRl 43)) ∧
    127 < 8 * (wload (streamer .tagRl 43)).wlen := ⟨rfl, rfl, by decide⟩

theorem witness_WcommitAdvancesCursor : (streamer .tagRl 43).inited = true := rfl

theorem witness_WreleaseFreesOnlyTheWindow : (streamer .tagRl 43).inited = true := rfl

theorem witness_SetfgSetsOneBit :
    (rl .escRl []).inited = true ∧ (rl .escRl []).cfg.wf = true ∧ (rl .escRl []).cfg.surfFmt = .packed1 ∧
    3 < (rl .escRl []).cfg.w ∧ 1 < (rl .escRl []).cfg.h := by decide

/-- An INDEXED8 surface of 4 by 3 with a canvas of 2 by 3. -/
def indexed : State := ready { cfgOf .qt 2 3 4 3 10 2 100 with surfFmt := .indexed8 } []

theorem witness_SetfgStoresTheIndex :
    indexed.inited = true ∧ indexed.cfg.wf = true ∧ indexed.cfg.surfFmt = .indexed8 ∧ Mem.wf indexed.surf = true ∧
    1 < indexed.cfg.w ∧ 2 < indexed.cfg.h := by decide

theorem witness_SetfgShowsOnePixelOnce :
    Mem.wf (rl .escRl []).surf = true ∧ ∃ t, exec (.setfg 3 1) (rl .escRl []) = .next t := ⟨rfl, _, rfl⟩

/-- A run that fits exactly and one that is one pixel too long. -/
theorem witness_RunTokenCountsAndFlips :
    (rl .escRl []).inited = true ∧ (rl .escRl []).cfg.wf = true ∧ (rl .escRl []).pix.length = (rl .escRl []).cfg.npix ∧
    Instr.wf (.runE8 8#8) = true ∧ (Instr.runE8 8#8).scheme? = some (rl .escRl []).cfg.scheme ∧
    (Instr.runE8 8#8).runLength? = some 8 ∧ ¬ (rl .escRl []).cfg.npix - (rl .escRl []).pcnt < 8 ∧
    (Instr.runE8 9#8).runLength? = some 9 ∧ (rl .escRl []).cfg.npix - (rl .escRl []).pcnt < 9 := by decide

theorem witness_RunTokenTogglesItsPixels :
    (Instr.runE8 9#8).runLength? = some 9 ∧ ∃ t, exec (.runE8 9#8) { rl .escRl [] with cls := true } = .next t := ⟨rfl, _, rfl⟩

theorem witness_RunTokenShowsItsPixels :
    (Instr.runT4 8#4).runLength? = some 8 ∧ Mem.wf (rl .tagRl []).surf = true ∧ (rl .tagRl []).cfg.wf = true ∧
    ∃ t, exec (.runT4 8#4) { rl .tagRl [] with cls := true } = .next t := ⟨rfl, rfl, rfl, _, rfl⟩

theorem witness_ZeroRunOnlyFlips :
    (rl .tagRl []).inited = true ∧ (Instr.runT16 0#16).scheme? = some (rl .tagRl []).cfg.scheme ∧
    (Instr.runT16 0#16).runLength? = some 0 := by decide

/-- The last entry, false, under a changed token (shown) and under an unchanged one (not shown). -/
theorem witness_RlpixelTogglesThenShows :
    (rl .escRl []).inited = true ∧ (rl .escRl []).cfg.scheme ≠ .qt ∧ (rl .escRl []).cfg.wf = true ∧
    (rl .escRl []).pix.length = (rl .escRl []).cfg.npix ∧ (rl .escRl []).pix[7]? = some false ∧
    xor true false = true ∧ xor false false = false := by decide

theorem witness_ToggleTwiceRestores :
    ∃ t u, exec (.rlpixel 7 true) (rl .escRl []) = .next t ∧ exec (.rlpixel 7 true) t = .next u := ⟨_, _, rfl, rfl⟩

/-- V50's frame in the window. -/
theorem witness_RlframeDecodesOneFrame :
    (window .escRl [0x03#8, 0x02#8, 0x03#8] 0).inited = true ∧ (window .escRl [0x03#8, 0x02#8, 0x03#8] 0).cfg.wf = true ∧
    (window .escRl [0x03#8, 0x02#8, 0x03#8] 0).cfg.scheme ≠ .qt ∧
    (window .escRl [0x03#8, 0x02#8, 0x03#8] 0).pix.length = (window .escRl [0x03#8, 0x02#8, 0x03#8] 0).cfg.npix ∧
    (window .escRl [0x03#8, 0x02#8, 0x03#8] 0).runs [.runE8 3#8, .runE8 2#8, .runE8 3#8] [3, 2, 3] ∧
    (window .escRl [0x03#8, 0x02#8, 0x03#8] 0).oneFrame [3, 2, 3] ∧
    (window .escRl [0x03#8, 0x02#8, 0x03#8] 0).holds ([.runE8 3#8, .runE8 2#8, .runE8 3#8].flatMap encode) := by decide

theorem witness_RlframeConsumesTheFrameOrRunsOut :
    (rl .tagRl []).inited = true ∧ (rl .tagRl []).cfg.wf = true ∧ (rl .tagRl []).cfg.scheme ≠ .qt ∧
    (rl .tagRl []).pix.length = (rl .tagRl []).cfg.npix ∧ Mem.wf (rl .tagRl []).surf = true := by decide

/-- The surface pixels next to the canvas on its left and right, in its byte, which every frame keeps. -/
theorem witness_keepsPixelsBut :
    ∀ x y, (rl .tagRl []).cfg.onCanvas x y → ∀ px, px = 1 ∨ px = 6 →
      ¬ (px = pixelCol (rl .tagRl []).cfg x ∧ 0 = pixelRow (rl .tagRl []).cfg y) := by
  intro x y h px hp
  have h1 : x < 4 := h.1
  have h2 : pixelCol (rl .tagRl []).cfg x = x + 2 := rfl
  omega

/-- A cleared surface and a window that holds one run of the whole frame. -/
theorem witness_RlframeShowsPix :
    (window .escRl [0x08#8] 0).cfg.wf = true ∧ (window .escRl [0x08#8] 0).pix.length = (window .escRl [0x08#8] 0).cfg.npix ∧
    Mem.wf (window .escRl [0x08#8] 0).surf = true ∧
    (∀ x y, x < (window .escRl [0x08#8] 0).cfg.w → y < (window .escRl [0x08#8] 0).cfg.h →
      (window .escRl [0x08#8] 0).isFg x y = false) ∧
    after (exec .rlframe (window .escRl [0x08#8] 0)) (fun _ => true) = true := by
  refine ⟨rfl, rfl, rfl, fun x y _ _ => ?_, by decide⟩
  simp [State.isFg, State.surfByte, window, ready, cfgOf, State.reset, Cfg.fgBit]

theorem witness_QsplitPushesTheChildren :
    (qt 4 4 2 []).inited = true ∧ (qt 4 4 2 []).cfg.scheme = .qt ∧ (qt 4 4 2 []).cfg.qtSkipEmpty = false ∧
    (⟨0, 0, 2, 2, 1⟩ : QNode).d < (qt 4 4 2 []).cfg.qtMaxDepth := by decide

theorem witness_QsplitTooDeepFaults :
    (qt 4 4 2 []).inited = true ∧ (qt 4 4 2 []).cfg.scheme = .qt ∧
    ({ qt 4 4 2 [] with qstk := [⟨0, 0, 1, 1, 2⟩] } : State).qstk = ⟨0, 0, 1, 1, 2⟩ :: [] ∧
    (qt 4 4 2 []).cfg.qtMaxDepth ≤ (⟨0, 0, 1, 1, 2⟩ : QNode).d := by decide

theorem witness_LeavesLeaveOrFill :
    ({ qt 4 4 2 [] with qstk := [⟨2, 2, 2, 2, 1⟩] } : State).qstk = ⟨2, 2, 2, 2, 1⟩ :: [] ∧ (qt 4 4 2 []).inited = true ∧
    (qt 4 4 2 []).cfg.scheme = .qt ∧ (qt 4 4 2 []).cfg.wf = true ∧ (qt 4 4 2 []).cfg.inside ⟨2, 2, 2, 2, 1⟩ = true := by decide

/-- A rectangle at the canvas's far corner, and an empty one just past its edge. -/
theorem witness_FillSetsTheRectangle :
    (qt 4 4 2 []).inited = true ∧ (qt 4 4 2 []).cfg.wf = true ∧ Mem.wf (qt 4 4 2 []).surf = true ∧
    (qt 4 4 2 []).cfg.inside ⟨2, 0, 2, 4, 0⟩ = true ∧ (qt 4 4 2 []).cfg.inside ⟨4, 0, 0, 4, 0⟩ = true := by decide

/-- V4's tree. -/
def tree : QTree := .split (.leaf false) (.leaf true) (.leaf false) (.leaf true)

theorem witness_QtframeDecodesTheCanvas :
    (qt 4 4 2 [0x88#8, 0x80#8]).inited = true ∧ (qt 4 4 2 [0x88#8, 0x80#8]).cfg.scheme = .qt ∧
    (qt 4 4 2 [0x88#8, 0x80#8]).cfg.wf = true ∧ (qt 4 4 2 [0x88#8, 0x80#8]).cfg.qtSkipEmpty = false ∧
    Mem.wf (qt 4 4 2 [0x88#8, 0x80#8]).surf = true ∧ tree.depth ≤ (qt 4 4 2 [0x88#8, 0x80#8]).cfg.qtMaxDepth ∧
    (qt 4 4 2 [0x88#8, 0x80#8]).holds tree.bits := by decide

/-- An empty window: every bit is a draw. -/
theorem witness_QuadtreeAlwaysCompletes :
    (qt 4 4 2 []).inited = true ∧ (qt 4 4 2 []).cfg.wf = true ∧ (qt 4 4 2 []).cfg.upb = 8 ∧
    (qt 4 4 2 []).cfg.inside ⟨0, 0, 4, 4, 0⟩ = true ∧ (qt 4 4 2 []).cfg.scheme = .qt ∧ (qt 4 4 2 []).busy = false ∧
    Mem.wf (qt 4 4 2 []).surf = true := by decide

/-- The tree at the one depth where it just fits the limit. -/
theorem witness_QtnodeDrawsTheTree :
    (qt 4 4 2 [0x88#8, 0x80#8]).inited = true ∧ (qt 4 4 2 [0x88#8, 0x80#8]).cfg.wf = true ∧
    (qt 4 4 2 [0x88#8, 0x80#8]).cfg.upb = 8 ∧ (qt 4 4 2 [0x88#8, 0x80#8]).cfg.qtSkipEmpty = false ∧
    Mem.wf (qt 4 4 2 [0x88#8, 0x80#8]).surf = true ∧ (qt 4 4 2 [0x88#8, 0x80#8]).cfg.inside ⟨2, 2, 2, 2, 1⟩ = true ∧
    tree.depth ≤ (qt 4 4 2 [0x88#8, 0x80#8]).cfg.qtMaxDepth - 1 ∧ (qt 4 4 2 [0x88#8, 0x80#8]).holds tree.bits := by decide

theorem witness_InitEstablishesTheResetState :
    State.reset.busy = false ∧ ∃ c, args.derive State.reset.assetSize = .ok c := ⟨rfl, _, rfl⟩

/-- A given canvas; one derived from a rectangular and from a round surface; a given depth limit and the default. -/
theorem witness_InitDerivesTheConfiguration :
    (∃ c, args.derive 5 = .ok c) ∧ args.dimsFromSurface = false ∧ args.qtMaxDepth = none ∧
    (∃ c, { args with dimsFromSurface := true, qtMaxDepth := some 0 }.derive 5 = .ok c) ∧
    (∃ c, { args with dimsFromSurface := true, round := true, roundNum := 3, roundDen := 4 }.derive 5 = .ok c) :=
  ⟨⟨_, rfl⟩, rfl, rfl, ⟨_, rfl⟩, ⟨_, rfl⟩⟩

theorem witness_InitRefusesIllFormed :
    State.reset.busy = false ∧ 3 ≤ { args with schemeCode := 3 }.schemeCode ∧ { args with upb := some 2 }.upb = some 2 ∧
    ({ args with dimsFromSurface := true, schemeCode := 1 }.dimsFromSurface = true ∧
      { args with dimsFromSurface := true, schemeCode := 1 }.schemeCode ≠ 2) ∧
    { args with nframes := 0 }.nframes = 0 ∧ { args with fps := 0 }.fps = 0 ∧ args.dimsFromSurface = false ∧ { args with w := 0 }.w = 0 ∧
    { args with h := 0 }.h = 0 ∧ { args with w := 9 }.surfW < { args with w := 9 }.w ∧
    { args with h := 7 }.surfH < { args with h := 7 }.h ∧
    ({ args with dimsFromSurface := true, surfW := 0 }.dimsFromSurface = true ∧
      { args with dimsFromSurface := true, surfW := 0 }.surfW = 0) ∧
    ({ args with dimsFromSurface := true, round := true, roundNum := 2 }.round = true ∧
      { args with dimsFromSurface := true, round := true, roundNum := 2 }.roundDen <
        { args with dimsFromSurface := true, round := true, roundNum := 2 }.roundNum) := by decide

theorem witness_ResetClearsTheLoop : (rl .escRl []).inited = true ∧ (qt 1 1 0 []).inited = true := by decide

theorem witness_StepInFaultDoesNothing :
    ({ rl .escRl [] with phase := .fault } : State).inited = true ∧ ({ rl .escRl [] with phase := .fault } : State).busy = false ∧
    ({ rl .escRl [] with phase := .fault } : State).phase = .fault ∧
    after (step { rl .escRl [] with phase := .fault, host := [.surfWrite 1 0 0xFF#8] }) (fun t => t.host == []) = true := by decide

/-- A STEP that completes its frame and one that takes QTO (V68). -/
theorem witness_StepMovesTheStateMachine :
    (rl .escRl [0x08#8, 0x00#8]).phase ≠ .fault ∧
    after (exec .step (rl .escRl [0x08#8, 0x00#8])) (fun t => t.fc == 1) = true ∧
    after (exec .step (ready (cfgOf .qt 1 1 8 1 10 0 2) [0x80#8, 0x00#8])) (fun t => t.phase == .fault && t.fc == 0) = true := by
  decide

/-- V4 as a STEP. -/
theorem witness_StepPlaysATree :
    (ready (cfgOf .qt 4 4 8 4 10 2 3) [0x88#8, 0x80#8]).inited = true ∧
    (ready (cfgOf .qt 4 4 8 4 10 2 3) [0x88#8, 0x80#8]).busy = false ∧
    (ready (cfgOf .qt 4 4 8 4 10 2 3) [0x88#8, 0x80#8]).phase ≠ .fault ∧
    (ready (cfgOf .qt 4 4 8 4 10 2 3) [0x88#8, 0x80#8]).cfg.scheme = .qt ∧
    (ready (cfgOf .qt 4 4 8 4 10 2 3) [0x88#8, 0x80#8]).cfg.wf = true ∧
    (ready (cfgOf .qt 4 4 8 4 10 2 3) [0x88#8, 0x80#8]).cfg.qtSkipEmpty = false ∧
    Mem.wf (ready (cfgOf .qt 4 4 8 4 10 2 3) [0x88#8, 0x80#8]).surf = true ∧
    tree.depth ≤ (ready (cfgOf .qt 4 4 8 4 10 2 3) [0x88#8, 0x80#8]).cfg.qtMaxDepth ∧
    (ready (cfgOf .qt 4 4 8 4 10 2 3) [0x88#8, 0x80#8]).plays tree.bits := by decide

/-- P2, frame 1, from bit 12: `RUN.T2 0; RUN.T4 8`; the last frame of a loop of two. -/
def p2 : State :=
  { ready (cfgOf .tagRl 4 2 8 2 2 2 4) [0x32#8, 0x30#8, 0x60#8] with cursor := 12, fc := 1, phase := .streaming }

theorem witness_StepPlaysARunLengthFrame :
    p2.inited = true ∧ p2.busy = false ∧ p2.phase ≠ .fault ∧ p2.cfg.scheme ≠ .qt ∧ p2.cfg.wf = true ∧
    p2.pix.length = p2.cfg.npix ∧ Mem.wf p2.surf = true ∧ p2.runs [.runT2 0#2, .runT4 8#4] [0, 8] ∧ p2.oneFrame [0, 8] ∧
    p2.plays ([.runT2 0#2, .runT4 8#4].flatMap encode) ∧ p2.fc + 1 = p2.cfg.nframes ∧
    ({ p2 with fc := 0 } : State).fc + 1 ≠ ({ p2 with fc := 0 } : State).cfg.nframes := by decide

theorem witness_OnlyCommitAndResetsMoveCursor :
    (∃ t, exec .bit (window .qt [0xA5#8] 0) = .next t) ∧ Instr.bit ≠ .wcommit ∧ Instr.bit ≠ .reset ∧ Instr.bit ≠ .step ∧
    ∀ a, Instr.bit ≠ .init a := by
  refine ⟨⟨_, rfl⟩, by decide, by decide, by decide, ?_⟩
  intro a h
  cases h

theorem witness_OnlyInitClearsStatus :
    (∃ t, exec .reset { rl .escRl [] with status := 7#3 } = .next t) ∧ (∀ a, Instr.reset ≠ .init a) ∧
    (7#3 : BitVec 3).getLsbD 2 = true := by
  refine ⟨⟨_, rfl⟩, ?_, by decide⟩
  intro a h
  cases h

theorem witness_AssetAndConfigurationAreReadOnly :
    (∃ t, exec .wload (streamer .tagRl 43) = .next t) ∧ ∀ a, Instr.wload ≠ .init a := by
  refine ⟨⟨_, rfl⟩, ?_⟩
  intro a h
  cases h

/-- A surface with one foreground pixel, `(1, 0)`. -/
theorem witness_ForegroundIsNeverErased :
    Mem.wf ({ rl .escRl [] with surf := [(0, 0x10#8)] } : State).surf = true ∧
    (∃ t, exec (.setfg 3 1) { rl .escRl [] with surf := [(0, 0x10#8)] } = .next t) ∧ (∀ a, Instr.setfg 3 1 ≠ .init a) ∧
    ({ rl .escRl [] with surf := [(0, 0x10#8)] } : State).isFg 1 0 = true := by
  refine ⟨rfl, ⟨_, rfl⟩, ?_, by decide⟩
  intro a h
  cases h

theorem witness_RefusedBeforeInitAndOutsideTheScheme :
    (Instr.step.wf = true ∧ State.reset.inited = false ∧ ∀ a, Instr.step ≠ .init a) ∧
    (Instr.wf (.runT2 3#2) = true ∧ (rl .escRl []).inited = true ∧ (Instr.runT2 3#2).scheme? = some .tagRl ∧
      Scheme.tagRl ≠ (rl .escRl []).cfg.scheme) ∧
    (qt 1 1 0 []).inited = true ∧ (qt 1 1 0 []).cfg.scheme = .qt ∧ (rl .escRl []).cfg.scheme ≠ .qt := by
  refine ⟨⟨rfl, rfl, ?_⟩, by decide⟩
  intro a h
  cases h

/-- The first column past the row buffer, the first entry past PIX, an empty stack, a STEP in progress. -/
theorem witness_StopsOutsideTheDomain :
    (rl .escRl []).inited = true ∧
    (rl .escRl []).onSurface (0 + (rl .escRl []).cfg.offY) (pixelByte (rl .escRl []).cfg 6) = false ∧
    (rl .escRl []).cfg.scheme ≠ .qt ∧ (rl .escRl []).pix.length ≤ 8 ∧ Instr.qsplit.scheme? = some .qt ∧
    (qt 1 1 0 []).inited = true ∧ (qt 1 1 0 []).cfg.scheme = .qt ∧ (qt 1 1 0 []).qstk = [] ∧
    ({ rl .escRl [] with busy := true } : State).busy = true := by decide

/-- A token placed as the fetch needs it. -/
theorem witness_StepRunsTheFetchedToken :
    (State.reset.withFetchWord 18 0x30100).busy = true ∧ (State.reset.withFetchWord 18 0x30100).frameDone = false ∧
    Instr.wf (.runT16 256#16) = true ∧
    (Instr.runT16 256#16).scheme? = some (State.reset.withFetchWord 18 0x30100).cfg.scheme ∧
    (State.reset.withFetchWord 18 0x30100).holds (encode (.runT16 256#16)) := by decide

theorem witness_StepAlwaysFindsAToken :
    ({ rl .tagRl [] with busy := true } : State).busy = true ∧ ({ rl .tagRl [] with busy := true } : State).frameDone = false := by
  decide

/-- A busy block; an idle one; INIT pending; STEP pending in each kind of scheme and before INIT; a write inside and one just outside
the surface pending. -/
theorem witness_HostActsOnlyBetweenSteps :
    (∃ t, step { rl .tagRl [] with busy := true, pcnt := 8 } = .next t) ∧
    ((rl .tagRl []).busy = false ∧ (rl .tagRl []).host = []) ∧
    ({ rl .tagRl [] with host := [.init args] } : State).host = .init args :: [] ∧
    (({ rl .tagRl [] with host := [.step] } : State).host = .step :: [] ∧ (rl .tagRl []).phase ≠ .fault ∧
      (rl .tagRl []).cfg.scheme ≠ .qt ∧ (qt 4 4 2 []).inited = true ∧ (qt 4 4 2 []).busy = false ∧ (qt 4 4 2 []).phase ≠ .fault ∧
      (qt 4 4 2 []).cfg.scheme = .qt ∧ State.reset.busy = false ∧ State.reset.inited = false) ∧
    ({ rl .tagRl [] with host := [.surfWrite 1 0 0xFF#8] } : State).host = .surfWrite 1 0 0xFF#8 :: [] ∧
    (rl .tagRl []).inited = true ∧ Mem.wf (rl .tagRl []).surf = true ∧ (rl .tagRl []).onSurface 1 0 = true ∧
    (rl .tagRl []).onSurface 1 1 = false := ⟨⟨_, rfl⟩, ⟨rfl, rfl⟩, rfl, by decide, rfl, rfl, rfl, by decide, by decide⟩

theorem witness_MachineStepsMakeTheStep :
    after (exec .step p2) (fun _ => true) = true ∧
    after (exec .step (ready (cfgOf .qt 1 1 8 1 10 0 2) [0x80#8, 0x00#8])) (fun _ => true) = true := by decide

/-- A block in the middle of a quadtree frame: P3's first STEP, its root pending. -/
def midFrame : State := frameStart (openStep (ready (cfgOf .qt 4 4 8 6 2 2 5) [0x88#8, 0xE8#8, 0x29#8, 0x14#8, 0x00#8]))

theorem witness_StepKeepsTheInvariant : Inv midFrame ∧ ∃ t, step midFrame = .next t := by
  refine ⟨⟨rfl, rfl, fun _ => ⟨rfl, rfl, by decide, rfl, fun _ => ⟨rfl, rfl⟩, by decide⟩, fun _ => ?_⟩, _, rfl⟩
  exact ⟨rfl, by decide, rfl, rfl, rfl, Nat.le_refl _, ⟨⟨by decide, by decide, rfl⟩, trivial⟩⟩

theorem witness_BusyBlockNeverStops : Inv midFrame ∧ midFrame.busy = true := ⟨witness_StepKeepsTheInvariant.1, rfl⟩

theorem witness_WorkStackIsBounded : Inv midFrame ∧ midFrame.busy = true ∧ midFrame.cfg.scheme = .qt :=
  ⟨witness_StepKeepsTheInvariant.1, rfl, rfl⟩

end Sys2Proof.Tests
end

section
/-! SUPPORT. The worked encodings of 30_encoding.md R104: what each form used there decodes to, for every operand and whatever bits
follow, and the examples as instances. -/

namespace Sys2Proof

/-! ### Decoding one written token (30_encoding.md R92 to R94) -/

theorem decode_encode_runE8 {n : BitVec 8} (hn : n.toNat ≠ 255) (rest : List Bool) :
    decode .escRl (encode (.runE8 n) ++ rest) = .ok (.runE8 n, rest) := by
  rw [encode, decode, decodeEsc, takeField_toBits n.isLt]
  simp [hn]

theorem decode_encode_runE24 (n : BitVec 16) (rest : List Bool) :
    decode .escRl (encode (.runE24 n) ++ rest) = .ok (.runE24 n, rest) := by
  rw [encode, List.append_assoc, decode, decodeEsc, takeField_toBits (by decide)]
  simp [takeField_toBits n.isLt]

theorem decode_encode_runT2 (n : BitVec 2) (rest : List Bool) :
    decode .tagRl (encode (.runT2 n) ++ rest) = .ok (.runT2 n, rest) := by
  rw [encode, List.append_assoc, decode, decodeTag, takeField_toBits (by decide)]
  simp [takeField_toBits n.isLt]

theorem decode_encode_qsplit (rest : List Bool) :
    decode .qt (encode .qsplit ++ rest) = .ok (.qsplit, rest) := rfl

theorem decode_encode_qleafBg (rest : List Bool) :
    decode .qt (encode .qleafBg ++ rest) = .ok (.qleafBg, rest) := rfl

theorem decode_encode_qleafFg (rest : List Bool) :
    decode .qt (encode .qleafFg ++ rest) = .ok (.qleafFg, rest) := rfl

/-! ### The worked encodings (30_encoding.md R104) -/

/-- Settles O4: the shortest forms and the bits written are computed, and each decoding is the lemma above for the token that the
bits begin with. -/
theorem workedEncodings : Obligations.WorkedEncodings := by
  unfold Obligations.WorkedEncodings
  refine ⟨?escRl, ?tagRl, ?qt⟩
  case escRl =>
    exact ⟨rfl, rfl, rfl, by decide, decode_encode_runE8 (n := 3#8) (by decide) _,
      decode_encode_runE8 (n := 2#8) (by decide) _, decode_encode_runE24 256#16 []⟩
  case tagRl => exact ⟨rfl, decode_encode_runT2 3#2 []⟩
  case qt => exact ⟨rfl, decode_encode_qsplit _, decode_encode_qleafBg _, decode_encode_qleafFg _⟩

end Sys2Proof
end

section
/-! SUPPORT. How the cursor primitives compose: a field read as two smaller ones (40_bitcursor.md R122 to R125), and SHORT as two
BYTEs. -/

namespace Sys2Proof.Machine

/-! ### Two primitives in a row (40_bitcursor.md R120) -/

theorem rd_wcur (n : Nat) (s : State) : (rd n s).2.wcur = s.wcur + n / s.cfg.bpu := (rd_state n s).wcur

theorem rd_inited (n : Nat) (s : State) : (rd n s).2.inited = s.inited := by rw [rd_eq]

theorem rd_cfg (n : Nat) (s : State) : (rd n s).2.cfg = s.cfg := (rd_state n s).cfg

/-- A field of `m + n` bits is the field of `m` and then the field of `n`, the first the high part, when each is a whole number of
units. -/
theorem primitive_add {m n : Nat} {s : State} (hi : s.inited = true) (hm : m % s.cfg.bpu = 0) (hn : n % s.cfg.bpu = 0) :
    ∃ s₁ s₂, primitive m s = .next s₁ ∧ primitive n s₁ = .next s₂ ∧ s₁.res < 2 ^ m ∧ s₂.res < 2 ^ n ∧
      s₂.wcur = s.wcur + m / s.cfg.bpu + n / s.cfg.bpu ∧
      primitive (m + n) s = .next { s₂ with res := s₁.res * 2 ^ n + s₂.res } := by
  have hmn : (m + n) % s.cfg.bpu = 0 := by simp [Nat.add_mod, hm, hn]
  have first := primitive_next hi hm
  have second : primitive n ((rd m s).2.answer (rd m s).1) = _ :=
    primitive_next (by simp [rd_inited, hi]) (by simp [rd_cfg, hn])
  have both := primitive_next hi hmn
  rw [rd_add m n s (rd m s).1 hm] at both
  exact ⟨_, _, first, second, rd_lt m s, rd_lt n _, by simp [rd_wcur, rd_cfg], both⟩

/-! ### SHORT (40_bitcursor.md R125) -/

theorem exec_byte (s : State) : exec .byte s = primitive 8 s := rfl

theorem exec_short (s : State) : exec .short s = primitive (8 + 8) s := rfl

/-- Settles O9: a byte is a whole number of units under every unit, so the field of 8 + 8 bits is two fields of 8. -/
theorem shortIsTwoBytes : Obligations.ShortIsTwoBytes := by
  unfold Obligations.ShortIsTwoBytes
  intro s hi
  obtain ⟨s₁, s₂, first, second, high, low, cur, both⟩ := primitive_add hi (bpu_dvd8 s) (bpu_dvd8 s)
  refine ⟨s₁, s₂, first, second, by omega, ?advance, both⟩
  case advance => rw [cur, upb_eq]; ring

end Sys2Proof.Machine
end

section
/-! SUPPORT. ESCV in terms of the cursor primitives (41_integer_codec.md R142): the first byte decides between BYTE alone and BYTE
then SHORT. -/

namespace Sys2Proof.Machine

/-! ### Fields of whole bytes, legal under every unit -/

@[simp] theorem State.answer_answer (s : State) (v w : Nat) : (s.answer v).answer w = s.answer w := rfl

theorem rd_answer (n v : Nat) (s : State) : rd n (s.answer v) = ((rd n s).1, (rd n s).2.answer v) :=
  Prod.ext (answer_rd n v s).1 (answer_rd n v s).2

theorem bpu_dvd16 (s : State) : 16 % s.cfg.bpu = 0 :=
  Nat.mod_eq_zero_of_dvd ((Nat.dvd_of_mod_eq_zero (bpu_dvd8 s)).mul_left 2)

/-- A SHORT completes with its field of 16 bits. -/
theorem exec_short_next {s : State} (hi : s.inited = true) : exec .short s = .next ((rd 16 s).2.answer (rd 16 s).1) :=
  primitive_next hi (bpu_dvd16 s)

/-- A BYTE completes with a value of 8 bits and moves the cursor by one byte. -/
theorem exec_byte_next {s : State} (hi : s.inited = true) :
    ∃ s₁, exec .byte s = .next s₁ ∧ s₁ = (rd 8 s).2.answer (rd 8 s).1 ∧ s₁.inited = true ∧ s₁.cfg = s.cfg ∧
      s₁.res < 256 ∧ s₁.wcur = s.wcur + s.cfg.upb :=
  ⟨_, primitive_next hi (bpu_dvd8 s), rfl, by simp [rd_inited, hi], by simp [rd_cfg], rd_lt 8 s, by simp [rd_wcur, upb_eq]⟩

/-! ### ESCV -/

/-- ESCV ends where its first byte ends when that is no escape, and otherwise where a SHORT after it ends: the first byte's value in
RES is overwritten and nothing of it stays. -/
theorem exec_escv {s : State} (hi : s.inited = true) :
    exec .escv s = if (rd 8 s).1 < 255 then exec .byte s else exec .short ((rd 8 s).2.answer (rd 8 s).1) := by
  have escv_ready : exec .escv s = .next ((escv s).2.answer (escv s).1) := whenReady_of hi _
  rw [escv_ready, escv]
  split
  case isTrue => exact (primitive_next hi (bpu_dvd8 s)).symm
  case isFalse =>
    rw [exec_short_next (by simp [rd_inited, hi])]
    simp [rd_answer]

/-- Settles O12: by the case split of `exec_escv`; after the escape the SHORT's length and range are those of its two BYTEs. -/
theorem escvFollowsItsFirstByte : Obligations.EscvFollowsItsFirstByte := by
  unfold Obligations.EscvFollowsItsFirstByte
  intro s hi
  obtain ⟨s₁, byte, hs₁, hi₁, hcfg, range, cur⟩ := exec_byte_next hi
  have value : s₁.res = (rd 8 s).1 := by rw [hs₁]; rfl
  have hescv := exec_escv hi
  rw [← hs₁, ← value, byte] at hescv
  by_cases hlt : s₁.res < 255
  · rw [if_pos hlt] at hescv
    exact ⟨s₁, s₁, byte, hescv, by omega, fun _ => ⟨rfl, cur⟩, by omega⟩
  · obtain ⟨_, t, -, -, range₂, cur₂, short⟩ := shortIsTwoBytes s₁ hi₁
    rw [if_neg hlt, short] at hescv
    refine ⟨s₁, _, byte, hescv, range₂, by omega, fun _ => ⟨short, ?advance⟩⟩
    case advance => rw [cur₂, cur, hcfg]; ring

end Sys2Proof.Machine
end

section
/-! SUPPORT. SETFG on a canvas pixel as one store to the surface, and what that store leaves at each address under INDEXED8
(45_pixel_sink.md R220, R224). -/

namespace Sys2Proof.Machine

/-- Under INDEXED8 a pixel's byte is the byte of its column (20_memory.md R72). -/
theorem pixelByte_indexed8 {c : Cfg} (hf : c.surfFmt = .indexed8) (x : Nat) : pixelByte c x = x + c.offX := by
  simp only [pixelByte, hf, pixelCol]

theorem pixelKey_indexed8 {c : Cfg} (hf : c.surfFmt = .indexed8) (x y : Nat) :
    pixelKey c x y = surfKey (y + c.offY) (x + c.offX) := by
  rw [pixelKey, pixelByte_indexed8 hf, pixelRow]

theorem litByte_indexed8 {s : State} (hf : s.cfg.surfFmt = .indexed8) (x y : Nat) : s.litByte x y = s.cfg.fgIndex := by
  simp only [State.litByte, hf]

/-- SETFG on a pixel of the canvas completes with one byte of the surface stored. -/
theorem exec_setfg_inside {s : State} {x y : Nat} (hi : s.inited = true) (hw : s.cfg.wf = true) (hx : x < s.cfg.w)
    (hy : y < s.cfg.h) :
    exec (.setfg x y) s = .next (s.putSurf (memWrite s.surf (pixelKey s.cfg x y) (s.litByte x y))) := by
  rw [execSetfg_eq hi, outcome_next, setFg_inside hw hx hy]

/-- Settles O20: SETFG is one store of the foreground index at the pixel's address; reading that address back needs the memory
canonical, and the store reaches no other address. -/
theorem setfgStoresTheIndex : Obligations.SetfgStoresTheIndex := by
  unfold Obligations.SetfgStoresTheIndex
  intro s x y hi hwf hf hm hx hy
  refine ⟨_, exec_setfg_inside hi hwf hx hy, rfl, ?stored, fun a ha => memRead_memWrite_other _ _ ha⟩
  case stored =>
    rw [pixelKey_indexed8 hf, litByte_indexed8 hf]
    exact memRead_memWrite_same hm _ _

end Sys2Proof.Machine
end

section
/-! SUPPORT. The decoder and the encoder as inverses of each other, token by token (30_encoding.md R92 to R103). -/

namespace Sys2Proof

/-! ### Decoding what was encoded -/

theorem decode_encode_runT4 (n : BitVec 4) (rest : List Bool) :
    decode .tagRl (encode (.runT4 n) ++ rest) = .ok (.runT4 n, rest) := by
  rw [encode, List.append_assoc, decode, decodeTag, takeField_toBits (by decide)]
  simp [takeField_toBits n.isLt]

theorem decode_encode_runT8 (n : BitVec 8) (rest : List Bool) :
    decode .tagRl (encode (.runT8 n) ++ rest) = .ok (.runT8 n, rest) := by
  rw [encode, List.append_assoc, decode, decodeTag, takeField_toBits (by decide)]
  simp [takeField_toBits n.isLt]

theorem decode_encode_runT16 (n : BitVec 16) (rest : List Bool) :
    decode .tagRl (encode (.runT16 n) ++ rest) = .ok (.runT16 n, rest) := by
  rw [encode, List.append_assoc, decode, decodeTag, takeField_toBits (by decide)]
  simp [takeField_toBits n.isLt]

/-- A well-formed one-byte run is not the escape. -/
theorem runE8_wf_iff {n : BitVec 8} : (Instr.runE8 n).wf = true ↔ n.toNat ≠ 255 := by
  rw [Instr.wf, bne_iff_ne, ne_eq, ← BitVec.toNat_inj]
  rfl

/-- Settles O1: an operation has no scheme, and each token decodes by the lemma for its form. -/
theorem decodeInvertsEncode : Obligations.DecodeInvertsEncode := by
  unfold Obligations.DecodeInvertsEncode
  intro i sch rest hwf hs
  cases i <;> cases hs
  case runE8 n => exact decode_encode_runE8 (runE8_wf_iff.mp hwf) rest
  case runE24 n => exact decode_encode_runE24 n rest
  case runT2 n => exact decode_encode_runT2 n rest
  case runT4 n => exact decode_encode_runT4 n rest
  case runT8 n => exact decode_encode_runT8 n rest
  case runT16 n => exact decode_encode_runT16 n rest
  case qsplit => exact decode_encode_qsplit rest
  case qleafBg => exact decode_encode_qleafBg rest
  case qleafFg => exact decode_encode_qleafFg rest

/-! ### Encoding what was decoded -/

/-- A field that was taken is written back by its own value, held in a word of its width. -/
theorem toBits_takeField {n v : Nat} {bs rest : List Bool} (h : takeField n bs = some (v, rest)) :
    toBits n (BitVec.ofNat n v).toNat ++ rest = bs := by
  obtain ⟨rfl, hv⟩ := takeField_some h
  rw [ofNat_toNat hv]

/-- Two fields taken one after the other are written back as the tag and the value of a token. -/
theorem toBits_takeField_takeField {m n t v : Nat} {bs mid rest : List Bool} (h₁ : takeField m bs = some (t, mid))
    (h₂ : takeField n mid = some (v, rest)) : toBits m t ++ toBits n (BitVec.ofNat n v).toNat ++ rest = bs := by
  rw [List.append_assoc, toBits_takeField h₂, (takeField_some h₁).1]

theorem encode_of_decodeEsc {bs rest : List Bool} {i : Instr} (h : decodeEsc bs = .ok (i, rest)) :
    i.wf = true ∧ i.scheme? = some .escRl ∧ encode i ++ rest = bs := by
  unfold decodeEsc at h
  split at h
  · cases h
  next b mid h₁ =>
    split_ifs at h with hesc
    case pos =>
      subst hesc
      split at h
      · cases h
      next n rest' h₂ => cases h; exact ⟨rfl, rfl, toBits_takeField_takeField h₁ h₂⟩
    case neg =>
      cases h
      refine ⟨runE8_wf_iff.mpr ?_, rfl, toBits_takeField h₁⟩
      rwa [ofNat_toNat (takeField_some h₁).2]

theorem encode_of_decodeTag {bs rest : List Bool} {i : Instr} (h : decodeTag bs = .ok (i, rest)) :
    i.wf = true ∧ i.scheme? = some .tagRl ∧ encode i ++ rest = bs := by
  unfold decodeTag at h
  split at h
  · cases h
  next t mid h₁ =>
    have ht := (takeField_some h₁).2
    split_ifs at h with h0 h1 h2 <;> split at h <;> cases h <;> rename_i h₂
    · subst h0; exact ⟨rfl, rfl, toBits_takeField_takeField h₁ h₂⟩
    · subst h1; exact ⟨rfl, rfl, toBits_takeField_takeField h₁ h₂⟩
    · subst h2; exact ⟨rfl, rfl, toBits_takeField_takeField h₁ h₂⟩
    · obtain rfl : t = 3 := by omega
      exact ⟨rfl, rfl, toBits_takeField_takeField h₁ h₂⟩

theorem encode_of_decodeQt {bs rest : List Bool} {i : Instr} (h : decodeQt bs = .ok (i, rest)) :
    i.wf = true ∧ i.scheme? = some .qt ∧ encode i ++ rest = bs := by
  unfold decodeQt at h
  split at h <;> cases h <;> exact ⟨rfl, rfl, rfl⟩

/-- Settles O2: scheme by scheme, each field that was taken being written back by its value. -/
theorem encodeInvertsDecode : Obligations.EncodeInvertsDecode := by
  unfold Obligations.EncodeInvertsDecode
  intro sch bs rest i h
  cases sch with
  | escRl => exact encode_of_decodeEsc h
  | tagRl => exact encode_of_decodeTag h
  | qt => exact encode_of_decodeQt h

/-! ### Every pattern decodes (30_encoding.md R98) -/

theorem decodeEsc_total {bs : List Bool} (h : 24 ≤ bs.length) : ∃ i rest, decodeEsc bs = .ok (i, rest) := by
  obtain ⟨b, mid, h₁, hmid⟩ := takeField_isSome (n := 8) (bs := bs) (by omega)
  obtain ⟨n, rest, h₂, -⟩ := takeField_isSome (n := 16) (bs := mid) (by omega)
  simp only [decodeEsc, h₁, h₂]
  split
  · exact ⟨_, _, rfl⟩
  · exact ⟨_, _, rfl⟩

theorem decodeTag_total {bs : List Bool} (h : 18 ≤ bs.length) : ∃ i rest, decodeTag bs = .ok (i, rest) := by
  obtain ⟨t, mid, h₁, hmid⟩ := takeField_isSome (n := 2) (bs := bs) (by omega)
  have value (n : Nat) (hn : n ≤ 16) : ∃ v rest, takeField n mid = some (v, rest) := by
    obtain ⟨v, rest, h₂, -⟩ := takeField_isSome (n := n) (bs := mid) (by omega)
    exact ⟨v, rest, h₂⟩
  obtain ⟨_, _, h2⟩ := value 2 (by decide)
  obtain ⟨_, _, h4⟩ := value 4 (by decide)
  obtain ⟨_, _, h8⟩ := value 8 (by decide)
  obtain ⟨_, _, h16⟩ := value 16 (by decide)
  simp only [decodeTag, h₁, h2, h4, h8, h16]
  split_ifs <;> exact ⟨_, _, rfl⟩

theorem decodeQt_total {bs : List Bool} (h : 2 ≤ bs.length) : ∃ i rest, decodeQt bs = .ok (i, rest) := by
  match bs, h with
  | true :: rest, _ => exact ⟨_, _, rfl⟩
  | false :: false :: rest, _ => exact ⟨_, _, rfl⟩
  | false :: true :: rest, _ => exact ⟨_, _, rfl⟩

/-- A token of a scheme is at least one bit long. -/
theorem encode_pos {i : Instr} {sch : Scheme} (h : i.scheme? = some sch) : 0 < (encode i).length := by
  cases i <;> cases h <;> simp [encode]

/-- Settles O3: the fields a decoder takes are there, and a token that decodes has bits of its own. -/
theorem everyBitPatternDecodes : Obligations.EveryBitPatternDecodes := by
  unfold Obligations.EveryBitPatternDecodes
  intro sch bs hlen
  have total : ∃ i rest, decode sch bs = .ok (i, rest) := by
    cases sch with
    | escRl => exact decodeEsc_total hlen
    | tagRl => exact decodeTag_total hlen
    | qt => exact decodeQt_total hlen
  obtain ⟨i, rest, h⟩ := total
  obtain ⟨-, hs, hbits⟩ := encodeInvertsDecode sch bs rest i h
  have hpos := encode_pos hs
  refine ⟨i, rest, h, ?_⟩
  rw [← hbits, List.length_append]
  omega

end Sys2Proof
end

section
/-! SUPPORT. What the cursor primitives read, bit by bit and byte by byte, inside the window and past it (40_bitcursor.md R120 to
R126, 20_memory.md R65, R66). -/

namespace Sys2Proof

/-! ### The parts of a field -/

theorem toBits_drop (n v : Nat) : ∀ k, (toBits n v).drop k = toBits (n - k) v := by
  induction n with
  | zero => intro k; simp [toBits]
  | succ n ih =>
    intro k
    cases k with
    | zero => rfl
    | succ k => rw [toBits, List.drop_succ_cons, ih, Nat.succ_sub_succ]

/-- The first bits of a field are the high part of its value. -/
theorem ofBits_toBits_take {n v : Nat} (h : v < 2 ^ n) (k : Nat) : ofBits ((toBits n v).take k) = v / 2 ^ (n - k) := by
  have whole := ofBits_append ((toBits n v).take k) ((toBits n v).drop k)
  rw [List.take_append_drop, toBits_drop, ofBits_toBits_of_lt h, toBits_length, ofBits_toBits] at whole
  refine (Nat.div_eq_of_lt_le ?_ ?_).symm
  · omega
  · rw [Nat.add_mul, Nat.one_mul]
    have := Nat.mod_lt v (Nat.two_pow_pos (n - k))
    omega

/-- From a byte on, the bits of a block of bytes are that byte's and the later bytes'. -/
theorem bytesToBits_drop (bs : List Byte) : ∀ q, q < bs.length →
    (bytesToBits bs).drop (8 * q) = toBits 8 (bs.getD q 0#8).toNat ++ bytesToBits (bs.drop (q + 1)) := by
  induction bs with
  | nil => intro q h; simp at h
  | cons b bs ih =>
    intro q h
    cases q with
    | zero => rfl
    | succ q =>
      have h8 : 8 * (q + 1) = 8 + 8 * q := by ring
      have hd : (toBits 8 b.toNat ++ bytesToBits bs).drop 8 = bytesToBits bs := List.drop_left' (toBits_length 8 _)
      rw [bytesToBits, h8, ← List.drop_drop, hd, ih q (by simpa using h)]
      rfl

/-- Eight bits from the `k`-th of a byte on: the rest of that byte, then the first bits of the next. -/
theorem bytesToBits_drop_take {bs : List Byte} {q k : Nat} (hk : k ≤ 8) (hq : q + 1 < bs.length) :
    ((bytesToBits bs).drop (8 * q + k)).take 8 =
      toBits (8 - k) (bs.getD q 0#8).toNat ++ (toBits 8 (bs.getD (q + 1) 0#8).toNat).take k := by
  have next := bytesToBits_drop (bs.drop (q + 1)) 0 (by rw [List.length_drop]; omega)
  rw [Nat.mul_zero, List.drop_zero, show (bs.drop (q + 1)).getD 0 0#8 = bs.getD (q + 1) 0#8 by simp] at next
  rw [← List.drop_drop, bytesToBits_drop bs q (by omega), List.drop_append_of_le_length (by rwa [toBits_length]), toBits_drop,
    next, List.take_append, toBits_length, List.take_of_length_le (by rw [toBits_length]; omega),
    List.take_append_of_le_length (by rw [toBits_length]; omega), show 8 - (8 - k) = k by omega]

namespace Machine

/-! ### Single bits -/

theorem ovr_set (b : BitVec 3) : Condition.ovr.set b = b ||| 1#3 := rfl

theorem rd_one (s : State) : rd 1 s = ((streamBit s.bitPos s).1.toNat, (streamBit s.bitPos s).2.consume 1) := by
  simp [rd, readBits, ofBits_cons]

/-- A stream bit past the window records OVR and is a bit of a draw. -/
theorem streamBit_outside {p : Nat} {s : State} (h : s.wlen ≤ p / 8) :
    streamBit p s = ((Config.draw8 s.draws).getLsbD (7 - p % 8), (s.raise .ovr).drawn) := by
  rw [streamBit, readWindow_outside h]

/-- Bits read past the window take a draw each. -/
theorem readBits_outside (n : Nat) : ∀ p (s : State), s.wlen ≤ p / 8 →
    (readBits (n + 1) p s).2 = { s with status := Condition.ovr.set s.status, draws := s.draws + (n + 1) } := by
  induction n with
  | zero => intro p s h; rw [readBits_succ, streamBit_outside h]; rfl
  | succ n ih =>
    intro p s h
    rw [readBits_succ, streamBit_outside h, ih (p + 1) _ (by show s.wlen ≤ (p + 1) / 8; omega)]
    simp [State.raise, State.drawn, Nat.add_assoc, Nat.add_comm 1]

theorem bitPos_of_upb8 {s : State} (h : s.cfg.upb = 8) : s.bitPos = s.wcur := by
  rw [State.bitPos, bpu_of_upb8 h, Nat.mul_one]

/-- Under the bit unit a primitive of any width is legal. -/
theorem legal_of_upb8 {s : State} (h : s.cfg.upb = 8) (n : Nat) : n % s.cfg.bpu = 0 := by
  rw [bpu_of_upb8 h, Nat.mod_one]

/-- Settles O5: BIT is RD(1), which is one stream bit, inside the window or past it. -/
theorem bitReadsOneBit : Obligations.BitReadsOneBit := by
  unfold Obligations.BitReadsOneBit
  intro s hi
  have read (h : s.cfg.upb = 8) : exec .bit s =
      .next (((streamBit s.wcur s).2.consume 1).answer (streamBit s.wcur s).1.toNat) := by
    rw [← bitPos_of_upb8 h]
    exact (primitive_next hi (legal_of_upb8 h 1)).trans (by rw [rd_one])
  refine ⟨fun h hin => ?inside, fun h hout => ?outside, fun h => ?refused⟩
  case inside =>
    rw [read h, streamBit_inside (by omega)]
    simp [State.consume, State.seek, State.answer, bpu_of_upb8 h]
  case outside =>
    rw [read h, streamBit_outside hout]
    simp [State.consume, State.seek, State.answer, State.raise, State.drawn, bpu_of_upb8 h, ovr_set]
  case refused => exact primitive_refused hi (by rw [bpu_of_upb1 h]; decide)

/-! ### Compositions (40_bitcursor.md R122 to R124) -/

/-- Under the bit unit a field of `2 * n` bits is two of `n`, the first the high half. -/
theorem primitive_double {s : State} (hi : s.inited = true) (h : s.cfg.upb = 8) (n : Nat) :
    ∃ s₁ s₂, primitive n s = .next s₁ ∧ primitive n s₁ = .next s₂ ∧ s₁.res < 2 ^ n ∧ s₂.res < 2 ^ n ∧
      s₂.wcur = s.wcur + (n + n) ∧ primitive (n + n) s = .next { s₂ with res := s₁.res * 2 ^ n + s₂.res } := by
  obtain ⟨s₁, s₂, first, second, high, low, cur, both⟩ := primitive_add hi (legal_of_upb8 h n) (legal_of_upb8 h n)
  rw [bpu_of_upb8 h, Nat.div_one, Nat.add_assoc] at cur
  exact ⟨s₁, s₂, first, second, high, low, cur, both⟩

/-- Settles O6: RD(2) is RD(1) twice. -/
theorem hnIsTwoBits : Obligations.HnIsTwoBits := by
  unfold Obligations.HnIsTwoBits
  intro s hi
  refine ⟨fun h => ?_, fun h => primitive_refused hi (by rw [bpu_of_upb1 h]; decide)⟩
  obtain ⟨s₁, s₂, first, second, high, low, cur, both⟩ := primitive_double hi h 1
  exact ⟨s₁, s₂, first, second, by omega, cur, both⟩

/-- Settles O7: RD(4) is RD(2) twice. -/
theorem nybIsTwoHns : Obligations.NybIsTwoHns := by
  unfold Obligations.NybIsTwoHns
  intro s hi
  refine ⟨fun h => ?_, fun h => primitive_refused hi (by rw [bpu_of_upb1 h]; decide)⟩
  obtain ⟨s₁, s₂, first, second, high, low, cur, both⟩ := primitive_double hi h 2
  exact ⟨s₁, s₂, first, second, by omega, cur, both⟩

/-! ### A byte of the window -/

theorem consume_byte (s : State) : s.consume 8 = { s with wcur := s.wcur + s.cfg.upb } := by
  rw [State.consume, State.seek, upb_eq]

/-- RD(8) at a byte boundary is that byte. -/
theorem rd_byte_aligned {s : State} (ha : s.bitPos % 8 = 0) (hin : s.bitPos / 8 < s.wlen) :
    rd 8 s = ((s.wbuf.getD (s.bitPos / 8) 0#8).toNat, s.consume 8) := by
  have hp : s.bitPos = 8 * (s.bitPos / 8) := by omega
  rw [rd_inside (by omega), hp, bytesToBits_drop _ _ hin, List.take_left' (toBits_length 8 _),
    ofBits_toBits_of_lt (BitVec.isLt _), ← hp]

/-- RD(8) off a byte boundary is the low bits of one byte and the high bits of the next. -/
theorem rd_byte_unaligned {s : State} (hin : s.bitPos / 8 + 1 < s.wlen) :
    rd 8 s = ((s.wbuf.getD (s.bitPos / 8) 0#8).toNat % 2 ^ (8 - s.bitPos % 8) * 2 ^ (s.bitPos % 8) +
      (s.wbuf.getD (s.bitPos / 8 + 1) 0#8).toNat / 2 ^ (8 - s.bitPos % 8), s.consume 8) := by
  have hk : s.bitPos % 8 < 8 := Nat.mod_lt _ (by decide)
  rw [rd_inside (by omega)]
  nth_rw 1 [← Nat.div_add_mod s.bitPos 8]
  rw [bytesToBits_drop_take (by omega) hin, ofBits_append, ofBits_toBits, ofBits_toBits_take (BitVec.isLt _), List.length_take,
    toBits_length, Nat.min_eq_left (by omega)]

/-- Settles O8: the halves by `primitive_double`, the byte inside the window by its bits, and past the window eight draws. -/
theorem byteIsTwoNybs : Obligations.ByteIsTwoNybs := by
  unfold Obligations.ByteIsTwoNybs
  intro s hi
  have read : exec .byte s = .next ((rd 8 s).2.answer (rd 8 s).1) := primitive_next hi (bpu_dvd8 s)
  refine ⟨fun h => ?halves, fun ha hin => ?aligned, fun _ hin => ?unaligned, fun h hout => ?past⟩
  case halves =>
    obtain ⟨s₁, s₂, first, second, high, low, cur, both⟩ := primitive_double hi h 4
    exact ⟨s₁, s₂, first, second, by omega, cur, both⟩
  case aligned => rw [read, rd_byte_aligned ha hin, consume_byte]; rfl
  case unaligned => rw [read, rd_byte_unaligned hin, consume_byte]; rfl
  case past =>
    have hp : s.wlen ≤ s.bitPos / 8 := by rw [State.bitPos, bpu_of_upb1 h]; omega
    refine ⟨_, read, rd_lt 8 s, ?_⟩
    rw [rd_eq, readBits_outside 7 _ s hp, ovr_set, bpu_of_upb1 h]
    rfl

/-! ### A field as a sum (30_encoding.md R96) -/

/-- Settles O10: inside the window RD reads the stream bits one by one and moves the cursor only. -/
theorem fieldIsSumOfStreamBits : Obligations.FieldIsSumOfStreamBits := by
  unfold Obligations.FieldIsSumOfStreamBits
  intro n s h
  have value : (rd n s).1 = ofBits (readBits n s.bitPos s).1 := rfl
  rw [readBits_eq_map n _ s h, ofBits_map] at value
  exact Prod.ext value (by rw [rd_inside h]; rfl)

end Machine

end Sys2Proof
end

section
/-! SUPPORT. The integer decoders over what the window holds, and in terms of the cursor primitives (41_integer_codec.md R140 to
R144). -/

namespace Sys2Proof.Machine

/-! ### TAGV (41_integer_codec.md R140, R141) -/

theorem tagWidth_le (t : Nat) : tagWidth t ≤ 16 := by
  unfold tagWidth; split_ifs <;> decide

/-- TAGV is a HN and then, where the HN ends, the primitive of the width its value names. -/
theorem exec_tagv {s : State} (hi : s.inited = true) (h : s.cfg.upb = 8) :
    exec .tagv s = primitive (tagWidth (rd 2 s).1) ((rd 2 s).2.answer (rd 2 s).1) := by
  have legal : s.legalField 2 = true := by simp [State.legalField, legal_of_upb8 h]
  rw [primitive_next (by simp [rd_inited, hi]) (legal_of_upb8 (by simp [rd_cfg, h]) _), rd_answer]
  simp only [exec, execTagv]
  rw [whenReady_of hi, legal, whenLegal_true, tagv_def]
  rfl

/-- Settles O11: by `exec_tagv`, the tag being the HN's value. -/
theorem tagvFollowsItsTag : Obligations.TagvFollowsItsTag := by
  unfold Obligations.TagvFollowsItsTag
  intro s hi
  refine ⟨fun h => ?byTag, fun h => ?refused⟩
  case refused =>
    simp only [exec, execTagv]
    rw [whenReady_of hi]
    simp [whenLegal, State.legalField, bpu_of_upb1 h]
  case byTag =>
    have hn : exec .hn s = .next ((rd 2 s).2.answer (rd 2 s).1) := primitive_next hi (legal_of_upb8 h 2)
    have tag : (rd 2 s).1 < 4 := rd_lt 2 s
    have whole := exec_tagv hi h
    generalize hs₁ : (rd 2 s).2.answer (rd 2 s).1 = s₁ at hn whole
    have value : s₁.res = (rd 2 s).1 := by rw [← hs₁]; rfl
    have cur : s₁.wcur = s.wcur + 2 := by rw [← hs₁]; simp [rd_wcur, bpu_of_upb8 h]
    have hi₁ : s₁.inited = true := by rw [← hs₁]; simp [rd_inited, hi]
    have h₁ : s₁.cfg.upb = 8 := by rw [← hs₁]; simp [rd_cfg, h]
    rw [← value] at whole tag
    have second := primitive_next hi₁ (legal_of_upb8 h₁ (tagWidth s₁.res))
    have range : (rd (tagWidth s₁.res) s₁).1 < 65536 :=
      Nat.lt_of_lt_of_le (rd_lt _ _) (Nat.pow_le_pow_right (by decide) (tagWidth_le _))
    have advance (n : Nat) : ((rd n s₁).2.answer (rd n s₁).1).wcur = s.wcur + 2 + n := by
      simp [rd_wcur, bpu_of_upb8 h₁, cur]
    have named (n : Nat) (ht : tagWidth s₁.res = n) :
        primitive n s₁ = .next ((rd (tagWidth s₁.res) s₁).2.answer (rd (tagWidth s₁.res) s₁).1) ∧
          ((rd (tagWidth s₁.res) s₁).2.answer (rd (tagWidth s₁.res) s₁).1).wcur = s.wcur + 2 + n := by
      subst ht; exact ⟨second, advance _⟩
    refine ⟨s₁, _, hn, tag, whole.trans second, range, fun h0 => ?_, fun h1 => ?_, fun h2 => ?_, fun h3 => ?_⟩
    · exact named 2 (by rw [h0]; rfl)
    · exact named 4 (by rw [h1]; rfl)
    · exact named 8 (by rw [h2]; rfl)
    · exact named 16 (by rw [h3]; rfl)

/-! ### READINT (41_integer_codec.md R143) -/

theorem readInt_escRl {s : State} (h : s.cfg.scheme = .escRl) : readInt s = escv s := by
  unfold readInt; rw [h]

theorem readInt_tagRl {s : State} (h : s.cfg.scheme = .tagRl) : readInt s = tagv s := by
  unfold readInt; rw [h]

/-- Settles O13: the scheme's decoder by name, and its contract by the token that it reads. -/
theorem readintIsTheSchemesDecoder : Obligations.ReadintIsTheSchemesDecoder := by
  unfold Obligations.ReadintIsTheSchemesDecoder
  intro s hi
  refine ⟨fun h => ?esc, fun h => ?tag, fun hq => ?contract⟩
  case esc =>
    rw [execReadint_eq hi (by rw [h]; decide), readInt_escRl h]
    exact (whenReady_of hi _).symm
  case tag =>
    have legal : s.legalField 2 = true := by simp [State.legalField, Cfg.bpu, Cfg.upb, h, Scheme.upb]
    rw [execReadint_eq hi (by rw [h]; decide), readInt_tagRl h]
    simp only [exec, execTagv]
    rw [whenReady_of hi, legal, whenLegal_true]
  case contract =>
    obtain ⟨i, k, hwf, hsch, hrun, henc, -, hlt, hstate⟩ := readInt_token s hq
    refine ⟨_, i, execReadint_eq hi hq, hlt, hwf, hsch, hrun, ?_, ?_, ?_⟩
    · rw [hstate, henc, readBits_length]; rfl
    · rw [hstate]; exact (readBits_readOnly k s.bitPos s).2
    · rw [hstate]; rfl

/-! ### Over the bits the window holds -/

/-- Whole units consumed move the bit position by as many bits. -/
theorem bitPos_consume {s : State} {n : Nat} (h : n % s.cfg.bpu = 0) : (s.consume n).bitPos = s.bitPos + n := by
  show (s.wcur + n / s.cfg.bpu) * s.cfg.bpu = s.wcur * s.cfg.bpu + n
  rw [Nat.add_mul, Nat.div_mul_cancel (Nat.dvd_of_mod_eq_zero h)]

/-- Consuming in two parts is consuming at once. -/
theorem consume_consume {s : State} {m : Nat} (h : m % s.cfg.bpu = 0) (n : Nat) :
    (s.consume m).consume n = s.consume (m + n) := by
  show { s with wcur := s.wcur + m / s.cfg.bpu + n / s.cfg.bpu } = { s with wcur := s.wcur + (m + n) / s.cfg.bpu }
  rw [Nat.add_div_of_dvd_right (Nat.dvd_of_mod_eq_zero h), Nat.add_assoc]

theorem holds_left {s : State} {as bs : List Bool} (h : s.holds (as ++ bs)) : s.holds as :=
  (List.prefix_append as bs).trans h

/-- Past the first of the bits it holds, the window holds the rest. -/
theorem holds_consume {s : State} {as bs : List Bool} (h : s.holds (as ++ bs)) (hu : as.length % s.cfg.bpu = 0) :
    (s.consume as.length).holds bs := by
  obtain ⟨tail, ht⟩ := h
  refine ⟨tail, ?_⟩
  rw [bitPos_consume hu, ← List.drop_drop]
  show bs ++ tail = ((bytesToBits s.wbuf).drop s.bitPos).drop as.length
  rw [← ht, List.append_assoc, List.drop_left]

/-- A field that the window holds is read. -/
theorem rd_holds {n v : Nat} {s : State} (hv : v < 2 ^ n) (h : s.holds (toBits n v)) : rd n s = (v, s.consume n) := by
  have read := rd_prefix h
  rwa [toBits_length, ofBits_toBits_of_lt hv] at read

/-- A field and what follows it. -/
theorem rd_holds_append {n v : Nat} {s : State} {bs : List Bool} (hv : v < 2 ^ n) (hu : n % s.cfg.bpu = 0)
    (h : s.holds (toBits n v ++ bs)) : rd n s = (v, s.consume n) ∧ (s.consume n).holds bs := by
  have rest := holds_consume h (by rwa [toBits_length])
  rw [toBits_length] at rest
  exact ⟨rd_holds hv (holds_left h), rest⟩

theorem tagv_holds {t v : Nat} {s : State} (hb : s.cfg.bpu = 1) (ht : t < 4) (hv : v < 2 ^ tagWidth t)
    (h : s.holds (toBits 2 t ++ toBits (tagWidth t) v)) : tagv s = (v, s.consume (2 + tagWidth t)) := by
  obtain ⟨tag, rest⟩ := rd_holds_append ht (by rw [hb, Nat.mod_one]) h
  rw [tagv_def, tag, rd_holds hv rest, consume_consume (by rw [hb, Nat.mod_one])]

theorem escv_holds_short {v : Nat} {s : State} (hv : v < 255) (h : s.holds (toBits 8 v)) : escv s = (v, s.consume 8) := by
  have byte := rd_holds (by omega) h
  simp only [escv, byte, hv, if_true]

theorem escv_holds_escape {v : Nat} {s : State} (hv : v < 2 ^ 16) (h : s.holds (toBits 8 255 ++ toBits 16 v)) :
    escv s = (v, s.consume 24) := by
  obtain ⟨byte, rest⟩ := rd_holds_append (by decide) (bpu_dvd8 s) h
  simp only [escv, byte, Nat.lt_irrefl, if_false]
  rw [rd_holds hv rest, consume_consume (bpu_dvd8 s)]

/-- READINT's decoder over a run token that the window holds. -/
theorem readInt_holds {s : State} {i : Instr} {v : Nat} (hwf : i.wf = true) (hs : i.scheme? = some s.cfg.scheme)
    (hr : i.runLength? = some v) (h : s.holds (encode i)) : readInt s = (v, s.consume (encode i).length) := by
  have tagBpu (e : s.cfg.scheme = .tagRl) : s.cfg.bpu = 1 := by simp [Cfg.bpu, Cfg.upb, e, Scheme.upb]
  cases i <;> cases hr <;> have scheme := (Option.some.inj hs).symm
  case runE8 n =>
    rw [readInt_escRl scheme, encode, toBits_length]
    have := runE8_wf_iff.mp hwf
    exact escv_holds_short (by have := n.isLt; omega) h
  case runE24 n => rw [readInt_escRl scheme]; exact escv_holds_escape n.isLt h
  case runT2 n => rw [readInt_tagRl scheme]; exact tagv_holds (t := 0) (tagBpu scheme) (by decide) n.isLt h
  case runT4 n => rw [readInt_tagRl scheme]; exact tagv_holds (t := 1) (tagBpu scheme) (by decide) n.isLt h
  case runT8 n => rw [readInt_tagRl scheme]; exact tagv_holds (t := 2) (tagBpu scheme) (by decide) n.isLt h
  case runT16 n => rw [readInt_tagRl scheme]; exact tagv_holds (t := 3) (tagBpu scheme) (by decide) n.isLt h

/-- The shortest form of a value carries it (30_encoding.md R102). -/
theorem shortestRun_runLength {sch : Scheme} {v : Nat} {i : Instr} (hv : v ≤ 65535) (h : shortestRun sch v = some i) :
    i.runLength? = some v := by
  have carried {n : Nat} (hn : v < 2 ^ n) : (BitVec.ofNat n v).toNat = v := ofNat_toNat hn
  unfold shortestRun at h
  split at h
  · split_ifs at h <;> cases h <;> exact congrArg some (carried (by omega))
  · split_ifs at h <;> cases h <;> exact congrArg some (carried (by omega))
  · cases h

/-- A scheme that has a run token is a run-length scheme. -/
theorem runLength_scheme {i : Instr} {v : Nat} {sch : Scheme} (hr : i.runLength? = some v) (hs : i.scheme? = some sch) :
    sch ≠ .qt := by
  rintro rfl
  cases i <;> cases hr <;> cases hs

/-- Settles O14: READINT's decoder over the token, which carries `v` in its shortest form too. -/
theorem readintRoundTrip : Obligations.ReadintRoundTrip := by
  unfold Obligations.ReadintRoundTrip
  intro s i v hi hwf hs hv h
  have hr : i.runLength? = some v := hv.elim id fun e => shortestRun_runLength e.1 e.2
  rw [execReadint_eq hi (runLength_scheme hr hs), readInt_holds hwf hs hr h]
  rfl

end Sys2Proof.Machine
end

section
/-! SUPPORT. The window that WLOAD loads, and what WCOMMIT and WRELEASE leave (42_chunk_streamer.md R155 to R163). -/

namespace Sys2Proof.Machine

@[simp] theorem wload_woff (s : State) : (wload s).woff = s.cursor / s.cfg.upb := rfl
@[simp] theorem wload_so (s : State) : (wload s).so = s.cursor % s.cfg.upb := rfl
@[simp] theorem wload_wcur (s : State) : (wload s).wcur = s.cursor % s.cfg.upb := rfl
@[simp] theorem wload_cfg (s : State) : (wload s).cfg = s.cfg := rfl

@[simp] theorem wload_wlen (s : State) : (wload s).wlen = windowLength s.cfg (s.cursor / s.cfg.upb) := loadRange_length s _ _

/-- Byte `j` of the loaded window is the asset's byte that many after the window's offset. -/
theorem wload_wbuf_getElem? {s : State} {j : Nat} (h : j < (wload s).wlen) :
    (wload s).wbuf[j]? = some (memRead s.asset ((wload s).woff + j)) :=
  loadRange_getElem? s _ _ j (by rwa [wload_wlen] at h)

/-- A window that is not empty ends before the asset's last byte (42_chunk_streamer.md R156). -/
theorem windowLength_end {c : Cfg} {woff : Nat} (h : 0 < windowLength c woff) : woff + windowLength c woff ≤ c.assetSize - 1 := by
  unfold windowLength at h ⊢
  omega

theorem windowLength_le (c : Cfg) (woff : Nat) : windowLength c woff ≤ c.assetSize := by
  unfold windowLength
  omega

theorem inWidth_iff {s : State} : s.inWidth = true ↔
    ∀ v ∈ [s.cursor, s.wcur, s.so, s.fc, s.pcnt, s.run, s.woff, s.wlen, s.woff + s.wlen, s.assetSize, s.cfg.assetSize],
      v < 2 ^ s.cfg.cw := by
  simp only [State.inWidth, State.fits, List.all_eq_true, decide_eq_true_eq]

/-- WLOAD makes no value that is larger than the cursor and the asset's size both are. -/
theorem wload_inWidth {s : State} (h : s.inWidth = true) : (wload s).inWidth = true := by
  simp only [inWidth_iff, List.forall_mem_cons] at h ⊢
  obtain ⟨hcur, -, -, hfc, hpcnt, hrun, -, -, -, hsize, hasset, hnil⟩ := h
  have hoff : s.cursor / s.cfg.upb ≤ s.cursor := Nat.div_le_self _ _
  have hso : s.cursor % s.cfg.upb ≤ s.cursor := Nat.mod_le _ _
  have hlen : windowLength s.cfg (s.cursor / s.cfg.upb) ≤ s.cfg.assetSize := windowLength_le _ _
  have hend := windowLength_end (c := s.cfg) (woff := s.cursor / s.cfg.upb)
  simp only [wload_woff, wload_so, wload_wcur, wload_cfg, wload_wlen]
  exact ⟨hcur, by omega, by omega, hfc, hpcnt, hrun, by omega, by omega, by omega, hsize, hasset, hnil⟩

/-- Settles O15: the window registers by `wload`'s lemmas, the range by the clamp's. -/
theorem wloadLoadsClampedWindow : Obligations.WloadLoadsClampedWindow := by
  unfold Obligations.WloadLoadsClampedWindow
  intro s hi
  refine ⟨wload s, execWload_eq hi, rfl, rfl, rfl, rfl, wload_wlen s, fun j hj => wload_wbuf_getElem? hj, fun h => ?range,
    wload_inWidth⟩
  case range =>
    rw [wload_wlen] at h ⊢
    exact windowLength_end h

/-- The loaded window's working cursor stands at the absolute cursor. -/
theorem wload_bitPos (s : State) : (wload s).woff * 8 + (wload s).bitPos = s.cursor * s.cfg.bpu := by
  obtain ⟨hunits, -, -⟩ := upb_bpu s.cfg
  show s.cursor / s.cfg.upb * 8 + s.cursor % s.cfg.upb * s.cfg.bpu = s.cursor * s.cfg.bpu
  calc s.cursor / s.cfg.upb * 8 + s.cursor % s.cfg.upb * s.cfg.bpu
      = (s.cfg.upb * (s.cursor / s.cfg.upb) + s.cursor % s.cfg.upb) * s.cfg.bpu := by rw [← hunits]; ring
    _ = s.cursor * s.cfg.bpu := by rw [Nat.div_add_mod]

/-- A bit of the loaded window is the asset's bit. -/
theorem wload_streamBit {s : State} {p : Nat} (h : p < 8 * (wload s).wlen) :
    streamBit p (wload s) = (s.assetBit ((wload s).woff * 8 + p), wload s) := by
  have byte := wload_wbuf_getElem? (s := s) (j := p / 8) (by omega)
  have hdiv : ((wload s).woff * 8 + p) / 8 = (wload s).woff + p / 8 := by omega
  have hmod : ((wload s).woff * 8 + p) % 8 = p % 8 := by omega
  rw [streamBit_inside h, List.getD_eq_getElem?_getD, byte, State.assetBit, hdiv, hmod, Option.getD_some]

/-- Settles O16: the two facts about `wload` above. -/
theorem windowIsTheAssetAtTheCursor : Obligations.WindowIsTheAssetAtTheCursor := by
  unfold Obligations.WindowIsTheAssetAtTheCursor
  intro s t hi h
  rw [execWload_eq hi] at h
  cases h
  exact ⟨wload_bitPos s, fun p hp => wload_streamBit hp⟩

/-- Settles O17: WCOMMIT in an initialised block. -/
theorem wcommitAdvancesCursor : Obligations.WcommitAdvancesCursor := by
  unfold Obligations.WcommitAdvancesCursor
  intro s hi
  exact whenReady_of hi _

/-- Settles O18: WRELEASE in an initialised block is the release of the window. -/
theorem wreleaseFreesOnlyTheWindow : Obligations.WreleaseFreesOnlyTheWindow := by
  unfold Obligations.WreleaseFreesOnlyTheWindow
  intro s hi
  exact ⟨s.dropWindow, whenReady_of hi _, rfl⟩

end Sys2Proof.Machine
end

section
/-! SUPPORT. What SETFG shows (45_pixel_sink.md R220, R223, R226). -/

namespace Sys2Proof.Machine

/-- SETFG that completes lights its pixel and changes the surface only. -/
theorem exec_setfg_next {s t : State} {x y : Nat} (h : exec (.setfg x y) s = .next t) :
    s.inited = true ∧ setFg x y s = .ok t ∧ t = s.putSurf (memWrite s.surf (pixelKey s.cfg x y) (s.litByte x y)) := by
  simp only [exec, execSetfg, whenReady_next, outcome_next] at h
  exact ⟨h.1, h.2, setFg_ok h.2⟩

/-- A byte other than 00 is read back, whatever the memory's form. -/
theorem memRead_memWrite_nonzero {v : Byte} (hv : v ≠ 0#8) (a : Nat) : ∀ m : Mem, memRead (memWrite m a v) a = v := by
  intro m
  induction m with
  | nil => simp [memWrite, memRead, hv]
  | cons e m ih =>
    obtain ⟨k, w⟩ := e
    rcases Nat.lt_trichotomy a k with hlt | rfl | hgt
    · simp [memWrite, memRead, hlt, hv]
    · simp [memWrite, memRead, hv]
    · simp [memWrite, memRead, Nat.not_lt.mpr hgt.le, hgt.ne, hgt.ne', ih]

/-- A byte with a pixel's bit set is not 00. -/
theorem or_pixelMask_ne_zero (b : Byte) (px : Nat) : b ||| pixelMask px ≠ 0#8 := by
  intro h
  have bit := congrArg (BitVec.getLsbD · (7 - px % 8)) h
  simp [pixelMask_getLsbD (px := px) (k := 7 - px % 8) (by omega)] at bit

theorem pixelByte_packed1 {c : Cfg} (hf : c.surfFmt = .packed1) (x : Nat) : pixelByte c x = (x + c.offX) / 8 := by
  simp only [pixelByte, hf, pixelCol]

theorem litByte_packed1 {s : State} (hf : s.cfg.surfFmt = .packed1) (x y : Nat) :
    s.litByte x y = s.surfByte (pixelRow s.cfg y) (pixelByte s.cfg x) ||| pixelMask (pixelCol s.cfg x) := by
  simp only [State.litByte, hf]

/-- Settles O19: SETFG on a canvas pixel is one store, of the byte read with the pixel's bit set; the memory need not be canonical,
for that byte is not 00. -/
theorem setfgSetsOneBit : Obligations.SetfgSetsOneBit := by
  unfold Obligations.SetfgSetsOneBit
  intro s x y hi hwf hf hx hy
  refine ⟨_, exec_setfg_inside hi hwf hx hy, rfl, ?stored, fun a ha => memRead_memWrite_other _ _ ha⟩
  case stored =>
    have lit : s.litByte x y ≠ 0#8 := by rw [litByte_packed1 hf]; exact or_pixelMask_ne_zero _ _
    have read := memRead_memWrite_nonzero lit (pixelKey s.cfg x y) s.surf
    rw [litByte_packed1 hf, pixelKey, pixelByte_packed1 hf] at read
    rw [litByte_packed1 hf, pixelKey, pixelByte_packed1 hf]
    exact read

/-- A pixel just lit is lit by the byte that its address reads. -/
theorem litByte_lit {s : State} (hm : Mem.wf s.surf = true) (x y : Nat) :
    (s.putSurf (memWrite s.surf (pixelKey s.cfg x y) (s.litByte x y))).litByte x y = s.litByte x y := by
  unfold State.litByte
  cases hf : s.cfg.surfFmt with
  | packed1 =>
    simp only [State.putSurf_cfg, hf, State.surfByte, State.putSurf_surf]
    rw [← pixelKey, memRead_memWrite_same hm, BitVec.or_assoc, BitVec.or_self]
  | indexed8 => simp only [State.putSurf_cfg, hf]

/-- SETFG at a byte that the surface has. -/
theorem setFg_onSurface {s : State} {x y : Nat} (h : s.onSurface (pixelRow s.cfg y) (pixelByte s.cfg x) = true) :
    setFg x y s = .ok (s.putSurf (memWrite s.surf (pixelKey s.cfg x y) (s.litByte x y))) := by
  unfold setFg surfWrite
  rw [if_pos h]
  rfl

/-- SETFG at a byte that the surface does not have (20_memory.md R70). -/
theorem setFg_offSurface {s : State} {x y : Nat} (h : s.onSurface (pixelRow s.cfg y) (pixelByte s.cfg x) = false) :
    setFg x y s = .error .surfaceRange := by
  unfold setFg surfWrite
  rw [h]
  rfl

/-- A pixel lit once is not changed by being lit again (45_pixel_sink.md R226). -/
theorem setFg_again {s t : State} {x y : Nat} (hm : Mem.wf s.surf = true) (h : setFg x y s = .ok t) : setFg x y t = .ok t := by
  have ht := setFg_ok h
  cases hon : s.onSurface (pixelRow s.cfg y) (pixelByte s.cfg x) with
  | false => rw [setFg_offSurface hon] at h; cases h
  | true =>
    have stored := memRead_memWrite_same hm (pixelKey s.cfg x y) (s.litByte x y)
    have written := memWrite_read (memWrite_wf hm (pixelKey s.cfg x y) (s.litByte x y)) (pixelKey s.cfg x y)
    have lit := litByte_lit hm x y
    rw [stored] at written
    rw [← ht] at lit
    rw [setFg_onSurface (by rw [ht]; exact hon), lit, ht]
    exact congrArg (fun m => Except.ok (s.putSurf m)) written

/-- Settles O21: SETFG lights one pixel, and lighting it again writes back what is there. -/
theorem setfgShowsOnePixelOnce : Obligations.SetfgShowsOnePixelOnce := by
  unfold Obligations.SetfgShowsOnePixelOnce
  intro s t x y hm h
  obtain ⟨hi, hok, ht⟩ := exec_setfg_next h
  have hcfg : t.cfg = s.cfg := by rw [ht]; rfl
  have lit : Lit s.cfg (fun x' y' => x' = x ∧ y' = y) s.surf t.surf := by rw [ht]; exact lit_one s x y
  have shows (x' y' : Nat) : t.isFg x' y' = true ↔ s.isFg x' y' = true ∨ (x' = x ∧ y' = y) := by
    rw [isFg_eq, isFg_eq, hcfg]
    exact lit.shows hm x' y'
  refine ⟨?again, (shows x y).mpr (.inr ⟨rfl, rfl⟩), fun x' y' hne => ?others, lit.keeps hcfg hm fun _ _ hp => hp⟩
  case again =>
    rw [execSetfg_eq (by rw [ht]; exact hi), setFg_again hm hok]
    rfl
  case others =>
    rw [Bool.eq_iff_iff, shows]
    exact or_iff_left fun hp => hne (Prod.ext hp.1 hp.2)

end Sys2Proof.Machine
end

section
/-! SUPPORT. What a run token and RLPIXEL do, as operations (43_run_length_decoder.md R180 to R184, R187). -/

namespace Sys2Proof.Machine

/-! ### The pixels of a run (43_run_length_decoder.md R180) -/

/-- What holds of the index of a pixel holds at its row-major index. -/
theorem exists_index_iff {w x y : Nat} (hx : x < w) {P R : Nat → Prop} :
    (∃ j, P j ∧ (x = j % w ∧ y = j / w) ∧ R j) ↔ P (y * w + x) ∧ R (y * w + x) := by
  constructor
  · rintro ⟨j, hp, hxy, hr⟩
    rw [← xy_index hxy]
    exact ⟨hp, hr⟩
  · rintro ⟨hp, hr⟩
    obtain ⟨hmod, hdiv⟩ := index_xy (y := y) hx
    exact ⟨_, hp, ⟨hmod.symm, hdiv.symm⟩, hr⟩

/-- Settles O22: the token's effect cannot fault on a canvas whose PIX has all its entries, and `applyRun_ok` says what it is. -/
theorem runTokenCountsAndFlips : Obligations.RunTokenCountsAndFlips := by
  unfold Obligations.RunTokenCountsAndFlips
  intro i n s hi hwf hpix hw hs hr
  obtain ⟨t, ht⟩ := applyRun_inside (n := n) (s := s.consume (encode i).length) hwf hpix.ge
  obtain ⟨hstate, -⟩ := applyRun_ok ht
  refine ⟨t, ?_, hstate⟩
  rw [exec_run_eq hi hw hr hs, ht]
  rfl

/-- Settles O23: the two halves of `applyRun_ok` about PIX. -/
theorem runTokenTogglesItsPixels : Obligations.RunTokenTogglesItsPixels := by
  unfold Obligations.RunTokenTogglesItsPixels
  intro i n s t hr h j
  obtain ⟨-, -, -, happly⟩ := exec_run_next hr h
  obtain ⟨-, -, covered, others, -⟩ := applyRun_ok happly
  split
  case isTrue hj => exact covered j hj
  case isFalse hj => exact others j hj

/-- Settles O24: the pixels that the token lights are those of the true entries it covers. -/
theorem runTokenShowsItsPixels : Obligations.RunTokenShowsItsPixels := by
  unfold Obligations.RunTokenShowsItsPixels
  intro i n s t hr hm hwf h
  obtain ⟨-, -, -, happly⟩ := exec_run_next hr h
  obtain ⟨hstate, -, -, -, lit⟩ := applyRun_ok happly
  have hcfg : t.cfg = s.cfg := by rw [hstate]; rfl
  simp only [State.consume_cfg, State.consume_pcnt, State.consume_surf] at lit
  refine ⟨fun x y hx hy => ?shows, lit.keeps hcfg hm ?kept, fun a ha => lit.bytes a ?bytes⟩
  case shows =>
    rw [isFg_eq, isFg_eq, hcfg, Bool.eq_iff_iff, lit.shows hm x y, exists_index_iff hx]
    simp only [Bool.or_eq_true, Bool.and_eq_true, decide_eq_true_eq]
  case kept =>
    rintro x y ⟨j, hj, hxy, ht⟩
    obtain ⟨hx, hy⟩ := pixel_of_index hwf (j := j) (by omega)
    rw [← xy_index hxy]
    exact ⟨⟨hxy.1 ▸ hx, hxy.2 ▸ hy⟩, hj, ht⟩
  case bytes =>
    rintro x y ⟨j, hj, ⟨rfl, rfl⟩, -⟩
    exact ha j hj.1 hj.2

/-- A run token of length 0 is well formed: it is not the escape. -/
theorem wf_of_runLength_zero {i : Instr} (h : i.runLength? = some 0) : i.wf = true := by
  cases i <;> try rfl
  case runE8 n => exact runE8_wf_iff.mpr (by have := Option.some.inj h; omega)

/-- Settles O25: a run of no pixels only flips the class. -/
theorem zeroRunOnlyFlips : Obligations.ZeroRunOnlyFlips := by
  unfold Obligations.ZeroRunOnlyFlips
  intro i s hi hs hr
  rw [exec_run_eq hi (wf_of_runLength_zero hr) hr hs, applyRun_zero]
  rfl

/-! ### RLPIXEL (43_run_length_decoder.md R182) -/

/-- RLPIXEL on an entry that PIX has. -/
theorem rlPixel_eq {s : State} {j : Nat} {v : Bool} (h : s.pix[j]? = some v) (c : Bool) :
    rlPixel j c s =
      if xor c v then setFg (j % s.cfg.w) (j / s.cfg.w) (s.putPix j (xor c v)) else .ok (s.putPix j (xor c v)) := by
  obtain ⟨hj, -⟩ := List.getElem?_eq_some_iff.mp h
  unfold rlPixel
  rw [if_pos hj, List.getD_eq_getElem?_getD, h]
  rfl

/-- RLPIXEL at an entry that PIX does not have. -/
theorem rlPixel_outside {s : State} {j : Nat} (h : s.pix.length ≤ j) (c : Bool) : rlPixel j c s = .error .pixelRange := by
  unfold rlPixel
  rw [if_neg (by omega)]

/-- Settles O26: the two cases of `rlPixel_eq`. -/
theorem rlpixelTogglesThenShows : Obligations.RlpixelTogglesThenShows := by
  unfold Obligations.RlpixelTogglesThenShows
  intro s j c v hi hq hwf hpix hv
  obtain ⟨hj, -⟩ := List.getElem?_eq_some_iff.mp hv
  refine ⟨?completes, fun hx => ?unchanged, fun hx => ?changed⟩
  case completes =>
    obtain ⟨t, ht⟩ := rlPixel_inside (c := c) hwf hj (hpix ▸ hj)
    obtain ⟨v', hv', hstate, -⟩ := rlPixel_ok ht
    obtain rfl : v = v' := Option.some.inj (hv.symm.trans hv')
    exact ⟨t, by rw [execRlpixel_eq hi hq, ht]; rfl, hstate⟩
  case unchanged =>
    rw [execRlpixel_eq hi hq, rlPixel_eq hv, hx]
    rfl
  case changed =>
    rw [execRlpixel_eq hi hq, rlPixel_eq hv, hx]
    exact (execSetfg_eq (s := s.putPix j true) hi _ _).symm

/-- RLPIXEL that completes has toggled its entry under a changed token. -/
theorem exec_rlpixel_pix {s t : State} {j : Nat} {c : Bool} (h : exec (.rlpixel j c) s = .next t) :
    ∃ v, s.pix[j]? = some v ∧ t.pix = s.pix.set j (xor c v) := by
  simp only [exec, execRlpixel, whenReady_next, whenScheme_next, outcome_next] at h
  obtain ⟨v, hv, hstate, -⟩ := rlPixel_ok h.2.2
  exact ⟨v, hv, by rw [hstate]⟩

/-- Settles O27: the entry is inverted twice. -/
theorem toggleTwiceRestores : Obligations.ToggleTwiceRestores := by
  unfold Obligations.ToggleTwiceRestores
  intro s t u j h₁ h₂
  obtain ⟨v, hv, ht⟩ := exec_rlpixel_pix h₁
  obtain ⟨v', hv', hu⟩ := exec_rlpixel_pix h₂
  obtain ⟨hj, hval⟩ := List.getElem?_eq_some_iff.mp hv
  obtain rfl : xor true v = v' := by
    rw [ht, List.getElem?_set_self hj] at hv'
    exact Option.some.inj hv'
  rw [hu, ht, List.set_set, Bool.true_xor, Bool.true_xor, Bool.not_not, ← hval, List.set_getElem_self]

end Sys2Proof.Machine
end

section
/-! SUPPORT. RLFRAME over a stream of run tokens, and over any bits at all (43_run_length_decoder.md R180 to R188). -/

namespace Sys2Proof.Machine

/-! ### The rest of a frame -/

/-- A token of the active scheme is a whole number of elementary units. -/
theorem encode_units {i : Instr} {s : State} (h : i.scheme? = some s.cfg.scheme) : (encode i).length % s.cfg.bpu = 0 := by
  rcases bpu_cases s with ⟨hs, -, hb⟩ | ⟨-, -, hb⟩
  · rw [hs] at h
    cases i <;> cases h <;> simp [encode, hb]
  · rw [hb, Nat.mod_one]

/-- The window holds run tokens that make exactly the pixels left of the frame, complete only with the last of them. -/
structure RestOfFrame (s : State) (ts : List Instr) (ns : List Nat) : Prop where
  runs  : s.runs ts ns
  total : s.pcnt + ns.sum = s.cfg.npix
  inner : ∀ k < ns.length, s.pcnt + (ns.take k).sum < s.cfg.npix
  holds : s.holds (ts.flatMap encode)

/-- The rest of a frame begins with a token that READINT reads and that has pixels of its own left. -/
theorem RestOfFrame.head {s : State} {i : Instr} {ts : List Instr} {n : Nat} {ns : List Nat}
    (h : RestOfFrame s (i :: ts) (n :: ns)) :
    s.pcnt < s.cfg.npix ∧ n ≤ s.cfg.npix - s.pcnt ∧ i.scheme? = some s.cfg.scheme ∧
      readInt s = (n, s.consume (encode i).length) := by
  obtain ⟨⟨hlens, htoks⟩, htotal, hinner, hholds⟩ := h
  obtain ⟨hwf, hs⟩ := htoks i List.mem_cons_self
  have hr : i.runLength? = some n := by
    rw [List.map_cons, List.map_cons] at hlens
    exact (List.cons.inj hlens).1
  have hlt := hinner 0 (by simp)
  rw [List.take_zero, List.sum_nil, Nat.add_zero] at hlt
  rw [List.sum_cons] at htotal
  rw [List.flatMap_cons] at hholds
  exact ⟨hlt, by omega, hs, readInt_holds hwf hs hr (holds_left hholds)⟩

/-- Past its first token the rest of a frame is the rest of that frame. -/
theorem RestOfFrame.tail {s u : State} {i : Instr} {ts : List Instr} {n : Nat} {ns : List Nat}
    (h : RestOfFrame s (i :: ts) (n :: ns)) (hcfg : u.cfg = s.cfg) (hbuf : u.wbuf = s.wbuf)
    (hcur : u.wcur = s.wcur + (encode i).length / s.cfg.bpu) (hp : u.pcnt = s.pcnt + n) : RestOfFrame u ts ns := by
  obtain ⟨⟨hlens, htoks⟩, htotal, hinner, hholds⟩ := h
  obtain ⟨-, hs⟩ := htoks i List.mem_cons_self
  rw [List.map_cons, List.map_cons] at hlens
  rw [List.sum_cons] at htotal
  rw [List.flatMap_cons] at hholds
  refine ⟨⟨(List.cons.inj hlens).2, fun j hj => ?_⟩, by rw [hcfg, hp]; omega, fun k hk => ?_, ?_⟩
  · rw [hcfg]
    exact htoks j (List.mem_cons_of_mem _ hj)
  · have := hinner (k + 1) (by simpa using hk)
    rw [List.take_succ_cons, List.sum_cons] at this
    rw [hcfg, hp]
    omega
  · have hrest := holds_consume hholds (encode_units hs)
    have hpos : u.bitPos = (s.consume (encode i).length).bitPos := by
      rw [State.bitPos, State.bitPos, hcfg, hcur]
      rfl
    rw [State.holds, hbuf, hpos]
    exact hrest

/-- Tokens of a frame and their lengths come in pairs. -/
theorem RestOfFrame.length_eq {s : State} {ts : List Instr} {ns : List Nat} (h : RestOfFrame s ts ns) : ts.length = ns.length := by
  simpa using congrArg List.length h.runs.1

/-- The state that the rest of a frame leaves, but for PIX and the surface. -/
def afterRuns (s : State) (ts : List Instr) (ns : List Nat) : State :=
  { s with
    wcur := s.wcur + (ts.flatMap encode).length / s.cfg.bpu, pcnt := s.cfg.npix, cls := xor s.cls (decide (ns.length % 2 = 1)),
    run := ns.getLastD s.run }

theorem xor_parity_succ (c : Bool) (n : Nat) : xor (!c) (decide (n % 2 = 1)) = xor c (decide ((n + 1) % 2 = 1)) := by
  rcases Nat.mod_two_eq_zero_or_one n with h | h <;> cases c <;> simp [h, Nat.add_mod]

/-- The first token and then the rest end where all of them do. -/
theorem afterRuns_cons {s u : State} {i : Instr} {ts : List Instr} {n : Nat} {ns : List Nat} (hs : i.scheme? = some s.cfg.scheme)
    (hu : u = { s with
      wcur := s.wcur + (encode i).length / s.cfg.bpu, run := n, pcnt := s.pcnt + n, cls := !s.cls, pix := u.pix, surf := u.surf }) :
    afterRuns u ts ns = { afterRuns s (i :: ts) (n :: ns) with pix := u.pix, surf := u.surf } := by
  have hlen : (encode i ++ ts.flatMap encode).length / s.cfg.bpu =
      (encode i).length / s.cfg.bpu + (ts.flatMap encode).length / s.cfg.bpu := by
    rw [List.length_append, Nat.add_div_of_dvd_right (Nat.dvd_of_mod_eq_zero (encode_units hs))]
  rw [afterRuns, afterRuns, List.flatMap_cons, hlen, List.length_cons, ← xor_parity_succ, List.getLastD_cons, ← Nat.add_assoc]
  rw [hu]

/-- RLFRAME's loop over the rest of a frame. -/
theorem rlLoop_restOfFrame (ts : List Instr) : ∀ {ns : List Nat} {s : State} {fuel : Nat}, RestOfFrame s ts ns → s.cfg.wf = true →
    s.cfg.npix ≤ s.pix.length → ts.length ≤ fuel →
    ∃ t, rlLoop fuel s = .ok t ∧ t = { afterRuns s ts ns with pix := t.pix, surf := t.surf } ∧
      ∀ j, t.pix[j]? = if s.pcnt ≤ j then (s.pix[j]?).map (xor (runClass s.cls ns (j - s.pcnt))) else s.pix[j]? := by
  induction ts with
  | nil =>
    intro ns s fuel h _ _ _
    obtain rfl : ns = [] := List.length_eq_zero_iff.mp h.length_eq.symm
    have hfull : s.pcnt = s.cfg.npix := by simpa using h.total
    have hend : rlLoop fuel s = .ok s := by cases fuel <;> simp [rlLoop, hfull]
    have unchanged : xor false = id := funext Bool.false_xor
    refine ⟨s, hend, by simp [afterRuns, ← hfull], fun j => ?_⟩
    simp [runClass, unchanged]
  | cons i ts ih =>
    intro ns s fuel h hwf hpix hfuel
    obtain ⟨n, ns, rfl⟩ := List.exists_cons_of_length_eq_add_one h.length_eq.symm
    obtain ⟨fuel, rfl⟩ : ∃ f, fuel = f + 1 := ⟨fuel - 1, by simp at hfuel; omega⟩
    obtain ⟨hlt, hfits, hs, hread⟩ := h.head
    obtain ⟨u, hu⟩ := applyRun_inside (n := n) (s := s.consume (encode i).length) hwf hpix
    obtain ⟨hstate, hulen, covered, others, -⟩ := applyRun_ok hu
    simp only [State.consume_cfg, State.consume_pcnt, State.consume_pix, State.consume_status, State.consume_cls,
      Nat.min_eq_left hfits, Nat.not_lt.mpr hfits, if_false] at hstate hulen covered others
    have hu' : u = { s with
        wcur := s.wcur + (encode i).length / s.cfg.bpu, run := n, pcnt := s.pcnt + n, cls := !s.cls, pix := u.pix,
        surf := u.surf } := hstate
    have hcfg : u.cfg = s.cfg := by rw [hu']
    have hpcnt : u.pcnt = s.pcnt + n := by rw [hu']
    have hcls : u.cls = !s.cls := by rw [hu']
    obtain ⟨t, ht, htstate, htpix⟩ := ih (fuel := fuel) (h.tail hcfg (by rw [hu']) (by rw [hu']) hpcnt) (by rw [hcfg]; exact hwf)
      (by rw [hcfg, hulen]; exact hpix) (by simpa using hfuel)
    refine ⟨t, ?_, ?_, fun j => ?_⟩
    · rw [rlLoop, if_pos hlt, hread]
      simp only [hu, ht]
    · rw [afterRuns_cons hs hu'] at htstate
      exact htstate
    · rw [htpix, hpcnt, hcls, runClass]
      by_cases later : s.pcnt + n ≤ j
      · rw [if_pos later, if_pos (by omega), if_neg (by omega), others j (by omega), Nat.sub_sub]
      · rw [if_neg later]
        by_cases earlier : s.pcnt ≤ j
        · rw [if_pos earlier, if_pos (by omega), covered j (by omega)]
        · rw [if_neg earlier, others j (by omega)]

/-! ### A whole frame -/

/-- Every token has bits, so the window holds no more tokens than bits. -/
theorem length_le_flatMap_encode {sch : Scheme} {ts : List Instr} (h : ∀ i ∈ ts, i.scheme? = some sch) :
    ts.length ≤ (ts.flatMap encode).length := by
  induction ts with
  | nil => exact Nat.le_refl _
  | cons i ts ih =>
    have hi := encode_pos (h i List.mem_cons_self)
    have hts := ih fun j hj => h j (List.mem_cons_of_mem _ hj)
    rw [List.flatMap_cons, List.length_append, List.length_cons]
    omega

theorem holds_length_le {s : State} {bs : List Bool} (h : s.holds bs) : bs.length ≤ 8 * s.wlen := by
  have hlen := List.IsPrefix.length_le h
  rw [List.length_drop, bytesToBits_length] at hlen
  exact Nat.le_trans hlen (Nat.sub_le _ _)

/-- RLFRAME over run tokens that make exactly one frame. -/
theorem rlFrame_oneFrame {s : State} {ts : List Instr} {ns : List Nat} (hwf : s.cfg.wf = true)
    (hpix : s.pix.length = s.cfg.npix) (hr : s.runs ts ns) (hf : s.oneFrame ns) (hh : s.holds (ts.flatMap encode)) :
    ∃ t, rlFrame s = .ok t ∧
      t = { s with
        wcur := s.wcur + (ts.flatMap encode).length / s.cfg.bpu, pcnt := s.cfg.npix, cls := decide (ns.length % 2 = 1),
        run := ns.getLastD 0, pix := t.pix, surf := t.surf } ∧
      ∀ j, t.pix[j]? = (s.pix[j]?).map (xor (runClass false ns j)) := by
  have rest : RestOfFrame (rlStart s) ts ns :=
    ⟨hr, (Nat.zero_add _).trans hf.1, fun k hk => (Nat.zero_add _).trans_lt (hf.2 k hk), hh⟩
  have hfuel : ts.length ≤ s.rlFuel := by
    have hbits := holds_length_le hh
    have htoks := length_le_flatMap_encode fun i hi => (hr.2 i hi).2
    unfold State.rlFuel
    omega
  obtain ⟨t, ht, hstate, htpix⟩ := rlLoop_restOfFrame ts rest hwf hpix.ge hfuel
  have hlast : ns.getLastD (rlStart s).run = ns.getLastD 0 := by
    cases ns with
    | nil =>
      have hempty : 0 = s.cfg.w * s.cfg.h := hf.1
      simp only [Cfg.wf, Bool.and_eq_true, decide_eq_true_eq] at hwf
      have := Nat.mul_pos hwf.1.1.1.1 hwf.1.1.1.2
      omega
    | cons n ns => rw [List.getLastD_cons, List.getLastD_cons]
  refine ⟨t, ht, ?_, fun j => ?_⟩
  · rw [afterRuns, hlast] at hstate
    exact hstate.trans (by simp [rlStart])
  · simpa [rlStart] using htpix j

/-- Settles O28: by `rlFrame_oneFrame`. -/
theorem rlframeDecodesOneFrame : Obligations.RlframeDecodesOneFrame := by
  unfold Obligations.RlframeDecodesOneFrame
  intro s ts ns hi hwf hq hpix hr hf hh
  obtain ⟨t, ht, hstate, htpix⟩ := rlFrame_oneFrame hwf hpix hr hf hh
  exact ⟨t, by rw [execRlframe_eq hi hq, ht]; rfl, hstate, htpix⟩

/-- What RLFRAME can do, whatever bits it reads. -/
theorem rlFrame_ok {s t : State} (hq : s.cfg.scheme ≠ .qt) (h : rlFrame s = .ok t) :
    t.pcnt = s.cfg.npix ∧ t.pix.length = s.pix.length ∧ s.wcur ≤ t.wcur ∧
    t = { s with
      wcur := t.wcur, pcnt := t.pcnt, cls := t.cls, run := t.run, pix := t.pix, status := t.status, surf := t.surf,
      draws := t.draws } ∧
    Lit s.cfg (fun x y => ∃ j, j < s.cfg.npix ∧ (x = j % s.cfg.w ∧ y = j / s.cfg.w) ∧ t.pix.getD j false = true)
      s.surf t.surf := by
  obtain ⟨hfull, hlen, hcur, hstate, -, lit⟩ := rlLoop_ok s.rlFuel (s := rlStart s) hq h (Nat.zero_le _)
  exact ⟨hfull, hlen, hcur, hstate, lit.congr fun x y => by simp [rlStart]⟩

/-- The row-major index of a pixel of the canvas. -/
theorem index_lt {c : Cfg} {x y : Nat} (h : c.onCanvas x y) : y * c.w + x < c.npix :=
  calc y * c.w + x < y * c.w + c.w := Nat.add_lt_add_left h.1 _
    _ = c.w * (y + 1) := by ring
    _ ≤ c.npix := Nat.mul_le_mul_left _ h.2

/-- The pixels that RLFRAME lights are those of the canvas whose entry is true. -/
theorem rlFrame_lit {s t : State} (hq : s.cfg.scheme ≠ .qt) (hwf : s.cfg.wf = true) (h : rlFrame s = .ok t) :
    Lit s.cfg (fun x y => s.cfg.onCanvas x y ∧ t.pix.getD (y * s.cfg.w + x) false = true) s.surf t.surf := by
  obtain ⟨-, -, -, -, lit⟩ := rlFrame_ok hq h
  refine lit.congr fun x y => ⟨?_, fun ⟨⟨hx, hy⟩, ht⟩ => ?_⟩
  · rintro ⟨j, hj, hxy, ht⟩
    obtain ⟨hx, hy⟩ := pixel_of_index hwf hj
    rw [← xy_index hxy]
    exact ⟨⟨hxy.1 ▸ hx, hxy.2 ▸ hy⟩, ht⟩
  · exact (exists_index_iff hx).mpr ⟨index_lt ⟨hx, hy⟩, ht⟩

/-- Settles O29: the loop ends or runs out of fuel by `rlLoop_total`, and `rlFrame_ok` is what it leaves. -/
theorem rlframeConsumesTheFrameOrRunsOut : Obligations.RlframeConsumesTheFrameOrRunsOut := by
  unfold Obligations.RlframeConsumesTheFrameOrRunsOut
  intro s hi hwf hq hpix
  rw [execRlframe_eq hi hq]
  rcases rlLoop_total s.rlFuel (s := rlStart s) hq hwf hpix.ge with hout | ⟨t, ht⟩
  case inl => exact .inl (congrArg outcome hout)
  case inr =>
    have ht : rlFrame s = .ok t := ht
    obtain ⟨hfull, hlen, hcur, hstate, -⟩ := rlFrame_ok hq ht
    have hcfg : t.cfg = s.cfg := by rw [hstate]
    have lit := rlFrame_lit hq hwf ht
    exact .inr ⟨t, congrArg outcome ht, hfull, hlen.trans hpix, hcur, hstate, fun hm => lit.keeps hcfg hm fun _ _ hp => hp.1,
      fun a ha => lit.bytes a fun x y hp => ha x y hp.1.1 hp.1.2⟩

/-- RLFRAME that completes did so past its guards. -/
theorem exec_rlframe_next {s t : State} (h : exec .rlframe s = .next t) :
    s.cfg.scheme ≠ .qt ∧ rlFrame s = .ok t := by
  simp only [exec, execRlframe, whenReady_next, whenScheme_next, outcome_next, bne_iff_ne] at h
  exact h.2

/-- Settles O30: on a pre-cleared surface only the pixels lit are foreground. -/
theorem rlframeShowsPix : Obligations.RlframeShowsPix := by
  unfold Obligations.RlframeShowsPix
  intro s t hwf _ hm hclear h
  obtain ⟨hq, ht⟩ := exec_rlframe_next h
  obtain ⟨-, -, -, hstate, -⟩ := rlFrame_ok hq ht
  have hcfg : t.cfg = s.cfg := by rw [hstate]
  have lit := rlFrame_lit hq hwf ht
  refine ⟨fun x y hx hy => ?_, lit.keeps hcfg hm fun _ _ hp => hp, fun a ha => lit.bytes a fun x y hp => ha x y hp.1.1 hp.1.2⟩
  have hdark : showsFg s.cfg s.surf x y = false := hclear x y hx hy
  rw [isFg_eq, hcfg, Bool.eq_iff_iff, lit.shows hm, hdark]
  exact ⟨fun h => (h.resolve_left Bool.false_ne_true).2, fun ht => .inr ⟨⟨hx, hy⟩, ht⟩⟩

end Sys2Proof.Machine
end

section
/-! SUPPORT. The split geometry, the fill and the quadtree tokens (44_quadtree_decoder.md R202 to R208). -/

namespace Sys2Proof.Machine

/-! ### The four children (44_quadtree_decoder.md R202) -/

/-- A child has the parent's pixels on its side of the two lines that the split draws. -/
theorem tl_covers (r : QNode) (x y : Nat) :
    r.tl.covers x y = (r.covers x y && decide (x < r.x + ceil2 r.w) && decide (y < r.y + ceil2 r.h)) := by
  rw [Bool.eq_iff_iff]
  simp only [Bool.and_eq_true, decide_eq_true_eq, covers_iff, QNode.tl]
  unfold ceil2
  omega

theorem tr_covers (r : QNode) (x y : Nat) :
    r.tr.covers x y = (r.covers x y && !decide (x < r.x + ceil2 r.w) && decide (y < r.y + ceil2 r.h)) := by
  rw [Bool.eq_iff_iff]
  simp only [Bool.and_eq_true, Bool.not_eq_true', decide_eq_true_eq, decide_eq_false_iff_not, covers_iff, QNode.tr]
  unfold ceil2 floor2
  omega

theorem bl_covers (r : QNode) (x y : Nat) :
    r.bl.covers x y = (r.covers x y && decide (x < r.x + ceil2 r.w) && !decide (y < r.y + ceil2 r.h)) := by
  rw [Bool.eq_iff_iff]
  simp only [Bool.and_eq_true, Bool.not_eq_true', decide_eq_true_eq, decide_eq_false_iff_not, covers_iff, QNode.bl]
  unfold ceil2 floor2
  omega

theorem br_covers (r : QNode) (x y : Nat) :
    r.br.covers x y = (r.covers x y && !decide (x < r.x + ceil2 r.w) && !decide (y < r.y + ceil2 r.h)) := by
  rw [Bool.eq_iff_iff]
  simp only [Bool.and_eq_true, Bool.not_eq_true', decide_eq_false_iff_not, covers_iff, QNode.br]
  unfold ceil2 floor2
  omega

/-- Every pixel of a rectangle lies in one of its children, and in one only. -/
theorem children_partition (r : QNode) (x y : Nat) :
    ([r.tl, r.tr, r.bl, r.br].filter fun q => q.covers x y).length = if r.covers x y then 1 else 0 := by
  simp only [List.filter_cons, List.filter_nil, tl_covers, tr_covers, bl_covers, br_covers]
  generalize r.covers x y = inside, decide (x < r.x + ceil2 r.w) = left, decide (y < r.y + ceil2 r.h) = top
  cases inside with
  | false => rfl
  | true => cases left <;> cases top <;> rfl

/-- Settles O31: the sizes by halving, the partition by `children_partition`. -/
theorem splitTilesTheRectangle : Obligations.SplitTilesTheRectangle := by
  unfold Obligations.SplitTilesTheRectangle
  intro r x y
  have halves (v : Nat) : ceil2 v + floor2 v = v := by unfold ceil2 floor2; omega
  exact ⟨halves _, halves _, halves _, halves _, ⟨rfl, rfl, rfl, rfl⟩, ⟨rfl, rfl, rfl, rfl⟩, ⟨rfl, rfl, rfl, rfl⟩,
    ⟨rfl, rfl, rfl, rfl⟩, children_partition r x y⟩

/-! ### The tokens (44_quadtree_decoder.md R204, R207, R208) -/

/-- Where empty children carry a node as others do, every child is decoded (44_quadtree_decoder.md R206). -/
theorem visits_of_noSkip {c : Cfg} (h : c.qtSkipEmpty = false) (q : QNode) : c.visits q = true := by
  simp [Cfg.visits, h]

theorem children_of_noSkip {c : Cfg} (h : c.qtSkipEmpty = false) (r : QNode) : c.children r = [r.tl, r.tr, r.bl, r.br] := by
  simp [Cfg.children, visits_of_noSkip h]

/-- Settles O32: the token takes the rectangle on top and leaves all four children. -/
theorem qsplitPushesTheChildren : Obligations.QsplitPushesTheChildren := by
  unfold Obligations.QsplitPushesTheChildren
  intro s r rest hi hq hskip hstk hd
  have token : exec .qsplit s = splitTop r { s with wcur := s.wcur + 1, qstk := rest, qdepth := r.d } :=
    qtToken_eq hi hq hstk 1 splitTop
  rw [token, splitTop, if_neg (by exact Nat.not_le.mpr hd)]
  simp only [children_of_noSkip hskip]
  rfl

/-- Settles O33: at the limit the token takes QTO. -/
theorem qsplitTooDeepFaults : Obligations.QsplitTooDeepFaults := by
  unfold Obligations.QsplitTooDeepFaults
  intro s r rest hi hq hstk hd
  have token : exec .qsplit s = splitTop r { s with wcur := s.wcur + 1, qstk := rest, qdepth := r.d } :=
    qtToken_eq hi hq hstk 1 splitTop
  rw [splitTop, if_pos hd] at token
  exact ⟨_, token, takeQto_facts _⟩

/-- FILL on a rectangle of the canvas completes and lights its pixels. -/
theorem fillRect_rectangle {s : State} {r : QNode} (hwf : s.cfg.wf = true) (h : s.cfg.inside r = true) :
    ∃ t, fillRect r.x r.w r.h r.y s = .ok t ∧ t = { s with surf := t.surf } ∧
      Lit s.cfg (fun x y => r.covers x y = true) s.surf t.surf := by
  obtain ⟨hx, hy⟩ := inside_iff.mp h
  obtain ⟨t, ht⟩ := fillRect_inside r.h hwf hx hy
  obtain ⟨hstate, lit⟩ := fillRect_ok r.h ht
  exact ⟨t, ht, hstate, lit.congr fun x y => covers_iff.symm⟩

/-- Settles O34: what each leaf does with the rectangle on top. -/
theorem leavesLeaveOrFill : Obligations.LeavesLeaveOrFill := by
  unfold Obligations.LeavesLeaveOrFill
  intro s r rest hi hq hstk
  have fg : exec .qleafFg s =
      outcome (fillRect r.x r.w r.h r.y { s with wcur := s.wcur + 2, qstk := rest, qdepth := r.d }) :=
    qtToken_eq hi hq hstk 2 fun r t => outcome (fillRect r.x r.w r.h r.y t)
  refine ⟨qtToken_eq hi hq hstk 2 fun _ t => .next t, ?fills, fun hwf hin => ?completes⟩
  case fills => rw [fg, execFill_eq (by exact hi)]
  case completes =>
    obtain ⟨t, ht, hstate, -⟩ :=
      fillRect_rectangle (s := { s with wcur := s.wcur + 2, qstk := rest, qdepth := r.d }) hwf hin
    exact ⟨t, by rw [fg, ht]; rfl, hstate⟩

/-! ### FILL (44_quadtree_decoder.md R205) -/

/-- Rows of no pixels change nothing. -/
theorem fillRect_no_width (x : Nat) (s : State) : ∀ h y, fillRect x 0 h y s = .ok s := by
  intro h
  induction h with
  | zero => intro y; rfl
  | succ h ih => intro y; rw [fillRect, fillRow]; exact ih (y + 1)

/-- What a state shows once the pixels of `P` are lit. -/
theorem Lit.isFg_eq_or {s t : State} {P : Nat → Nat → Bool} (h : Lit s.cfg (fun x y => P x y = true) s.surf t.surf)
    (hc : t.cfg = s.cfg) (hm : Mem.wf s.surf = true) (x y : Nat) : t.isFg x y = (s.isFg x y || P x y) := by
  rw [isFg_eq, isFg_eq, hc, Bool.eq_iff_iff, h.shows hm, Bool.or_eq_true]

/-- Settles O35: by `fillRect_rectangle`, and a fill of no rows or of rows of no pixels. -/
theorem fillSetsTheRectangle : Obligations.FillSetsTheRectangle := by
  unfold Obligations.FillSetsTheRectangle
  intro s x y w h hi hwf hm hin
  rw [execFill_eq hi]
  refine ⟨?fills, ?empty⟩
  case fills =>
    obtain ⟨t, ht, hstate, lit⟩ := fillRect_rectangle hwf hin
    have hcfg : t.cfg = s.cfg := by rw [hstate]
    exact ⟨t, congrArg outcome ht, hstate, lit.isFg_eq_or hcfg hm, lit.keeps hcfg hm fun _ _ hp => hp, lit.bytes⟩
  case empty =>
    rintro (rfl | rfl)
    · rw [fillRect_no_width]; rfl
    · rfl

end Sys2Proof.Machine
end

section
/-! SUPPORT. The quadtree decoder over a tree's bits, and over any bits at all (44_quadtree_decoder.md R200 to R209). -/

namespace Sys2Proof.Machine

/-! ### A node by its flag bit (44_quadtree_decoder.md R201) -/

/-- A child as a split decodes it: its node, or nothing where it carries none (44_quadtree_decoder.md R206). -/
def qtChild (n : Nat) (q : QNode) (t : State) : Walk := if t.cfg.visits q then qtNode n q t else .done t

theorem qtChild_of_noSkip {t : State} (h : t.cfg.qtSkipEmpty = false) (n : Nat) (q : QNode) : qtChild n q t = qtNode n q t := by
  rw [qtChild, if_pos (visits_of_noSkip h q)]

/-- The flag bit of a node on `r`. -/
def flagBit (r : QNode) (s : State) : Nat := (rd 1 { s with qdepth := r.d }).1

theorem qtNode_leaf {r : QNode} {s : State} (h : flagBit r s ≠ 1) (n : Nat) : qtNode n r s = qtLeaf r (flagRead r s) := by
  cases n with
  | zero => rw [qtNode]; exact if_neg h
  | succ n => rw [qtNode]; exact if_neg h

theorem qtNode_tooDeep {r : QNode} {s : State} (h : flagBit r s = 1) : qtNode 0 r s = .abort (flagRead r s).takeQto := by
  rw [qtNode]; exact if_pos h

theorem qtNode_split {r : QNode} {s : State} (h : flagBit r s = 1) (n : Nat) :
    qtNode (n + 1) r s =
      (((qtChild n r.tl (flagRead r s)).andThen (qtChild n r.tr)).andThen (qtChild n r.bl)).andThen (qtChild n r.br) := by
  rw [qtNode]; exact if_pos h

/-! ### Over a tree's bits -/

/-- `u` is `s` with `n` bits read from the window under the bit unit and the pixels of `P` lit. -/
structure DrewBits (n : Nat) (P : Nat → Nat → Prop) (s u : State) : Prop where
  frame : u = { s with wcur := s.wcur + n, qdepth := u.qdepth, surf := u.surf }
  lit   : Lit s.cfg P s.surf u.surf

theorem DrewBits.cfg {n : Nat} {P : Nat → Nat → Prop} {s u : State} (h : DrewBits n P s u) : u.cfg = s.cfg := by rw [h.frame]

theorem DrewBits.trans {m n : Nat} {P Q : Nat → Nat → Prop} {s u v : State} (h : DrewBits m P s u) (k : DrewBits n Q u v) :
    DrewBits (m + n) (fun x y => P x y ∨ Q x y) s v := by
  have hwcur : u.wcur = s.wcur + m := by rw [h.frame]
  refine ⟨?_, h.lit.trans (by rw [← h.cfg]; exact k.lit)⟩
  calc v = { u with wcur := u.wcur + n, qdepth := v.qdepth, surf := v.surf } := k.frame
    _ = { s with wcur := s.wcur + (m + n), qdepth := v.qdepth, surf := v.surf } := by
      rw [hwcur, Nat.add_assoc]
      rw [h.frame]

theorem DrewBits.congr {n : Nat} {P Q : Nat → Nat → Prop} {s u : State} (h : DrewBits n P s u) (e : ∀ x y, P x y ↔ Q x y) :
    DrewBits n Q s u := ⟨h.frame, h.lit.congr e⟩

/-- After the first of the bits it holds, the window holds the rest. -/
theorem DrewBits.holds {P : Nat → Nat → Prop} {s u : State} {as bs : List Bool} (h : DrewBits as.length P s u)
    (hb : s.cfg.bpu = 1) (hh : s.holds (as ++ bs)) : u.holds bs := by
  have rest := holds_consume hh (by rw [hb, Nat.mod_one])
  have hpos : u.bitPos = (s.consume as.length).bitPos := by
    have hwcur : u.wcur = s.wcur + as.length := by rw [h.frame]
    rw [bitPos_consume (by rw [hb, Nat.mod_one]), State.bitPos, State.bitPos, h.cfg, hb, hwcur, Nat.mul_one, Nat.mul_one]
  have hbuf : u.wbuf = s.wbuf := by rw [h.frame]
  rw [State.holds, hpos, hbuf]
  exact rest

/-- One bit that the window holds is read. -/
theorem rd_one_holds {s : State} {b : Bool} (hb : s.cfg.bpu = 1) (h : s.holds [b]) :
    rd 1 s = (b.toNat, { s with wcur := s.wcur + 1 }) := by
  have read := rd_prefix h
  rw [List.length_singleton, ofBits_cons, State.consume, hb] at read
  simpa [State.seek] using read

/-- The flag bit of a node that the window holds. -/
theorem flag_holds {r : QNode} {s : State} {b : Bool} {bs : List Bool} (hb : s.cfg.bpu = 1) (h : s.holds (b :: bs)) :
    flagBit r s = b.toNat ∧ DrewBits 1 (fun _ _ => False) s (flagRead r s) := by
  have read := rd_one_holds (s := { s with qdepth := r.d }) hb (holds_left (as := [b]) (bs := bs) h)
  exact ⟨congrArg Prod.fst read, by rw [flagRead, read]; exact ⟨rfl, Lit.none _ _⟩⟩

/-- A configuration under which a tree's bits mean the tree: the bit unit, and a node for every child
(44_quadtree_decoder.md R206). -/
structure ReadsTrees (c : Cfg) : Prop where
  wf     : c.wf = true
  unit   : c.bpu = 1
  noSkip : c.qtSkipEmpty = false

/-- A leaf over its colour bit. -/
theorem qtLeaf_holds {r : QNode} {s : State} {fg : Bool} (hc : ReadsTrees s.cfg) (hin : s.cfg.inside r = true)
    (h : s.holds [fg]) :
    ∃ u, qtLeaf r s = .done u ∧ DrewBits 1 (fun x y => (QTree.leaf fg).foreground r x y = true) s u := by
  have read := rd_one_holds hc.unit h
  simp only [qtLeaf, read, QTree.foreground]
  cases fg with
  | false => exact ⟨_, rfl, rfl, (Lit.none _ _).congr fun x y => by simp⟩
  | true =>
    obtain ⟨u, hu, hstate, lit⟩ := fillRect_rectangle (s := { s with wcur := s.wcur + 1 }) hc.wf hin
    refine ⟨u, by simp [hu, Walk.ofExcept], by rw [hstate], lit.congr fun x y => by simp⟩

/-- A node on any rectangle of the canvas that the depth limit leaves room for decodes the tree whose bits the window holds, and
lights the tree's foreground. -/
def Decodes (tr : QTree) : Prop :=
  ∀ (n : Nat) (r : QNode) (s : State), ReadsTrees s.cfg → s.cfg.inside r = true → tr.depth ≤ n → s.holds tr.bits →
    ∃ u, qtNode n r s = .done u ∧ DrewBits tr.bits.length (fun x y => tr.foreground r x y = true) s u

theorem decodes_leaf (fg : Bool) : Decodes (.leaf fg) := by
  intro n r s hc hin _ hh
  obtain ⟨hflag, drew⟩ := flag_holds (r := r) hc.unit hh
  have hcfg := drew.cfg
  obtain ⟨u, hu, drew'⟩ := qtLeaf_holds (r := r) (fg := fg) (by rw [hcfg]; exact hc) (by rw [hcfg]; exact hin)
    (drew.holds (as := [false]) hc.unit hh)
  exact ⟨u, by rw [qtNode_leaf (by rw [hflag]; decide), hu], (drew.trans drew').congr fun x y => by simp⟩

/-- A child decoded after the bits before it: the drawing goes on, and the window holds the bits after it. -/
theorem Decodes.child {tr : QTree} (ht : Decodes tr) {n : Nat} {q : QNode} {P : Nat → Nat → Prop} {s u : State}
    {as bs : List Bool} (hc : ReadsTrees s.cfg) (hin : s.cfg.inside q = true) (hd : tr.depth ≤ n)
    (hh : s.holds (as ++ (tr.bits ++ bs))) (drew : DrewBits as.length P s u) :
    ∃ v, qtChild n q u = .done v ∧
      DrewBits (as ++ tr.bits).length (fun x y => P x y ∨ tr.foreground q x y = true) s v := by
  have hcfg := drew.cfg
  obtain ⟨v, hv, drew'⟩ := ht n q u (by rw [hcfg]; exact hc) (by rw [hcfg]; exact hin) hd (holds_left (drew.holds hc.unit hh))
  rw [qtChild_of_noSkip (by rw [hcfg]; exact hc.noSkip), List.length_append]
  exact ⟨v, hv, drew.trans drew'⟩

theorem decodes_split {a b c d : QTree} (ha : Decodes a) (hb : Decodes b) (hc : Decodes c) (hd : Decodes d) :
    Decodes (.split a b c d) := by
  intro n r s hcfg hin hdepth hh
  simp only [QTree.depth] at hdepth
  obtain ⟨n, rfl⟩ : ∃ m, n = m + 1 := ⟨n - 1, by omega⟩
  obtain ⟨hflag, drew⟩ := flag_holds (r := r) hcfg.unit hh
  have split := qtNode_split (hflag.trans rfl) n
  have bits : (QTree.split a b c d).bits = [true] ++ a.bits ++ b.bits ++ c.bits ++ d.bits := by
    simp [QTree.bits, List.append_assoc]
  rw [bits] at hh ⊢
  have side {q : QNode} (hq : q = r.tl ∨ q = r.tr ∨ q = r.bl ∨ q = r.br) : s.cfg.inside q = true := child_inside hq hin
  obtain ⟨u₁, h₁, drew₁⟩ := ha.child (as := [true]) (bs := b.bits ++ c.bits ++ d.bits) hcfg (side (.inl rfl)) (n := n) (by omega)
    (by simpa [List.append_assoc] using hh) drew
  obtain ⟨u₂, h₂, drew₂⟩ := hb.child (bs := c.bits ++ d.bits) hcfg (side (.inr (.inl rfl))) (n := n) (by omega)
    (by simpa [List.append_assoc] using hh) drew₁
  obtain ⟨u₃, h₃, drew₃⟩ := hc.child (bs := d.bits) hcfg (side (.inr (.inr (.inl rfl)))) (n := n) (by omega)
    (by simpa [List.append_assoc] using hh) drew₂
  obtain ⟨u₄, h₄, drew₄⟩ := hd.child (bs := []) hcfg (side (.inr (.inr (.inr rfl)))) (n := n) (by omega)
    (by simpa [List.append_assoc] using hh) drew₃
  refine ⟨u₄, ?_, drew₄.congr fun x y => ?_⟩
  · rw [split, h₁]
    simp only [Walk.andThen, h₂, h₃, h₄]
  · simp only [QTree.foreground, Bool.or_eq_true, false_or]

theorem decodes (tr : QTree) : Decodes tr := by
  induction tr with
  | leaf fg => exact decodes_leaf fg
  | split a b c d ha hb hc hd => exact decodes_split ha hb hc hd

/-- Settles O38: by `decodes`, with the tree's foreground inside its rectangle. -/
theorem qtnodeDrawsTheTree : Obligations.QtnodeDrawsTheTree := by
  unfold Obligations.QtnodeDrawsTheTree
  intro s tr x y w h d hi hwf hu hskip hm hin hdepth hh
  obtain ⟨t, ht, drew⟩ := decodes tr (s.cfg.qtMaxDepth - d) ⟨x, y, w, h, d⟩ s ⟨hwf, bpu_of_upb8 hu, hskip⟩ hin hdepth hh
  refine ⟨t, by rw [execQtnode_eq hi hu, ht]; rfl, drew.frame, drew.lit.isFg_eq_or drew.cfg hm,
    drew.lit.keeps drew.cfg hm fun px py hp => ⟨foreground_covers tr _ _ _ hp, hp⟩,
    fun a ha => drew.lit.bytes a fun px py hp => ha px py (foreground_covers tr _ _ _ hp)⟩

/-- QTFRAME over a tree's bits. -/
theorem qtFrame_holds {s : State} {tr : QTree} (hq : s.cfg.scheme = .qt) (hwf : s.cfg.wf = true)
    (hskip : s.cfg.qtSkipEmpty = false) (hdepth : tr.depth ≤ s.cfg.qtMaxDepth) (hh : s.holds tr.bits) :
    ∃ t, qtFrame s = .done t ∧
      DrewBits tr.bits.length (fun x y => tr.foreground s.cfg.root x y = true) { s with qstk := [] } t :=
  decodes tr s.cfg.qtMaxDepth s.cfg.root { s with qstk := [] } ⟨hwf, (qt_scheme hq).2, hskip⟩ (root_inside s.cfg) hdepth hh

/-- Settles O36: QTFRAME is the node of the root; over a tree's bits by `qtFrame_holds`. -/
theorem qtframeDecodesTheCanvas : Obligations.QtframeDecodesTheCanvas := by
  unfold Obligations.QtframeDecodesTheCanvas
  intro s hi hq
  refine ⟨?root, fun tr hwf hskip hm hdepth hh => ?tree⟩
  case root =>
    rw [execQtframe_eq hi hq, execQtnode_eq (s := { s with qstk := [] }) hi (qt_scheme hq).1]
    rfl
  case tree =>
    obtain ⟨t, ht, frame, lit⟩ := qtFrame_holds hq hwf hskip hdepth hh
    have hcfg : t.cfg = s.cfg := by rw [frame]
    exact ⟨t, by rw [execQtframe_eq hi hq, ht]; rfl, frame, Lit.isFg_eq_or (s := s) lit hcfg hm,
      Lit.keeps (s := s) lit hcfg hm fun px py hp => ⟨foreground_onCanvas hp, hp⟩⟩

/-! ### Over any bits (44_quadtree_decoder.md R207) -/

/-- A walk that draws inside a rectangle ends in a next state. -/
theorem Walked.outcome_next {r : QNode} {s : State} {w : Walk} (h : Walked r s w) : ∃ t, w.outcome = .next t := by
  obtain ⟨P, u, hw, -, -⟩ := h
  rcases hw with rfl | rfl
  · exact ⟨u, rfl⟩
  · exact ⟨u.takeQto, rfl⟩

/-- A frame under QT is complete or aborted, whatever its bits are. -/
theorem qtFrame_walked {s : State} (hwf : s.cfg.wf = true) :
    Walked s.cfg.root (flagRead s.cfg.root { s with qstk := [] }) (qtFrame s) :=
  qtNode_walked (s.cfg.qtMaxDepth - s.cfg.root.d) (s := { s with qstk := [] }) hwf (root_inside s.cfg)

/-- A STEP of a block under QT completes. -/
theorem exec_step_qt {s : State} (hi : s.inited = true) (hwf : s.cfg.wf = true) (hq : s.cfg.scheme = .qt)
    (hb : s.busy = false) : ∃ t, exec .step s = .next t := by
  rw [execStep_eq hi hb]
  split
  · exact ⟨s, rfl⟩
  · obtain ⟨P, u, hw, -, -⟩ := qtFrame_walked (s := openStep s) hwf
    rw [wholeFrame_qt (s := openStep s) hq]
    rcases hw with hw | hw
    · exact ⟨closeStep u, by rw [hw]⟩
    · exact ⟨u.takeQto, by rw [hw]⟩

/-- Settles O37: by `qtNode_walked`, the flag bit being consumed in either case. -/
theorem quadtreeAlwaysCompletes : Obligations.QuadtreeAlwaysCompletes := by
  unfold Obligations.QuadtreeAlwaysCompletes
  intro s x y w h d hi hwf hu hin
  refine ⟨?node, fun hq => ⟨?frame, exec_step_qt hi hwf hq⟩⟩
  case frame =>
    rw [execQtframe_eq hi hq]
    exact (qtFrame_walked hwf).outcome_next
  case node =>
    obtain ⟨P, u, hw, drew, hP⟩ := qtNode_walked (s.cfg.qtMaxDepth - d) hwf hin
    have whole := (drew_flag ⟨x, y, w, h, d⟩ s).trans drew
    have hcfg := whole.cfg
    have lit := whole.lit.congr (Q := P) fun px py => by rw [false_or]
    have moved : s.wcur < u.wcur := by
      have flag : (flagRead ⟨x, y, w, h, d⟩ s).wcur = s.wcur + 1 := by
        rw [flagRead, rd_wcur, bpu_of_upb8 (s := { s with qdepth := d }) hu]
      have := drew.wcur
      omega
    have bytes (a : Nat) (ha : ∀ px py, (⟨x, y, w, h, d⟩ : QNode).covers px py = true → a ≠ pixelKey s.cfg px py) :
        memRead u.surf a = memRead s.surf a := lit.bytes a fun px py hp => ha px py (hP px py hp)
    have keeps (hm : Mem.wf s.surf = true) (t : State) (ht : t.cfg = s.cfg) (hs : t.surf = u.surf) :
        s.keepsPixelsBut (fun px py => (⟨x, y, w, h, d⟩ : QNode).covers px py = true) t :=
      Lit.keeps (by rw [hs]; exact lit) ht hm hP
    have frame := whole.frame
    rw [execQtnode_eq hi hu]
    rcases hw with hw | hw
    · refine ⟨u, by rw [hw]; rfl, by rw [frame], by rw [frame], hcfg, by rw [frame], by rw [frame], .inl ?_,
        fun hm => keeps hm u hcfg rfl, bytes⟩
      exact ⟨by rw [frame], by rw [frame], by rw [frame], by rw [frame], by rw [frame], moved⟩
    · refine ⟨u.takeQto, by rw [hw]; rfl, ?_, ?_, hcfg, ?_, ?_, .inr ⟨rfl, rfl, qto_recorded _⟩,
        fun hm => keeps hm u.takeQto hcfg rfl, bytes⟩
      · rw [State.takeQto_cursor, frame]
      · rw [State.takeQto_fc, frame]
      · rw [State.takeQto_pix, frame]
      · rw [State.takeQto_asset, frame]

end Sys2Proof.Machine
end

section
/-! SUPPORT. INIT and RESET as operations, what INIT derives and refuses, and STEP in FAULT (46_player_control.md R241, R246,
R249). -/

namespace Sys2Proof.Machine

/-! ### INIT (46_player_control.md R241) -/

theorem exec_init_ok {s : State} {a : InitArgs} {c : Cfg} (hb : s.busy = false) (h : a.derive s.assetSize = .ok c) :
    exec (.init a) s = .next (initialise c s) := by
  simp only [exec, execInit, hb, h, Bool.false_eq_true, if_false]

theorem exec_init_error {s : State} {a : InitArgs} {d : CfgDefect} (hb : s.busy = false) (h : a.derive s.assetSize = .error d) :
    exec (.init a) s = .refused (.illFormedConfig d) := by
  simp only [exec, execInit, hb, h, Bool.false_eq_true, if_false]

/-- Settles O39: the state INIT establishes, field by field. -/
theorem initEstablishesTheResetState : Obligations.InitEstablishesTheResetState := by
  unfold Obligations.InitEstablishesTheResetState
  intro s a c hb h
  refine ⟨_, exec_init_ok hb h, rfl, rfl, rfl, rfl, rfl, rfl, ?pixels, rfl, rfl, rfl, hb, rfl, rfl⟩
  case pixels => rw [← pixCount_eq]; rfl

/-! ### The configuration derived -/

theorem wf_iff {c : Cfg} : c.wf = true ↔ 0 < c.w ∧ 0 < c.h ∧ 0 < c.nframes ∧ c.w ≤ c.surfW ∧ c.h ≤ c.surfH := by
  simp only [Cfg.wf, Bool.and_eq_true, decide_eq_true_eq, and_assoc]
  rfl

theorem canvas_given {a : InitArgs} (h : a.dimsFromSurface = false) : a.canvas = (a.w, a.h) := by simp [InitArgs.canvas, h]

theorem canvas_surface {a : InitArgs} (h : a.dimsFromSurface = true) : a.canvas = (a.scaled a.surfW, a.scaled a.surfH) := by
  simp [InitArgs.canvas, h]

theorem scaled_plain {a : InitArgs} (h : a.round = false) (side : Nat) : a.scaled side = side := by simp [InitArgs.scaled, h]

theorem scaled_round {a : InitArgs} (h : a.round = true) (side : Nat) : a.scaled side = side * a.roundNum / a.roundDen := by
  simp [InitArgs.scaled, h]

/-- The canvas that `toCfg` writes. -/
theorem toCfg_canvas (a : InitArgs) (size : Nat) (sch : Scheme) :
    (a.toCfg size sch).w = a.canvas.1 ∧ (a.toCfg size sch).h = a.canvas.2 := ⟨rfl, rfl⟩

/-- Settles O40: the legal values by `derive_legal`, the registers by `toCfg`, the depth limit by `ceilLog2_spec`. -/
theorem initDerivesTheConfiguration : Obligations.InitDerivesTheConfiguration := by
  unfold Obligations.InitDerivesTheConfiguration
  intro a size c h
  have legal := derive_legal h
  obtain ⟨hw, hh, hframes, hsurfW, hsurfH⟩ := wf_iff.mp (legal_wf legal)
  have rate := legal_fps legal
  obtain ⟨sch, hsch, rfl, -, hdims, -⟩ := derive_ok h
  obtain ⟨width, height⟩ := toCfg_canvas a size sch
  refine ⟨legal, rate, hframes, hw, hsurfW, hh, hsurfH, rfl, rfl, rfl, rfl, rfl, rfl, rfl, rfl, rfl, rfl, rfl, rfl,
    schemeOfCode_code hsch, surfFmtOfCode_code _, fun hd => ?given, hdims, fun hd hr => ?plain, fun hd hr => ?round,
    fun d hd => ?depth, fun hd => ?defaultDepth⟩
  case given => simp only [width, height, canvas_given hd, and_self]
  case plain => simp only [width, height, canvas_surface hd, scaled_plain hr, and_self]
  case round => simp only [width, height, canvas_surface hd, scaled_round hr, and_self]
  case depth => simp only [InitArgs.toCfg, hd, Option.getD_some]
  case defaultDepth =>
    have limit : (a.toCfg size sch).qtMaxDepth = ceilLog2 (max (a.toCfg size sch).w (a.toCfg size sch).h) := by
      simp only [InitArgs.toCfg, hd, Option.getD_none]
    rw [limit]
    exact ceilLog2_spec _

/-! ### The configurations refused -/

theorem unitOk_of_two {a : InitArgs} (h : a.upb = some 2) : a.unitOk = false := by simp [InitArgs.unitOk, h]

/-- A side of the surface that is 0 gives a canvas side that is 0. -/
theorem scaled_zero (a : InitArgs) : a.scaled 0 = 0 := by simp [InitArgs.scaled]

/-- A scheme has one of three codes, and QT's is 2. -/
theorem scheme_code_lt {n : Nat} {sch : Scheme} (h : schemeOfCode n = some sch) : n < 3 ∧ (sch = .qt → n = 2) := by
  have code := schemeOfCode_code h
  subst code
  cases sch <;> decide

/-- No operands that INIT accepts are among those the spec lists as refused, nor have they a ratio out of range. -/
theorem derive_ok_not_listed {a : InitArgs} {size : Nat} {c : Cfg} (h : a.derive size = .ok c) :
    ¬ (3 ≤ a.schemeCode ∨ a.upb = some 2 ∨ (a.dimsFromSurface = true ∧ a.schemeCode ≠ 2) ∨ a.nframes = 0 ∨ a.fps = 0 ∨
      (a.dimsFromSurface = false ∧ (a.w = 0 ∨ a.h = 0 ∨ a.surfW < a.w ∨ a.surfH < a.h)) ∨
      (a.dimsFromSurface = true ∧ (a.surfW = 0 ∨ a.surfH = 0)) ∨
      (a.dimsFromSurface = true ∧ a.round = true ∧ (a.roundNum = 0 ∨ a.roundDen < a.roundNum))) := by
  obtain ⟨sch, hsch, rfl, hunit, hdims, hratio, hsides, hframes, hrate, hfits⟩ := derive_ok h
  obtain ⟨hcode, hqt⟩ := scheme_code_lt hsch
  obtain ⟨width, height⟩ := toCfg_canvas a size sch
  rw [width, height] at hsides hfits
  rintro (hbad | hbad | ⟨hd, hbad⟩ | hbad | hbad | ⟨hd, hbad⟩ | ⟨hd, hbad⟩ | ⟨hd, hr, hbad⟩)
  · omega
  · rw [unitOk_of_two hbad] at hunit; cases hunit
  · exact hbad (hqt (hdims hd))
  · exact hframes hbad
  · exact hrate hbad
  · rw [canvas_given hd] at hsides hfits
    omega
  · rw [canvas_surface hd] at hsides
    rcases hbad with hbad | hbad
    · exact hsides (.inl (by rw [hbad]; exact scaled_zero a))
    · exact hsides (.inr (by rw [hbad]; exact scaled_zero a))
  · simp only [InitArgs.ratioOk, hd, hr, Bool.and_self, Bool.not_true, Bool.false_or, Bool.and_eq_true, decide_eq_true_eq] at hratio
    omega

/-- Settles O41: INIT refuses what it does not accept, and accepts none of these. -/
theorem initRefusesIllFormed : Obligations.InitRefusesIllFormed := by
  unfold Obligations.InitRefusesIllFormed
  intro s a hb hlisted
  cases hd : a.derive s.assetSize with
  | error d => exact ⟨d, exec_init_error hb hd⟩
  | ok c => exact absurd hlisted (derive_ok_not_listed hd)

/-! ### RESET (46_player_control.md R246) -/

/-- Settles O42: the state after the loop-wrap reset, field by field. -/
theorem resetClearsTheLoop : Obligations.ResetClearsTheLoop := by
  unfold Obligations.ResetClearsTheLoop
  intro s hi
  refine ⟨wrapReset s, whenReady_of hi _, rfl, rfl, rfl, ?pixels, rfl, rfl, rfl, rfl, hi, rfl, rfl, rfl⟩
  case pixels => rw [← pixCount_eq]; rfl

/-! ### STEP in FAULT (46_player_control.md R249) -/

/-- A host's surface write changes the surface only. -/
theorem hostWrite_ok {y c : Nat} {v : Byte} {s t : State} (h : hostWrite y c v s = .ok t) :
    t = s.putSurf (memWrite s.surf (surfKey y c) v) := by
  unfold hostWrite surfWrite at h
  split_ifs at h <;> cases h <;> rfl

theorem beginStep_fault {s : State} (hi : s.inited = true) (hb : s.busy = false) (hp : s.phase = .fault) :
    beginStep s = .next s := by
  unfold beginStep
  rw [whenReady_of hi, hb, hp]
  rfl

theorem beginStep_eq {s : State} (hi : s.inited = true) (hb : s.busy = false) (hp : s.phase ≠ .fault) :
    beginStep s = .next (frameStart (openStep s)) := by
  unfold beginStep
  rw [whenReady_of hi, hb, if_neg hp]
  rfl

/-- Settles O43: STEP in FAULT by its guard; of the other acts the surface write alone changes anything, and not the phase. -/
theorem stepInFaultDoesNothing : Obligations.StepInFaultDoesNothing := by
  unfold Obligations.StepInFaultDoesNothing
  intro s rest hi hb hp
  refine ⟨by rw [execStep_eq hi hb, if_pos hp], ?command, fun t ht hno => ?stays⟩
  case command =>
    rw [step_idle (by exact hb)]
    exact beginStep_fault (s := { s with host := rest }) hi hb hp
  case stays =>
    rw [step_idle hb] at ht
    unfold hostStep at ht
    split at ht
    · cases ht
      exact hp
    · rename_i a acts hhost
      exact absurd hhost (hno a acts)
    · rw [beginStep_fault (by exact hi) (by exact hb) (by exact hp)] at ht
      cases ht
      exact hp
    · rw [hostWrite_ok (outcome_next.mp ht)]
      exact hp

end Sys2Proof.Machine
end

section
/-! SUPPORT. What a quadtree walk can change wherever its rectangle lies, and STEP as an operation (46_player_control.md R242 to
R247). -/

namespace Sys2Proof.Machine

/-! ### STATUS bits stay set (10_state.md R30) -/

/-- Every condition recorded in `s` is recorded in `t`. -/
def Sticky (s t : State) : Prop := ∀ k, s.status.getLsbD k = true → t.status.getLsbD k = true

theorem Sticky.of_eq {s t : State} (h : t.status = s.status) : Sticky s t := fun k hk => by rw [h]; exact hk

theorem Sticky.trans {s t u : State} (h : Sticky s t) (k : Sticky t u) : Sticky s u := fun j hj => k j (h j hj)

theorem Sticky.of_set {s t : State} {c : Condition} (h : t.status = c.set s.status) : Sticky s t := fun k hk => by
  rw [h, Condition.set, BitVec.getLsbD_or, hk, Bool.true_or]

theorem ReadOnly.sticky {s t : State} (h : ReadOnly s t) : Sticky s t := h.2.elim .of_eq .of_set

theorem rd_sticky (n : Nat) (s : State) : Sticky s (rd n s).2 :=
  Sticky.trans (t := s.consume n) (.of_eq rfl) (rd_state n s).sticky

/-! ### A walk that need not complete -/

/-- `u` is `s` with some of a quadtree frame decoded. -/
structure Decoded (s u : State) : Prop where
  drew   : ∃ P, Drew P s u
  sticky : Sticky s u

theorem Decoded.refl (s : State) : Decoded s s := ⟨⟨_, drew_refl s⟩, .of_eq rfl⟩

theorem Decoded.trans {s u v : State} (h : Decoded s u) (k : Decoded u v) : Decoded s v := by
  obtain ⟨⟨P, hdrew⟩, hsticky⟩ := h
  obtain ⟨⟨Q, kdrew⟩, ksticky⟩ := k
  exact ⟨⟨_, hdrew.trans kdrew⟩, hsticky.trans ksticky⟩

theorem decoded_rd (n : Nat) (s : State) : Decoded s (rd n s).2 := ⟨⟨_, drew_rd n s⟩, rd_sticky n s⟩

theorem decoded_flag (r : QNode) (s : State) : Decoded s (flagRead r s) :=
  ⟨⟨_, drew_flag r s⟩, rd_sticky 1 { s with qdepth := r.d }⟩

/-- However a walk from `s` ends, it has decoded some of a frame; an abort is QTO taken after that. -/
def Draws (s : State) : Walk → Prop
  | .done u => Decoded s u
  | .abort t => ∃ u, t = u.takeQto ∧ Decoded s u
  | .stop _ => True

/-- What was decoded before belongs to the walk. -/
theorem Draws.after {s u : State} {w : Walk} (h : Decoded s u) (k : Draws u w) : Draws s w := by
  cases w with
  | done v => exact h.trans k
  | abort t =>
    obtain ⟨v, ht, hv⟩ := k
    exact ⟨v, ht, h.trans hv⟩
  | stop f => trivial

theorem Draws.andThen {s : State} {w : Walk} {k : State → Walk} (h : Draws s w) (hk : ∀ u, Draws u (k u)) :
    Draws s (w.andThen k) := by
  cases w with
  | done u => exact (hk u).after h
  | abort t => exact h
  | stop f => trivial

theorem qtLeaf_draws (r : QNode) (s : State) : Draws s (qtLeaf r s) := by
  refine Draws.after (decoded_rd 1 s) ?_
  unfold qtLeaf
  dsimp only
  split
  · cases hfill : fillRect r.x r.w r.h r.y (rd 1 s).2 with
    | error f => trivial
    | ok u =>
      obtain ⟨hstate, lit⟩ := fillRect_ok r.h hfill
      exact ⟨⟨_, by rw [hstate], by rw [hstate], lit⟩, .of_eq (by rw [hstate])⟩
  · exact Decoded.refl _

theorem qtNode_draws (n : Nat) : ∀ (r : QNode) (s : State), Draws s (qtNode n r s) := by
  induction n with
  | zero =>
    intro r s
    refine Draws.after (decoded_flag r s) ?_
    by_cases hflag : flagBit r s = 1
    · rw [qtNode_tooDeep hflag]
      exact ⟨_, rfl, Decoded.refl _⟩
    · rw [qtNode_leaf hflag]
      exact qtLeaf_draws r _
  | succ n ih =>
    intro r s
    refine Draws.after (decoded_flag r s) ?_
    have child (q : QNode) (u : State) : Draws u (qtChild n q u) := by
      unfold qtChild
      split
      · exact ih q u
      · exact Decoded.refl u
    by_cases hflag : flagBit r s = 1
    · rw [qtNode_split hflag]
      exact (((child r.tl _).andThen (child r.tr)).andThen (child r.bl)).andThen (child r.br)
    · rw [qtNode_leaf hflag]
      exact qtLeaf_draws r _

theorem qtFrame_draws (s : State) : Draws { s with qstk := [] } (qtFrame s) := qtNode_draws _ _ _

/-! ### The frame of a STEP -/

/-- What decoding a whole frame leaves as it was. -/
structure KeepsPlayer (s t : State) : Prop where
  cfg    : t.cfg = s.cfg
  asset  : t.asset = s.asset
  inited : t.inited = s.inited
  host   : t.host = s.host
  res    : t.res = s.res
  cursor : t.cursor = s.cursor
  fc     : t.fc = s.fc

theorem Drew.keepsPlayer {P : Nat → Nat → Prop} {s u : State} (h : Drew P s u) : KeepsPlayer s u := by
  have frame := h.frame
  exact ⟨h.cfg, by rw [frame], by rw [frame], by rw [frame], by rw [frame], by rw [frame], by rw [frame]⟩

theorem rlFrame_keepsPlayer {s t : State} (hq : s.cfg.scheme ≠ .qt) (h : rlFrame s = .ok t) : KeepsPlayer s t := by
  obtain ⟨-, -, -, frame, -⟩ := rlFrame_ok hq h
  exact ⟨by rw [frame], by rw [frame], by rw [frame], by rw [frame], by rw [frame], by rw [frame], by rw [frame]⟩

/-- A frame decoded to its end keeps the player's registers. -/
theorem wholeFrame_done {s t : State} (h : wholeFrame s = .done t) : KeepsPlayer s t := by
  by_cases hq : s.cfg.scheme = .qt
  · have draws := qtFrame_draws s
    rw [← wholeFrame_qt hq, h] at draws
    obtain ⟨P, drew⟩ := draws.drew
    have keeps := drew.keepsPlayer
    exact ⟨keeps.cfg, keeps.asset, keeps.inited, keeps.host, keeps.res, keeps.cursor, keeps.fc⟩
  · rw [wholeFrame_rl hq] at h
    cases hf : rlFrame s with
    | error f => rw [hf] at h; cases h
    | ok u =>
      rw [hf] at h
      cases h
      exact rlFrame_keepsPlayer hq hf

/-- A frame that is not decoded to its end but ends in a state is a quadtree frame that has taken QTO. -/
theorem wholeFrame_abort {s t : State} (h : wholeFrame s = .abort t) :
    s.cfg.scheme = .qt ∧ ∃ u, t = u.takeQto ∧ Decoded { s with qstk := [] } u := by
  by_cases hq : s.cfg.scheme = .qt
  · have draws := qtFrame_draws s
    rw [← wholeFrame_qt hq, h] at draws
    exact ⟨hq, draws⟩
  · rw [wholeFrame_rl hq] at h
    cases hf : rlFrame s with
    | error f => rw [hf] at h; cases h
    | ok u => rw [hf] at h; cases h

/-- How a STEP outside FAULT ends: its frame is decoded and closed, or QTO is taken. -/
theorem exec_step_cases {s t : State} (hp : s.phase ≠ .fault) (h : exec .step s = .next t) :
    (∃ u, wholeFrame (openStep s) = .done u ∧ t = closeStep u) ∨ wholeFrame (openStep s) = .abort t := by
  obtain ⟨hi, hb⟩ := execStep_next h
  rw [execStep_eq hi hb, if_neg hp] at h
  cases hw : wholeFrame (openStep s) with
  | done u => rw [hw] at h; cases h; exact .inl ⟨u, rfl, rfl⟩
  | abort u => rw [hw] at h; cases h; exact .inr rfl
  | stop f => rw [hw] at h; cases h

/-- Settles O44: the two ends of `exec_step_cases`, each with what its frame keeps. -/
theorem stepMovesTheStateMachine : Obligations.StepMovesTheStateMachine := by
  unfold Obligations.StepMovesTheStateMachine
  intro s t hp h
  obtain ⟨hi, -⟩ := execStep_next h
  rcases exec_step_cases hp h with ⟨u, hw, rfl⟩ | hw
  case inl =>
    have keeps := wholeFrame_done hw
    obtain ⟨hcfg, hasset, hinited, hbusy, hhost, hres, -⟩ := closeStep_keeps u
    have counted : s.counted (u.wcur - u.so) (closeStep u) :=
      closeStep_counted keeps.fc keeps.cfg (congrArg (· + (u.wcur - u.so)) keeps.cursor)
    exact ⟨hcfg.trans keeps.cfg, hasset.trans keeps.asset, hinited.trans (keeps.inited.trans hi), hbusy, hhost.trans keeps.host,
      hres.trans keeps.res, .inl ⟨_, counted⟩⟩
  case inr =>
    obtain ⟨hq, u, rfl, ⟨P, drew⟩, -⟩ := wholeFrame_abort hw
    have keeps := drew.keepsPlayer
    have hpix : u.pix = s.pix := by rw [drew.frame]; rfl
    exact ⟨keeps.cfg, keeps.asset, keeps.inited.trans hi, rfl, keeps.host, keeps.res,
      .inr ⟨hq, rfl, keeps.cursor, keeps.fc, hpix, qto_recorded _⟩⟩

/-! ### A frame played from the asset (42_chunk_streamer.md R163) -/

/-- Bits read inside the window are held by it. -/
theorem holds_of_readBits {s : State} {bs : List Bool} (hin : s.bitPos + bs.length ≤ 8 * s.wlen)
    (h : bs = (List.range bs.length).map fun k => (streamBit (s.bitPos + k) s).1) : s.holds bs := by
  rw [← readBits_eq_map _ _ _ hin, readBits_inside _ _ _ hin] at h
  rw [State.holds, List.prefix_iff_eq_take]
  exact h

/-- The bits that the asset holds at the cursor are held by the window that a STEP loads. -/
theorem openStep_holds {s : State} {bs : List Bool} (h : s.plays bs) : (openStep s).holds bs := by
  obtain ⟨hfits, hbits⟩ := h
  have hin : (wload s).bitPos + bs.length ≤ 8 * (wload s).wlen := by
    rw [wload_wlen]
    exact hfits
  show (wload s).holds bs
  refine holds_of_readBits hin ?_
  rw [hbits]
  simp only [List.length_map, List.length_range]
  refine List.map_congr_left fun k hk => ?_
  have hk := List.mem_range.mp hk
  rw [wload_streamBit (by omega), ← Nat.add_assoc, wload_bitPos]

/-- The end of a STEP that began at `s` and consumed `n` units of the window. -/
theorem closeStep_consumed {s u : State} {n : Nat} (hfc : u.fc = s.fc) (hcfg : u.cfg = s.cfg) (hcur : u.cursor = s.cursor)
    (hw : u.wcur = (openStep s).wcur + n) (hso : u.so = (openStep s).so) : s.counted n (closeStep u) := by
  refine closeStep_counted hfc hcfg ?_
  have : (openStep s).wcur = (openStep s).so := rfl
  omega

theorem exec_step_done {s u : State} (hi : s.inited = true) (hb : s.busy = false) (hp : s.phase ≠ .fault)
    (h : wholeFrame (openStep s) = .done u) : exec .step s = .next (closeStep u) := by
  rw [execStep_eq hi hb, if_neg hp, h]

/-- Settles O45: the loaded window holds the tree's bits, QTFRAME draws the tree, and the end of the STEP changes nothing drawn. -/
theorem stepPlaysATree : Obligations.StepPlaysATree := by
  unfold Obligations.StepPlaysATree
  intro s tr hi hb hp hq hwf hskip hm hdepth hplays
  obtain ⟨u, hu, frame, lit⟩ := qtFrame_holds (s := openStep s) hq hwf hskip hdepth (openStep_holds hplays)
  have whole : wholeFrame (openStep s) = .done u := (wholeFrame_qt (s := openStep s) hq).trans hu
  have keeps := wholeFrame_done whole
  obtain ⟨hcfg, -, -, -, -, -, hstatus, hsurf, -⟩ := closeStep_keeps u
  have hcfg : (closeStep u).cfg = s.cfg := hcfg.trans keeps.cfg
  have lit : Lit s.cfg (fun x y => tr.foreground s.cfg.root x y = true) s.surf (closeStep u).surf := by rw [hsurf]; exact lit
  have onCanvas (x y : Nat) (hf : tr.foreground s.cfg.root x y = true) : s.cfg.onCanvas x y := foreground_onCanvas hf
  refine ⟨closeStep u, exec_step_done hi hb hp whole, hstatus.trans (by rw [frame]; rfl), ?counted, lit.isFg_eq_or hcfg hm,
    lit.keeps hcfg hm fun x y hf => ⟨onCanvas x y hf, hf⟩,
    fun a ha => lit.bytes a fun x y hf => ha x y (onCanvas x y hf).1 (onCanvas x y hf).2⟩
  case counted => exact closeStep_consumed keeps.fc keeps.cfg keeps.cursor (by rw [frame]) (by rw [frame])

/-- Settles O46: the loaded window holds the tokens' bits, RLFRAME decodes them, and the end of the STEP changes nothing drawn. -/
theorem stepPlaysARunLengthFrame : Obligations.StepPlaysARunLengthFrame := by
  unfold Obligations.StepPlaysARunLengthFrame
  intro s ts ns hi hb hp hq hwf hpix hm hr hf hplays
  obtain ⟨u, hu, frame, hupix⟩ := rlFrame_oneFrame (s := openStep s) hwf hpix hr hf (openStep_holds hplays)
  have whole : wholeFrame (openStep s) = .done u := by rw [wholeFrame_rl (s := openStep s) hq, hu]; rfl
  have keeps := wholeFrame_done whole
  have hupix : ∀ j, u.pix[j]? = (s.pix[j]?).map (xor (runClass false ns j)) := hupix
  obtain ⟨hcfg, -, -, -, -, -, hstatus, hsurf, -⟩ := closeStep_keeps u
  have hcfg : (closeStep u).cfg = s.cfg := hcfg.trans keeps.cfg
  have entry (x y : Nat) (hc : s.cfg.onCanvas x y) : u.pix.getD (y * s.cfg.w + x) false =
      xor (runClass false ns (y * s.cfg.w + x)) (s.pix.getD (y * s.cfg.w + x) false) := by
    have hj : y * s.cfg.w + x < s.pix.length := hpix ▸ index_lt hc
    rw [List.getD_eq_getElem?_getD, hupix, List.getD_eq_getElem?_getD, List.getElem?_eq_getElem hj]
    rfl
  have lit : Lit s.cfg (fun x y => s.cfg.onCanvas x y ∧
      xor (runClass false ns (y * s.cfg.w + x)) (s.pix.getD (y * s.cfg.w + x) false) = true) s.surf (closeStep u).surf := by
    rw [hsurf]
    refine (rlFrame_lit (s := openStep s) hq hwf hu).congr fun x y => and_congr_right fun hc => ?_
    exact iff_of_eq (congrArg (· = true) (entry x y hc))
  refine ⟨closeStep u, exec_step_done hi hb hp whole, hstatus.trans (by rw [frame]; rfl), ?counted, fun hlast j => ?pixels,
    fun x y hx hy => ?shows, lit.keeps hcfg hm fun _ _ h => h, fun a ha => lit.bytes a fun x y h => ha x y h.1.1 h.1.2⟩
  case counted => exact closeStep_consumed keeps.fc keeps.cfg keeps.cursor (by rw [frame]; rfl) (by rw [frame])
  case pixels => rw [closeStep_pix (by rw [keeps.fc, keeps.cfg]; exact hlast), hupix]
  case shows =>
    have hc : s.cfg.onCanvas x y := ⟨hx, hy⟩
    rw [isFg_eq, isFg_eq, hcfg, Bool.eq_iff_iff, lit.shows hm, Bool.or_eq_true]
    exact or_congr Iff.rfl (and_iff_right hc)

end Sys2Proof.Machine
end

section
/-! SUPPORT. What every instruction but INIT keeps: the configuration, the asset, the host's acts, the conditions recorded and the
foreground of the surface; and which instructions move the cursor (60_exceptions.md R260, 46_player_control.md R250). -/

namespace Sys2Proof.Machine

/-! ### The effect of an instruction -/

/-- What an instruction other than INIT may do at the most. -/
structure Effect (s t : State) : Prop where
  cfg       : t.cfg = s.cfg
  asset     : t.asset = s.asset
  assetSize : t.assetSize = s.assetSize
  host      : t.host = s.host
  sticky    : Sticky s t
  lit       : ∃ P, Lit s.cfg P s.surf t.surf

theorem Effect.trans {s t u : State} (h : Effect s t) (k : Effect t u) : Effect s u := by
  obtain ⟨P, hlit⟩ := h.lit
  obtain ⟨Q, klit⟩ := k.lit
  rw [h.cfg] at klit
  exact ⟨k.cfg.trans h.cfg, k.asset.trans h.asset, k.assetSize.trans h.assetSize, k.host.trans h.host, h.sticky.trans k.sticky,
    _, hlit.trans klit⟩

/-- An effect that also leaves the player's cursor and counter. -/
structure LocalEffect (s t : State) : Prop extends Effect s t where
  cursor : t.cursor = s.cursor
  fc     : t.fc = s.fc

theorem LocalEffect.trans {s t u : State} (h : LocalEffect s t) (k : LocalEffect t u) : LocalEffect s u :=
  ⟨h.toEffect.trans k.toEffect, k.cursor.trans h.cursor, k.fc.trans h.fc⟩

/-- An update of transient registers, of RES, PIX, the phase or the model's own fields. -/
theorem LocalEffect.of_registers {s t : State} (h : t = { t with
    cfg := s.cfg, asset := s.asset, assetSize := s.assetSize, host := s.host, status := s.status, surf := s.surf,
    cursor := s.cursor, fc := s.fc }) : LocalEffect s t := by
  rw [h]
  exact ⟨⟨rfl, rfl, rfl, rfl, .of_eq rfl, _, Lit.none _ _⟩, rfl, rfl⟩

theorem LocalEffect.refl (s : State) : LocalEffect s s := .of_registers rfl

/-! ### Shared operations -/

theorem Decoded.localEffect {s u : State} (h : Decoded s u) : LocalEffect s u := by
  obtain ⟨⟨P, drew⟩, sticky⟩ := h
  have frame := drew.frame
  exact ⟨⟨drew.cfg, by rw [frame], by rw [frame], by rw [frame], sticky, P, drew.lit⟩, by rw [frame], by rw [frame]⟩

theorem rd_localEffect (n : Nat) (s : State) : LocalEffect s (rd n s).2 := (decoded_rd n s).localEffect

theorem answer_localEffect (v : Nat) (s : State) : LocalEffect s (s.answer v) := .of_registers rfl

theorem consume_localEffect (n : Nat) (s : State) : LocalEffect s (s.consume n) := .of_registers rfl

theorem takeQto_localEffect (s : State) : LocalEffect s s.takeQto :=
  ⟨⟨rfl, rfl, rfl, rfl, .of_set rfl, _, Lit.none _ _⟩, rfl, rfl⟩

theorem tagv_localEffect (s : State) : LocalEffect s (tagv s).2 := (rd_localEffect 2 s).trans (rd_localEffect _ _)

theorem escv_localEffect (s : State) : LocalEffect s (escv s).2 := by
  unfold escv
  dsimp only
  split
  · exact rd_localEffect 8 s
  · exact (rd_localEffect 8 s).trans (rd_localEffect 16 _)

theorem readInt_localEffect (s : State) : LocalEffect s (readInt s).2 := by
  unfold readInt
  split
  · exact escv_localEffect s
  · exact tagv_localEffect s
  · exact tagv_localEffect s

theorem setFg_localEffect {x y : Nat} {s t : State} (h : setFg x y s = .ok t) : LocalEffect s t := by
  rw [setFg_ok h]
  exact ⟨⟨rfl, rfl, rfl, rfl, .of_eq rfl, _, lit_one s x y⟩, rfl, rfl⟩

theorem fillRect_localEffect {x y w h : Nat} {s t : State} (hf : fillRect x w h y s = .ok t) : LocalEffect s t := by
  obtain ⟨hstate, lit⟩ := fillRect_ok h hf
  exact ⟨⟨by rw [hstate], by rw [hstate], by rw [hstate], by rw [hstate], .of_eq (by rw [hstate]), _, lit⟩, by rw [hstate],
    by rw [hstate]⟩

theorem rlPixel_localEffect {i : Nat} {c : Bool} {s t : State} (h : rlPixel i c s = .ok t) : LocalEffect s t := by
  obtain ⟨v, -, hstate, lit⟩ := rlPixel_ok h
  exact ⟨⟨by rw [hstate], by rw [hstate], by rw [hstate], by rw [hstate], .of_eq (by rw [hstate]), _, lit⟩, by rw [hstate],
    by rw [hstate]⟩

theorem applyRun_localEffect {n : Nat} {s t : State} (h : applyRun n s = .ok t) : LocalEffect s t := by
  obtain ⟨hstate, -, -, -, lit⟩ := applyRun_ok h
  have sticky : Sticky s t := by
    have hstatus : t.status = if s.cfg.npix - s.pcnt < n then Condition.rlx.set s.status else s.status := by rw [hstate]
    split at hstatus
    · exact .of_set hstatus
    · exact .of_eq hstatus
  exact ⟨⟨by rw [hstate], by rw [hstate], by rw [hstate], by rw [hstate], sticky, _, lit⟩, by rw [hstate], by rw [hstate]⟩

theorem rlLoop_localEffect (n : Nat) : ∀ {s t : State}, rlLoop n s = .ok t → LocalEffect s t := by
  induction n with
  | zero =>
    intro s t h
    unfold rlLoop at h
    split at h <;> cases h
    exact .refl s
  | succ n ih =>
    intro s t h
    unfold rlLoop at h
    split at h
    · split at h
      next u hu => exact (readInt_localEffect s).trans ((applyRun_localEffect hu).trans (ih h))
      · cases h
    · cases h
      exact .refl s

theorem rlFrame_localEffect {s t : State} (h : rlFrame s = .ok t) : LocalEffect s t :=
  LocalEffect.trans (t := rlStart s) (.of_registers rfl) (rlLoop_localEffect _ h)

/-- A walk that ends in a state has done no more than a frame may. -/
theorem Draws.localEffect {s t : State} {w : Walk} (h : Draws s w) (ht : w.outcome = .next t) : LocalEffect s t := by
  cases w with
  | done u =>
    cases ht
    exact Decoded.localEffect h
  | abort u =>
    cases ht
    obtain ⟨v, rfl, hv⟩ := h
    exact hv.localEffect.trans (takeQto_localEffect v)
  | stop f => cases ht

/-! ### Quadtree tokens -/

/-- A quadtree token that completes has worked on the rectangle on top. -/
theorem qtToken_next {w : Nat} {k : QNode → State → Out} {s t : State} (h : qtToken w k s = .next t) :
    ∃ r rest, s.qstk = r :: rest ∧ k r { s with wcur := s.wcur + w, qstk := rest, qdepth := r.d } = .next t := by
  have guards := h
  unfold qtToken at guards
  obtain ⟨hi, hq, htop⟩ := by simpa only [whenReady_next, whenScheme_next, beq_iff_eq] using guards
  cases hstk : s.qstk with
  | nil => simp [onTop, hstk] at htop
  | cons r rest =>
    rw [qtToken_eq hi hq hstk] at h
    exact ⟨r, rest, rfl, h⟩

theorem qtToken_localEffect {w : Nat} {k : QNode → State → Out} {s t : State}
    (hk : ∀ r u v, k r u = .next v → LocalEffect u v) (h : qtToken w k s = .next t) : LocalEffect s t := by
  obtain ⟨r, rest, -, h⟩ := qtToken_next h
  exact LocalEffect.trans (.of_registers rfl) (hk _ _ _ h)

theorem splitTop_localEffect {r : QNode} {s t : State} (h : splitTop r s = .next t) : LocalEffect s t := by
  unfold splitTop at h
  split at h <;> cases h
  · exact takeQto_localEffect s
  · exact .of_registers rfl

/-! ### Every instruction -/

theorem exec_run_localEffect {i : Instr} {n : Nat} {s t : State} (hr : i.runLength? = some n) (h : exec i s = .next t) :
    LocalEffect s t := by
  obtain ⟨-, -, -, happly⟩ := exec_run_next hr h
  exact (consume_localEffect _ s).trans (applyRun_localEffect happly)

theorem primitive_localEffect {n : Nat} {s t : State} (h : primitive n s = .next t) : LocalEffect s t := by
  simp only [primitive, whenReady_next, whenLegal_next, Host.Outcome.next.injEq] at h
  obtain ⟨-, -, rfl⟩ := h
  exact (rd_localEffect n s).trans (answer_localEffect _ _)

/-- Every instruction but the commit and the player's commands leaves the player's cursor and counter. -/
theorem exec_localEffect {i : Instr} {s t : State} (h : exec i s = .next t) (hcommit : i ≠ .wcommit) (hreset : i ≠ .reset)
    (hstep : i ≠ .step) (hinit : ∀ a, i ≠ .init a) : LocalEffect s t := by
  cases i
  case runE8 n => exact exec_run_localEffect rfl h
  case runE24 n => exact exec_run_localEffect rfl h
  case runT2 n => exact exec_run_localEffect rfl h
  case runT4 n => exact exec_run_localEffect rfl h
  case runT8 n => exact exec_run_localEffect rfl h
  case runT16 n => exact exec_run_localEffect rfl h
  case qsplit => exact qtToken_localEffect (fun _ _ _ => splitTop_localEffect) h
  case qleafBg =>
    refine qtToken_localEffect (fun _ u v hv => ?_) h
    cases hv
    exact .refl u
  case qleafFg => exact qtToken_localEffect (fun _ _ _ hv => fillRect_localEffect (outcome_next.mp hv)) h
  case bit => exact primitive_localEffect h
  case hn => exact primitive_localEffect h
  case nyb => exact primitive_localEffect h
  case byte => exact primitive_localEffect h
  case short => exact primitive_localEffect h
  case tagv =>
    simp only [exec, execTagv, whenReady_next, whenLegal_next, Host.Outcome.next.injEq] at h
    obtain ⟨-, -, rfl⟩ := h
    exact (tagv_localEffect s).trans (answer_localEffect _ _)
  case escv =>
    simp only [exec, execEscv, whenReady_next, Host.Outcome.next.injEq] at h
    obtain ⟨-, rfl⟩ := h
    exact (escv_localEffect s).trans (answer_localEffect _ _)
  case readint =>
    simp only [exec, execReadint, whenReady_next, whenScheme_next, Host.Outcome.next.injEq] at h
    obtain ⟨-, -, rfl⟩ := h
    exact (readInt_localEffect s).trans (answer_localEffect _ _)
  case wload =>
    simp only [exec, execWload, whenReady_next, Host.Outcome.next.injEq] at h
    obtain ⟨-, rfl⟩ := h
    exact .of_registers rfl
  case wcommit => exact absurd rfl hcommit
  case wrelease =>
    simp only [exec, execWrelease, whenReady_next, Host.Outcome.next.injEq] at h
    obtain ⟨-, rfl⟩ := h
    exact .of_registers rfl
  case rlframe => exact rlFrame_localEffect (exec_rlframe_next h).2
  case rlpixel j c =>
    simp only [exec, execRlpixel, whenReady_next, whenScheme_next, outcome_next] at h
    exact rlPixel_localEffect h.2.2
  case qtframe =>
    simp only [exec, execQtframe, whenReady_next, whenScheme_next] at h
    exact LocalEffect.trans (.of_registers rfl) ((qtFrame_draws s).localEffect h.2.2)
  case qtnode x y w hh d =>
    simp only [exec, execQtnode, whenReady_next, whenLegal_next] at h
    exact (qtNode_draws _ _ s).localEffect h.2.2
  case fill x y w hh =>
    simp only [exec, execFill, whenReady_next, outcome_next] at h
    exact fillRect_localEffect h.2
  case setfg x y => exact setFg_localEffect (exec_setfg_next h).2.1
  case init a => exact absurd rfl (hinit a)
  case step => exact absurd rfl hstep
  case reset => exact absurd rfl hreset

theorem wcommit_effect (s : State) : Effect s (wcommit s) := ⟨rfl, rfl, rfl, rfl, .of_eq rfl, _, Lit.none _ _⟩

theorem wrapReset_effect (s : State) : Effect s (wrapReset s) := ⟨rfl, rfl, rfl, rfl, .of_eq rfl, _, Lit.none _ _⟩

theorem closeStep_effect (s : State) : Effect s (closeStep s) := by
  obtain ⟨hcfg, hasset, -, -, hhost, -, hstatus, hsurf, hsize⟩ := closeStep_keeps s
  exact ⟨hcfg, hasset, hsize, hhost, .of_eq hstatus, _, by rw [hsurf]; exact Lit.none _ _⟩

theorem wholeFrame_localEffect {s t : State} (h : (wholeFrame s).outcome = .next t) : LocalEffect s t := by
  by_cases hq : s.cfg.scheme = .qt
  · rw [wholeFrame_qt hq] at h
    exact LocalEffect.trans (.of_registers rfl) ((qtFrame_draws s).localEffect h)
  · rw [wholeFrame_rl hq] at h
    cases hf : rlFrame s with
    | error f => rw [hf] at h; cases h
    | ok u =>
      rw [hf] at h
      cases h
      exact rlFrame_localEffect hf

theorem exec_step_effect {s t : State} (h : exec .step s = .next t) : Effect s t := by
  have opened : Effect s (openStep s) := (LocalEffect.of_registers rfl : LocalEffect s (openStep s)).toEffect
  by_cases hp : s.phase = .fault
  · obtain ⟨hi, hb⟩ := execStep_next h
    rw [execStep_eq hi hb, if_pos hp] at h
    cases h
    exact (LocalEffect.refl s).toEffect
  · rcases exec_step_cases hp h with ⟨u, hw, rfl⟩ | hw
    · exact (opened.trans (wholeFrame_localEffect (by rw [hw]; rfl)).toEffect).trans (closeStep_effect u)
    · exact opened.trans (wholeFrame_localEffect (by rw [hw]; rfl)).toEffect

/-- Every instruction but INIT has an effect of the kind above. -/
theorem exec_effect {i : Instr} {s t : State} (h : exec i s = .next t) (hinit : ∀ a, i ≠ .init a) : Effect s t := by
  by_cases hcommit : i = .wcommit
  · subst hcommit
    simp only [exec, execWcommit, whenReady_next, Host.Outcome.next.injEq] at h
    rw [← h.2]
    exact wcommit_effect s
  by_cases hreset : i = .reset
  · subst hreset
    simp only [exec, execReset, whenReady_next, Host.Outcome.next.injEq] at h
    rw [← h.2]
    exact wrapReset_effect s
  by_cases hstep : i = .step
  · subst hstep
    exact exec_step_effect h
  exact (exec_localEffect h hcommit hreset hstep hinit).toEffect

/-- INIT that completes establishes a configuration derived from its operands. -/
theorem exec_init_next {a : InitArgs} {s t : State} (h : exec (.init a) s = .next t) :
    s.busy = false ∧ ∃ c, a.derive s.assetSize = .ok c ∧ t = initialise c s := by
  simp only [exec, execInit] at h
  split at h
  · cases h
  next hb =>
    refine ⟨by simpa using hb, ?_⟩
    cases hd : a.derive s.assetSize with
    | error d => rw [hd] at h; cases h
    | ok c => rw [hd] at h; cases h; exact ⟨c, rfl, rfl⟩

/-- Settles O47: by `exec_localEffect`. -/
theorem onlyCommitAndResetsMoveCursor : Obligations.OnlyCommitAndResetsMoveCursor := by
  unfold Obligations.OnlyCommitAndResetsMoveCursor
  intro i s t h hcommit hreset hstep hinit
  have effect := exec_localEffect h hcommit hreset hstep hinit
  exact ⟨effect.cursor, effect.fc⟩

/-- Settles O48: by `exec_effect`. -/
theorem onlyInitClearsStatus : Obligations.OnlyInitClearsStatus := by
  unfold Obligations.OnlyInitClearsStatus
  intro i s t h hinit k _ hk
  exact (exec_effect h hinit).sticky k hk

/-- Settles O49: by `exec_effect`, and INIT touches neither the asset nor its size. -/
theorem assetAndConfigurationAreReadOnly : Obligations.AssetAndConfigurationAreReadOnly := by
  unfold Obligations.AssetAndConfigurationAreReadOnly
  intro i s t h
  by_cases hinit : ∃ a, i = .init a
  · obtain ⟨a, rfl⟩ := hinit
    obtain ⟨-, c, -, rfl⟩ := exec_init_next h
    exact ⟨rfl, rfl, fun hno => absurd rfl (hno a)⟩
  · have effect := exec_effect h fun a ha => hinit ⟨a, ha⟩
    exact ⟨effect.asset, effect.assetSize, fun _ => effect.cfg⟩

/-- Settles O50: whatever pixels an instruction lights, those lit before stay lit. -/
theorem foregroundIsNeverErased : Obligations.ForegroundIsNeverErased := by
  unfold Obligations.ForegroundIsNeverErased
  intro i s t hm h hinit
  have effect := exec_effect h hinit
  obtain ⟨P, lit⟩ := effect.lit
  refine ⟨lit.wf hm, fun x y hfg => ?_⟩
  rw [isFg_eq, effect.cfg, lit.shows hm]
  exact .inl hfg

end Sys2Proof.Machine
end

section
/-! SUPPORT. Where instructions have no meaning and where they stop, by name (10_state.md R36, 40_bitcursor.md R126,
20_memory.md R70). -/

namespace Sys2Proof.Machine

theorem whenReady_not {s : State} (h : s.inited = false) (k : Out) : whenReady s k = .refused .beforeInit := by
  unfold whenReady
  rw [h]
  rfl

theorem whenScheme_false (k : Out) : whenScheme false k = .refused .wrongScheme := rfl

/-- A well-formed instruction other than INIT is refused before the first INIT. -/
theorem exec_beforeInit {i : Instr} {s : State} (hwf : i.wf = true) (h : s.inited = false) (hinit : ∀ a, i ≠ .init a) :
    exec i s = .refused .beforeInit := by
  cases i
  case runE8 n =>
    have hn : n ≠ 0xFF#8 := by simpa [Instr.wf] using hwf
    simp only [exec, execRunE8, if_neg hn]
    exact whenReady_not h _
  case init a => exact absurd rfl (hinit a)
  all_goals exact whenReady_not h _

/-- A well-formed token is guarded by its scheme. -/
theorem exec_token {i : Instr} {sch : Scheme} {s : State} (hwf : i.wf = true) (hs : i.scheme? = some sch) :
    ∃ k, exec i s = whenReady s (whenScheme (s.cfg.scheme == sch) k) := by
  cases i <;> cases hs
  case runE8 n =>
    have hn : n ≠ 0xFF#8 := by simpa [Instr.wf] using hwf
    exact ⟨_, if_neg hn⟩
  all_goals exact ⟨_, rfl⟩

/-- Settles O51: the guards, each where it fails. -/
theorem refusedBeforeInitAndOutsideTheScheme : Obligations.RefusedBeforeInitAndOutsideTheScheme := by
  unfold Obligations.RefusedBeforeInitAndOutsideTheScheme
  intro i s hwf
  refine ⟨exec_beforeInit hwf, fun hi sch hs hne => ?token, fun hi hq => ?underQt, fun hi hq => ?qtframe⟩
  case token =>
    obtain ⟨k, hk⟩ := exec_token (s := s) hwf hs
    rw [hk, whenReady_of hi, beq_false_of_ne hne.symm, whenScheme_false]
  case underQt =>
    have refused (k : Out) : whenReady s (whenScheme (s.cfg.scheme != .qt) k) = .refused .wrongScheme := by
      rw [whenReady_of hi, hq]
      rfl
    exact ⟨refused _, refused _, fun j c => refused _⟩
  case qtframe =>
    simp only [exec, execQtframe]
    rw [whenReady_of hi, beq_false_of_ne hq, whenScheme_false]

/-- A quadtree token with no rectangle pending (44_quadtree_decoder.md R208). -/
theorem qtToken_noRectangle {s : State} (hi : s.inited = true) (hq : s.cfg.scheme = .qt) (h : s.qstk = []) (w : Nat)
    (k : QNode → State → Out) : qtToken w k s = .refused .noRectangle := by
  simp [qtToken, whenReady_of hi, hq, onTop, h]

/-- Settles O52: each stop by the guard or the bound that raises it. -/
theorem stopsOutsideTheDomain : Obligations.StopsOutsideTheDomain := by
  unfold Obligations.StopsOutsideTheDomain
  intro s hi
  refine ⟨fun x y hoff => ?setfg, fun j c hq hj => ?rlpixel, fun i hs hq hstk => ?token, rfl, fun hb => ⟨?step, fun a => ?init⟩⟩
  case setfg => rw [execSetfg_eq hi, setFg_offSurface hoff]; rfl
  case rlpixel => rw [execRlpixel_eq hi hq, rlPixel_outside hj]; rfl
  case token => cases i <;> cases hs <;> exact qtToken_noRectangle hi hq hstk _ _
  case step => simp only [exec, execStep]; rw [whenReady_of hi, if_pos hb]
  case init => simp only [exec, execInit]; rw [if_pos hb]

end Sys2Proof.Machine
end

section
/-! SUPPORT. The fetch: the token it finds is the one whose encoding is the bits read, and no other (30_encoding.md R97, R98). -/

namespace Sys2Proof

/-- No token of a scheme begins with another of it: the stream is self-delimiting (30_encoding.md R97). -/
theorem encode_prefix_free {i j : Instr} {sch : Scheme} (hi : i.wf = true) (hsi : i.scheme? = some sch) (hj : j.wf = true)
    (hsj : j.scheme? = some sch) (h : encode i <+: encode j) : i = j := by
  obtain ⟨rest, hrest⟩ := h
  have short := decodeInvertsEncode i sch rest hi hsi
  have long := decodeInvertsEncode j sch [] hj hsj
  rw [List.append_nil, ← hrest, short] at long
  exact congrArg Prod.fst (Except.ok.inj long)

namespace Machine

/-! ### Bits read one at a time -/

theorem readBits_one (p : Nat) (s : State) : readBits 1 p s = ([(streamBit p s).1], (streamBit p s).2) := rfl

theorem readBits_snoc (m p : Nat) (s : State) :
    readBits (m + 1) p s =
      ((readBits m p s).1 ++ [(streamBit (p + m) (readBits m p s).2).1], (streamBit (p + m) (readBits m p s).2).2) := by
  rw [readBits_add, readBits_one]

/-- The first `k` of the bits read are the `k` bits read. -/
theorem readBits_prefix {k m : Nat} (h : k ≤ m) (p : Nat) (s : State) : (readBits k p s).1 <+: (readBits m p s).1 := by
  obtain ⟨d, rfl⟩ := Nat.exists_eq_add_of_le h
  rw [readBits_add]
  exact List.prefix_append _ _

/-- As many bits as the longest token of the scheme has decode. -/
theorem decode_longest (sch : Scheme) {bs : List Bool} (h : 24 ≤ bs.length) : ∃ i rest, decode sch bs = .ok (i, rest) := by
  obtain ⟨i, rest, hdec, -⟩ := everyBitPatternDecodes sch bs (by cases sch <;> dsimp only <;> omega)
  exact ⟨i, rest, hdec⟩

/-- A decoded list of bits none of whose shorter beginnings decodes is one token's encoding. -/
theorem encode_of_first_decode {sch : Scheme} {bs rest : List Bool} {i : Instr} (h : decode sch bs = .ok (i, rest))
    (first : ∀ cs, cs <+: bs → cs.length < bs.length → ∀ r, decode sch cs ≠ .ok r) :
    i.wf = true ∧ i.scheme? = some sch ∧ encode i = bs := by
  obtain ⟨hwf, hs, hbits⟩ := encodeInvertsDecode sch bs rest i h
  refine ⟨hwf, hs, ?_⟩
  have own := decodeInvertsEncode i sch [] hwf hs
  rw [List.append_nil] at own
  by_contra hne
  have hlen : (encode i).length < bs.length := by
    rw [← hbits, List.length_append]
    have : rest ≠ [] := fun e => hne (by rw [← hbits, e, List.append_nil])
    have := List.length_pos_iff.mpr this
    omega
  exact first _ ⟨rest, hbits⟩ hlen _ own

theorem ReadOnly.bitPos {s t : State} (h : ReadOnly s t) : t.bitPos = s.bitPos := by
  rw [State.bitPos, State.bitPos, h.cfg, h.wcur]

/-- The fetch that has read `m` bits, none of whose beginnings decodes, finds the token that they begin. -/
theorem fetchFrom_spec (n : Nat) : ∀ (m : Nat) (s : State), 24 < n + m → m ≤ 24 →
    (∀ k < m, ∀ r, decode s.cfg.scheme (readBits k s.bitPos s).1 ≠ .ok r) →
    ∃ i k, fetchFrom n (readBits m s.bitPos s).1 (readBits m s.bitPos s).2 = some (i, (readBits k s.bitPos s).2) ∧
      i.wf = true ∧ i.scheme? = some s.cfg.scheme ∧ encode i = (readBits k s.bitPos s).1 := by
  induction n with
  | zero => intro m s hn hm _; omega
  | succ n ih =>
    intro m s hn hm undecoded
    have hcfg := (readBits_readOnly m s.bitPos s).cfg
    have hpos := (readBits_readOnly m s.bitPos s).bitPos
    unfold fetchFrom
    rw [hcfg]
    cases hdec : decode s.cfg.scheme (readBits m s.bitPos s).1 with
    | ok r =>
      obtain ⟨i, rest⟩ := r
      obtain ⟨hwf, hs, henc⟩ := encode_of_first_decode hdec fun cs hcs hlen r => by
        rw [readBits_length] at hlen
        have hbits : cs = (readBits cs.length s.bitPos s).1 := by
          have := List.prefix_of_prefix_length_le hcs (readBits_prefix hlen.le s.bitPos s) (by simp)
          exact this.eq_of_length (by simp)
        rw [hbits]
        exact undecoded _ hlen r
      exact ⟨i, m, rfl, hwf, hs, henc⟩
    | error e =>
      have more : m < 24 := by
        by_contra hge
        obtain ⟨i, rest, hok⟩ := decode_longest s.cfg.scheme (bs := (readBits m s.bitPos s).1) (by rw [readBits_length]; omega)
        rw [hok] at hdec
        cases hdec
      obtain ⟨i, k, hfetch, found⟩ := ih (m + 1) s (by omega) (by omega) fun k hk r => by
        rcases Nat.lt_succ_iff_lt_or_eq.mp hk with hk | rfl
        · exact undecoded k hk r
        · rw [hdec]; exact fun h => by cases h
      refine ⟨i, k, ?_, found⟩
      rw [readBits_snoc] at hfetch
      simpa only [hpos, readBits_length] using hfetch

/-- The fetch finds a well-formed token of the scheme whose encoding is the bits read. -/
theorem fetch_spec (s : State) : ∃ i k, fetch s = some (i, (readBits k s.bitPos s).2) ∧ i.wf = true ∧
    i.scheme? = some s.cfg.scheme ∧ encode i = (readBits k s.bitPos s).1 :=
  fetchFrom_spec 25 0 s (by decide) (by decide) fun k hk => absurd hk (Nat.not_lt_zero k)

/-- A token whose encoding is the bits at the working cursor is the token that the fetch finds. -/
theorem fetch_eq {s : State} {i : Instr} (hwf : i.wf = true) (hs : i.scheme? = some s.cfg.scheme)
    (h : encode i = (readBits (encode i).length s.bitPos s).1) :
    fetch s = some (i, (readBits (encode i).length s.bitPos s).2) := by
  obtain ⟨j, k, hfetch, hwfj, hsj, henc⟩ := fetch_spec s
  have hk : k = (encode j).length := by rw [henc, readBits_length]
  have same : i = j := by
    rcases Nat.le_total (encode i).length k with hle | hle
    · exact encode_prefix_free hwf hs hwfj hsj (by rw [h, henc]; exact readBits_prefix hle _ _)
    · exact (encode_prefix_free hwfj hsj hwf hs (by rw [h, henc]; exact readBits_prefix hle _ _)).symm
  rw [hfetch, same, hk]

/-! ### The machine's step on a token -/

theorem step_fetched {s t : State} {i : Instr} (hb : s.busy = true) (hd : s.frameDone = false) (h : fetch s = some (i, t)) :
    step s = exec i t := by
  unfold Machine.step
  rw [if_pos hb, hd, h]
  rfl

/-- The machine's step where the bits at the working cursor are a token's. -/
theorem step_token {s : State} {i : Instr} (hb : s.busy = true) (hd : s.frameDone = false) (hwf : i.wf = true)
    (hs : i.scheme? = some s.cfg.scheme) (h : encode i = (readBits (encode i).length s.bitPos s).1) :
    step s = exec i (readBits (encode i).length s.bitPos s).2 := step_fetched hb hd (fetch_eq hwf hs h)

/-- Bits that the window holds are read without a change. -/
theorem readBits_holds {s : State} {bs : List Bool} (h : s.holds bs) : readBits bs.length s.bitPos s = (bs, s) := by
  by_cases hempty : bs = []
  · subst hempty; rfl
  · have hlen := List.IsPrefix.length_le h
    rw [List.length_drop, bytesToBits_length] at hlen
    have hpos := List.length_pos_iff.mpr hempty
    rw [readBits_inside _ _ _ (by unfold State.wlen; omega), ← List.prefix_iff_eq_take.mp h]

/-- Settles O53: the bits held are the bits read, and reading them changes nothing. -/
theorem stepRunsTheFetchedToken : Obligations.StepRunsTheFetchedToken := by
  unfold Obligations.StepRunsTheFetchedToken
  intro s i hb hd hwf hs hh
  have read := readBits_holds hh
  have step := step_token hb hd hwf hs (by rw [read])
  rwa [read] at step

/-- The machine's step on a frame not complete is exec of a token of the scheme. -/
theorem step_busy {s : State} (hb : s.busy = true) (hd : s.frameDone = false) :
    ∃ i u, i.wf = true ∧ i.scheme? = some s.cfg.scheme ∧ step s = exec i u ∧ ReadOnly s u := by
  obtain ⟨i, k, hfetch, hwf, hs, -⟩ := fetch_spec s
  exact ⟨i, _, hwf, hs, step_fetched hb hd hfetch, readBits_readOnly k s.bitPos s⟩

/-- Settles O54: by `step_busy`. -/
theorem stepAlwaysFindsAToken : Obligations.StepAlwaysFindsAToken := by
  unfold Obligations.StepAlwaysFindsAToken
  intro s hb hd
  obtain ⟨i, u, hwf, hs, hstep, hstate, hstatus⟩ := step_busy hb hd
  exact ⟨i, u, hwf, hs, hstep, hstate, hstatus⟩

/-! ### The host (46_player_control.md R248, 60_exceptions.md R268) -/

/-- A token is not INIT. -/
theorem token_ne_init {i : Instr} {sch : Scheme} (h : i.scheme? = some sch) (a : InitArgs) : i ≠ .init a := by
  rintro rfl
  cases h

/-- The machine's step on a STEP in progress closes it or has the effect of a token. -/
theorem step_busy_effect {s t : State} (hb : s.busy = true) (h : step s = .next t) : Effect s t := by
  cases hd : s.frameDone with
  | true =>
    rw [step_done hb hd] at h
    cases h
    exact closeStep_effect s
  | false =>
    obtain ⟨i, u, -, hs, hstep, hread⟩ := step_busy hb hd
    rw [hstep] at h
    have read : LocalEffect s u := by
      rw [hread.1]
      exact ⟨⟨rfl, rfl, rfl, rfl, hread.sticky, _, Lit.none _ _⟩, rfl, rfl⟩
    exact read.toEffect.trans (exec_effect h (token_ne_init hs))

theorem frameStart_rl {s : State} (h : s.cfg.scheme ≠ .qt) : frameStart s = rlStart s := by
  unfold frameStart
  cases hs : s.cfg.scheme with
  | escRl => rfl
  | tagRl => rfl
  | qt => exact absurd hs h

theorem frameStart_qt {s : State} (h : s.cfg.scheme = .qt) : frameStart s = qtStart s := by
  unfold frameStart
  rw [h]

/-- A surface write by the host at a byte that the surface has. -/
theorem hostWrite_onSurface {y c : Nat} {s : State} (hi : s.inited = true) (hon : s.onSurface y c = true) (v : Byte) :
    hostWrite y c v s = .ok (s.putSurf (memWrite s.surf (surfKey y c) v)) := by
  unfold hostWrite surfWrite
  rw [if_pos hi, if_pos hon]

/-- A surface write by the host at a byte that the surface does not have (20_memory.md R70). -/
theorem hostWrite_offSurface {y c : Nat} {s : State} (hi : s.inited = true) (hoff : s.onSurface y c = false) (v : Byte) :
    hostWrite y c v s = .error .surfaceRange := by
  unfold hostWrite surfWrite
  rw [if_pos hi, hoff]
  rfl

/-- Settles O55: no act is taken while a STEP is in progress; between steps the host's oldest act is done. -/
theorem hostActsOnlyBetweenSteps : Obligations.HostActsOnlyBetweenSteps := by
  unfold Obligations.HostActsOnlyBetweenSteps
  refine ⟨fun s t hb h => (step_busy_effect hb h).host, fun s hb hh => ?idle, fun s a rest hb hh => ?init,
    fun s rest hb hh => ⟨fun hi hp => ?begin, fun hi => ?early⟩,
    fun s y c v rest hb hh hi hm => ⟨fun hon => ?write, fun hoff => ?off⟩⟩
  case idle => rw [step_idle hb, hostStep, hh]
  case init => rw [step_idle hb, hostStep, hh]; rfl
  case begin =>
    have started : Machine.step s = .next (frameStart (openStep { s with host := rest })) := by
      rw [step_idle hb, hostStep, hh]
      exact beginStep_eq (s := { s with host := rest }) hi hb hp
    refine ⟨_, execWload_eq hi, fun hq => ?_, fun hq => ?_⟩
    · rw [started, frameStart_rl (by exact hq)]
      rfl
    · rw [started, frameStart_qt (by exact hq)]
      rfl
  case early =>
    rw [step_idle hb, hostStep, hh]
    exact whenReady_not (s := { s with host := rest }) hi _
  case write =>
    refine ⟨({ s with host := rest } : State).putSurf (memWrite s.surf (surfKey y c) v), ?_, rfl,
      memRead_memWrite_same hm _ _, fun a ha => memRead_memWrite_other _ _ ha⟩
    rw [step_idle hb, hostStep, hh]
    exact congrArg outcome (hostWrite_onSurface (s := { s with host := rest }) hi hon v)
  case off =>
    rw [step_idle hb, hostStep, hh]
    exact congrArg outcome (hostWrite_offSurface (s := { s with host := rest }) hi hoff v)

end Machine

end Sys2Proof
end

section
/-! SUPPORT. The invariant: it holds at reset, every machine step keeps it, and under it a STEP in progress never stops
(10_state.md, 42_chunk_streamer.md R155 to R161, 44_quadtree_decoder.md R208, 46_player_control.md R247). -/

namespace Sys2Proof.Machine

/-- Settles O57: nothing has been initialised and no STEP is in progress. -/
theorem resetMeetsTheInvariant : Obligations.ResetMeetsTheInvariant :=
  ⟨reset_asset_wf, reset_surf_wf, fun h => (Bool.false_ne_true h).elim, fun h => (Bool.false_ne_true h).elim⟩

/-! ### The player's registers -/

/-- What the player's registers need does not depend on any other register. -/
theorem Ready.of_eq {s t : State} (h : Ready s) (hcfg : t.cfg = s.cfg) (hsize : t.assetSize = s.assetSize) (hfc : t.fc = s.fc)
    (hpix : t.pix.length = s.pix.length) (hphase : t.phase = s.phase) (hcur : t.cursor = s.cursor) : Ready t := by
  refine ⟨by rw [hcfg]; exact h.cfgLegal, by rw [hcfg, hsize]; exact h.assetSize, by rw [hcfg, hfc]; exact h.counter,
    by rw [hcfg, hpix]; exact h.pixels, fun hp => ?_, fun hp => ?_⟩
  · rw [hcur, hfc]
    exact h.idle (hphase ▸ hp)
  · rw [hfc]
    exact h.streaming (hphase ▸ hp)

/-- In FAULT the phase asks nothing of the cursor and the counter. -/
theorem Ready.of_fault {s t : State} (h : Ready s) (hcfg : t.cfg = s.cfg) (hsize : t.assetSize = s.assetSize) (hfc : t.fc = s.fc)
    (hpix : t.pix.length = s.pix.length) (hphase : t.phase = .fault) : Ready t := by
  have notIdle : t.phase ≠ .idle := by rw [hphase]; decide
  have notStreaming : t.phase ≠ .streaming := by rw [hphase]; decide
  exact ⟨by rw [hcfg]; exact h.cfgLegal, by rw [hcfg, hsize]; exact h.assetSize, by rw [hcfg, hfc]; exact h.counter,
    by rw [hcfg, hpix]; exact h.pixels, fun hp => absurd hp notIdle, fun hp => absurd hp notStreaming⟩

theorem clearedPix_length (c : Cfg) : (clearedPix c).length = c.pixCount := List.length_replicate

/-- The registers after a frame is counted, whatever the cursor is. -/
theorem countFrame_ready {s : State} (hlegal : s.cfg.legal = true) (hsize : s.cfg.assetSize = s.assetSize)
    (hfc : s.fc < s.cfg.nframes) (hpix : s.pix.length = s.cfg.pixCount) : Ready (countFrame s) := by
  unfold countFrame
  dsimp only
  split
  next hlast =>
    exact ⟨hlegal, hsize, Nat.zero_lt_of_lt hfc, clearedPix_length _, fun _ => ⟨rfl, rfl⟩, fun hp => by cases hp⟩
  next hmore =>
    exact ⟨hlegal, hsize, Nat.lt_of_le_of_ne hfc hmore, hpix, (fun hp => by cases hp), fun _ => Nat.succ_pos _⟩

theorem closeStep_ready {s : State} (h : Ready s) : Ready (closeStep s) :=
  Ready.of_eq (countFrame_ready (s := (wcommit s).dropWindow) h.cfgLegal h.assetSize h.counter h.pixels) rfl rfl rfl rfl rfl rfl

theorem initialise_ready {c : Cfg} {s : State} (hlegal : c.legal = true) (hsize : c.assetSize = s.assetSize) :
    Ready (initialise c s) :=
  ⟨hlegal, hsize, (wf_iff.mp (legal_wf hlegal)).2.2.1, clearedPix_length c, fun _ => ⟨rfl, rfl⟩, fun hp => by cases hp⟩

/-! ### The pending rectangles (44_quadtree_decoder.md R208) -/

theorem stackOk_cons {c : Cfg} {r : QNode} {rest : List QNode} :
    stackOk c (r :: rest) ↔ (r.d ≤ c.qtMaxDepth ∧ rest.length ≤ 3 * r.d ∧ c.inside r = true) ∧ stackOk c rest := Iff.rfl

/-- Rectangles of one depth put on top of a stack, no more of them than that depth allows. -/
theorem stackOk_append {c : Cfg} {d : Nat} {rest : List QNode} (hrest : stackOk c rest) (hd : d ≤ c.qtMaxDepth) :
    ∀ qs : List QNode, (∀ q ∈ qs, q.d = d ∧ c.inside q = true) → qs.length + rest.length ≤ 3 * d + 1 → stackOk c (qs ++ rest) := by
  intro qs
  induction qs with
  | nil => intro _ _; exact hrest
  | cons q qs ih =>
    intro hqs hlen
    obtain ⟨hqd, hqin⟩ := hqs q List.mem_cons_self
    rw [List.length_cons] at hlen
    have below : (qs ++ rest).length ≤ 3 * q.d := by rw [List.length_append]; omega
    exact stackOk_cons.mpr ⟨⟨hqd.le.trans hd, below, hqin⟩, ih (fun p hp => hqs p (List.mem_cons_of_mem q hp)) (by omega)⟩

/-- A child to decode is one level deeper and inside the canvas. -/
theorem mem_children {c : Cfg} {r q : QNode} (hq : q ∈ c.children r) (hin : c.inside r = true) :
    q.d = r.d + 1 ∧ c.inside q = true := by
  have four : q = r.tl ∨ q = r.tr ∨ q = r.bl ∨ q = r.br := by
    simpa using List.mem_of_mem_filter hq
  refine ⟨?_, child_inside four hin⟩
  rcases four with rfl | rfl | rfl | rfl <;> rfl

/-- A split's children take the place of their parent. -/
theorem stackOk_children {c : Cfg} {r : QNode} {rest : List QNode} (h : stackOk c (r :: rest)) (hd : r.d < c.qtMaxDepth) :
    stackOk c (c.children r ++ rest) := by
  obtain ⟨⟨-, hlen, hin⟩, hrest⟩ := stackOk_cons.mp h
  have four : (c.children r).length ≤ 4 := List.length_filter_le _ _
  exact stackOk_append hrest hd _ (fun q hq => mem_children hq hin) (by omega)

theorem frameOk_rl {s : State} (h : s.cfg.scheme ≠ .qt) : s.frameOk ↔ s.pcnt ≤ s.cfg.npix := by
  unfold State.frameOk
  cases hs : s.cfg.scheme with
  | escRl => rfl
  | tagRl => rfl
  | qt => exact absurd hs h

theorem frameOk_qt {s : State} (h : s.cfg.scheme = .qt) : s.frameOk ↔ stackOk s.cfg s.qstk := by
  unfold State.frameOk
  rw [h]

theorem frameDone_rl {s : State} (h : s.cfg.scheme ≠ .qt) : s.frameDone = decide (s.cfg.npix ≤ s.pcnt) := by
  unfold State.frameDone
  cases hs : s.cfg.scheme with
  | escRl => rfl
  | tagRl => rfl
  | qt => exact absurd hs h

theorem frameDone_qt {s : State} (h : s.cfg.scheme = .qt) : s.frameDone = s.qstk.isEmpty := by
  unfold State.frameDone
  rw [h]

/-! ### A token of a STEP in progress -/

/-- What a token that does not end the STEP may change: the cursor forward, STATUS, the draws, the decoders' registers, PIX but not
its size, and the surface. -/
structure TokenFrame (s t : State) : Prop where
  frame : t = { s with
    wcur := t.wcur, status := t.status, draws := t.draws, pcnt := t.pcnt, cls := t.cls, run := t.run, qstk := t.qstk,
    qdepth := t.qdepth, pix := t.pix, surf := t.surf }
  wcur  : s.wcur ≤ t.wcur
  pix   : t.pix.length = s.pix.length
  surf  : Mem.wf s.surf = true → Mem.wf t.surf = true

theorem InStep.of_token {s t : State} (h : InStep s) (k : TokenFrame s t) (hframe : t.frameOk) : InStep t := by
  have frame := k.frame
  have hcfg : t.cfg = s.cfg := by rw [frame]
  have hcur : t.cursor = s.cursor := by rw [frame]
  have hwoff : t.woff = s.woff := by rw [frame]
  have hso : t.so = s.so := by rw [frame]
  refine ⟨by rw [frame]; exact h.inited, by rw [frame]; exact h.phase, by rw [hwoff, hcur, hcfg]; exact h.woff,
    by rw [hso, hcur, hcfg]; exact h.so, ?_, by rw [hso]; exact Nat.le_trans h.wcur k.wcur, hframe⟩
  have hload : t.loadRange s.woff (windowLength s.cfg s.woff) = s.loadRange s.woff (windowLength s.cfg s.woff) :=
    loadRange_congr (by rw [frame]) _ _
  rw [hwoff, hcfg, hload, ← h.wbuf, frame]

/-- A token that does not end the STEP keeps the invariant, if it leaves its decoder within its frame. -/
theorem Inv.of_token {s t : State} (h : Inv s) (hb : s.busy = true) (k : TokenFrame s t) (hframe : t.frameOk) : Inv t := by
  have frame := k.frame
  have step := h.inStep hb
  refine ⟨by rw [frame]; exact h.asset, k.surf h.surf, fun _ => ?_, fun _ => step.of_token k hframe⟩
  exact (h.ready step.inited).of_eq (by rw [frame]) (by rw [frame]) (by rw [frame]) k.pix (by rw [frame]) (by rw [frame])

/-- Taking QTO keeps the invariant: the STEP is over. -/
theorem Inv.takeQto {s : State} (h : Inv s) : Inv s.takeQto :=
  ⟨h.asset, h.surf, fun hi => (h.ready hi).of_fault rfl rfl rfl rfl rfl, fun hb => by cases hb⟩

theorem ReadOnly.tokenFrame {s u : State} (h : ReadOnly s u) : TokenFrame s u := by
  have frame := h.1
  exact ⟨by rw [frame], by rw [frame], by rw [frame], fun hm => by rw [frame]; exact hm⟩

theorem ReadOnly.frameOk {s u : State} (h : ReadOnly s u) (hs : s.frameOk) : u.frameOk := by
  rw [h.1]
  exact hs

/-- The invariant does not depend on STATUS and the draws. -/
theorem Inv.of_readOnly {s u : State} (h : Inv s) (hb : s.busy = true) (k : ReadOnly s u) : Inv u :=
  h.of_token hb k.tokenFrame (k.frameOk (h.inStep hb).frame)

/-- A run token keeps the invariant. -/
theorem exec_run_inv {i : Instr} {n : Nat} {s t : State} (h : Inv s) (hb : s.busy = true) (hr : i.runLength? = some n)
    (hexec : exec i s = .next t) : Inv t := by
  obtain ⟨-, hq, -, happly⟩ := exec_run_next hr hexec
  obtain ⟨hstate, hlen, -, -, lit⟩ := applyRun_ok happly
  simp only [State.consume_cfg, State.consume_pcnt] at hstate
  have token : TokenFrame s t := by
    refine ⟨?_, ?_, hlen, lit.wf⟩
    · rw [hstate]
      rfl
    · rw [hstate]
      exact Nat.le_add_right _ _
  have hcfg : t.cfg = s.cfg := by rw [hstate]
  have hpcnt : t.pcnt = s.pcnt + min n (s.cfg.npix - s.pcnt) := by rw [hstate]
  have bound := (frameOk_rl hq).mp (h.inStep hb).frame
  exact h.of_token hb token ((frameOk_rl (by rw [hcfg]; exact hq)).mpr (by rw [hcfg, hpcnt]; omega))

/-- The state in which a quadtree token has its effect keeps the invariant, whatever proper stack the token leaves. -/
theorem Inv.popped {s : State} (h : Inv s) (hb : s.busy = true) (hq : s.cfg.scheme = .qt) {stk : List QNode}
    (hstk : stackOk s.cfg stk) (w d : Nat) : Inv { s with wcur := s.wcur + w, qstk := stk, qdepth := d } :=
  h.of_token hb ⟨rfl, Nat.le_add_right _ _, rfl, id⟩
    ((frameOk_qt (s := { s with wcur := s.wcur + w, qstk := stk, qdepth := d }) hq).mpr hstk)

/-- A quadtree token keeps the invariant. -/
theorem exec_qt_inv {i : Instr} {s t : State} (h : Inv s) (hb : s.busy = true) (hs : i.scheme? = some .qt)
    (hq : s.cfg.scheme = .qt) (hexec : exec i s = .next t) : Inv t := by
  have stack := (frameOk_qt hq).mp (h.inStep hb).frame
  cases i <;> cases hs
  case qsplit =>
    obtain ⟨r, rest, hstk, hk⟩ := qtToken_next hexec
    rw [hstk] at stack
    unfold splitTop at hk
    split at hk
    case isTrue =>
      cases hk
      exact (h.popped hb hq stack.2 1 r.d).takeQto
    case isFalse hd =>
      cases hk
      exact h.popped hb hq (stackOk_children stack (Nat.not_le.mp hd)) 1 r.d
  case qleafBg =>
    obtain ⟨r, rest, hstk, hk⟩ := qtToken_next hexec
    rw [hstk] at stack
    cases hk
    exact h.popped hb hq stack.2 2 r.d
  case qleafFg =>
    obtain ⟨r, rest, hstk, hk⟩ := qtToken_next hexec
    rw [hstk] at stack
    obtain ⟨hstate, lit⟩ := fillRect_ok _ (outcome_next.mp hk)
    have token : TokenFrame s t := ⟨by rw [hstate], by rw [hstate]; exact Nat.le_add_right _ _, by rw [hstate], lit.wf⟩
    have hcfg : t.cfg = s.cfg := by rw [hstate]
    have hqstk : t.qstk = rest := by rw [hstate]
    exact h.of_token hb token ((frameOk_qt (by rw [hcfg]; exact hq)).mpr (by rw [hcfg, hqstk]; exact stack.2))

/-- A token of a run-length scheme is a run token. -/
theorem runLength_of_scheme {i : Instr} {sch : Scheme} (hs : i.scheme? = some sch) (hq : sch ≠ .qt) :
    ∃ n, i.runLength? = some n := by
  cases i <;> cases hs
  case qsplit => exact absurd rfl hq
  case qleafBg => exact absurd rfl hq
  case qleafFg => exact absurd rfl hq
  all_goals exact ⟨_, rfl⟩

/-- A token of the active scheme keeps the invariant. -/
theorem exec_token_inv {i : Instr} {s t : State} (h : Inv s) (hb : s.busy = true) (hs : i.scheme? = some s.cfg.scheme)
    (hexec : exec i s = .next t) : Inv t := by
  by_cases hq : s.cfg.scheme = .qt
  · exact exec_qt_inv h hb (by rw [hs, hq]) hq hexec
  · obtain ⟨n, hr⟩ := runLength_of_scheme hs hq
    exact exec_run_inv h hb hr hexec

/-! ### The machine's step -/

theorem closeStep_inv {s : State} (h : Inv s) (hb : s.busy = true) : Inv (closeStep s) := by
  obtain ⟨-, hasset, -, hbusy, -, -, -, hsurf, -⟩ := closeStep_keeps s
  refine ⟨by rw [hasset]; exact h.asset, by rw [hsurf]; exact h.surf, fun _ => closeStep_ready (h.ready (h.inStep hb).inited),
    fun hb' => ?_⟩
  rw [hbusy] at hb'
  cases hb'

/-- The decoder set up at the start of a frame. -/
theorem frameStart_cases (s : State) : (s.cfg.scheme ≠ .qt ∧ frameStart s = rlStart s) ∨
    (s.cfg.scheme = .qt ∧ frameStart s = qtStart s) := by
  by_cases hq : s.cfg.scheme = .qt
  · exact .inr ⟨hq, frameStart_qt hq⟩
  · exact .inl ⟨hq, frameStart_rl hq⟩

theorem root_stackOk (c : Cfg) : stackOk c [c.root] := ⟨⟨Nat.zero_le _, Nat.le_refl _, root_inside c⟩, trivial⟩

theorem frameStart_inv {s : State} (h : Inv s) (hi : s.inited = true) (hp : s.phase ≠ .fault) :
    Inv (frameStart (openStep s)) := by
  have loaded {t : State} (ht : t.asset = s.asset) :
      s.loadRange (s.cursor / s.cfg.upb) (windowLength s.cfg (s.cursor / s.cfg.upb)) =
        t.loadRange (s.cursor / s.cfg.upb) (windowLength s.cfg (s.cursor / s.cfg.upb)) := (loadRange_congr ht _ _).symm
  rcases frameStart_cases (openStep s) with ⟨hq, hstart⟩ | ⟨hq, hstart⟩ <;> rw [hstart]
  · exact ⟨h.asset, h.surf, fun _ => (h.ready hi).of_eq rfl rfl rfl rfl rfl rfl, fun _ =>
      ⟨hi, hp, rfl, rfl, loaded rfl, Nat.le_refl _, (frameOk_rl (s := rlStart (openStep s)) hq).mpr (Nat.zero_le _)⟩⟩
  · exact ⟨h.asset, h.surf, fun _ => (h.ready hi).of_eq rfl rfl rfl rfl rfl rfl, fun _ =>
      ⟨hi, hp, rfl, rfl, loaded rfl, Nat.le_refl _, (frameOk_qt (s := qtStart (openStep s)) hq).mpr (root_stackOk _)⟩⟩

/-- The host's list is no part of the invariant. -/
theorem Inv.setHost {s : State} (h : Inv s) (acts : List HostAct) : Inv { s with host := acts } :=
  ⟨h.asset, h.surf, fun hi => (h.ready hi).of_eq rfl rfl rfl rfl rfl rfl, fun hb =>
    have step := h.inStep hb
    have loaded := loadRange_congr (s := s) (t := { s with host := acts }) rfl (windowLength s.cfg s.woff) s.woff
    ⟨step.inited, step.phase, step.woff, step.so, step.wbuf.trans loaded.symm, step.wcur, step.frame⟩⟩

theorem beginStep_inv {s t : State} (h : Inv s) (hstep : beginStep s = .next t) : Inv t := by
  unfold beginStep at hstep
  obtain ⟨hi, hstep⟩ := whenReady_next.mp hstep
  split_ifs at hstep with hb hp
  · cases hstep
    exact h
  · cases hstep
    exact frameStart_inv h hi hp

theorem exec_init_inv {a : InitArgs} {s t : State} (h : Inv s) (hinit : exec (.init a) s = .next t) : Inv t := by
  obtain ⟨hb, c, hderive, rfl⟩ := exec_init_next hinit
  have hsize : c.assetSize = s.assetSize := by
    obtain ⟨sch, -, rfl, -⟩ := derive_ok hderive
    rfl
  refine ⟨h.asset, h.surf, fun _ => initialise_ready (derive_legal hderive) hsize, fun hb' => ?_⟩
  rw [show (initialise c s).busy = s.busy from rfl, hb] at hb'
  cases hb'

/-- A surface write by the host keeps the invariant: the memory stays canonical. -/
theorem hostWrite_inv {y c : Nat} {v : Byte} {s t : State} (h : Inv s) (hb : s.busy = false)
    (hwrite : hostWrite y c v s = .ok t) : Inv t := by
  rw [hostWrite_ok hwrite]
  refine ⟨h.asset, memWrite_wf h.surf _ _, fun hi => (h.ready hi).of_eq rfl rfl rfl rfl rfl rfl, fun hb' => ?_⟩
  rw [State.putSurf_busy, hb] at hb'
  cases hb'

theorem hostStep_inv {s t : State} (h : Inv s) (hb : s.busy = false) (hstep : hostStep s = .next t) : Inv t := by
  unfold hostStep at hstep
  split at hstep
  next =>
    cases hstep
    exact h
  next a acts _ => exact exec_init_inv (h.setHost acts) hstep
  next acts _ => exact beginStep_inv (h.setHost acts) hstep
  next y c v acts _ => exact hostWrite_inv (h.setHost acts) hb (outcome_next.mp hstep)

/-- Settles O58: the end of a STEP, a token of it, or an act of the host. -/
theorem stepKeepsTheInvariant : Obligations.StepKeepsTheInvariant := by
  unfold Obligations.StepKeepsTheInvariant
  intro s t h hstep
  cases hb : s.busy with
  | false =>
    rw [step_idle hb] at hstep
    exact hostStep_inv h hb hstep
  | true =>
    cases hd : s.frameDone with
    | true =>
      rw [step_done hb hd] at hstep
      cases hstep
      exact closeStep_inv h hb
    | false =>
      obtain ⟨i, u, -, hs, hexec, hread⟩ := step_busy hb hd
      rw [hexec] at hstep
      have hbu : u.busy = true := by rw [hread.1]; exact hb
      exact exec_token_inv (h.of_readOnly hb hread) hbu (by rw [hread.cfg]; exact hs) hstep

/-! ### Progress -/

/-- A run token of a STEP in progress completes. -/
theorem exec_run_completes {i : Instr} {n : Nat} {s : State} (h : Inv s) (hb : s.busy = true) (hwf : i.wf = true)
    (hs : i.scheme? = some s.cfg.scheme) (hr : i.runLength? = some n) : ∃ t, exec i s = .next t := by
  have hi := (h.inStep hb).inited
  have ready := h.ready hi
  have hpix : s.cfg.npix ≤ s.pix.length := by
    rw [ready.pixels, pixCount_eq, if_neg (runLength_scheme hr hs)]
    exact Nat.le_refl _
  obtain ⟨t, ht⟩ := applyRun_inside (n := n) (s := s.consume (encode i).length) (legal_wf ready.cfgLegal) hpix
  exact ⟨t, by rw [exec_run_eq hi hwf hr hs, ht]; rfl⟩

/-- A quadtree token of a STEP in progress completes while a rectangle is pending. -/
theorem exec_qt_completes {i : Instr} {s : State} (h : Inv s) (hb : s.busy = true) (hd : s.frameDone = false)
    (hs : i.scheme? = some .qt) (hq : s.cfg.scheme = .qt) : ∃ t, exec i s = .next t := by
  have step := h.inStep hb
  have stack := (frameOk_qt hq).mp step.frame
  obtain ⟨r, rest, hstk⟩ : ∃ r rest, s.qstk = r :: rest := by
    rw [frameDone_qt hq, List.isEmpty_eq_false_iff] at hd
    exact List.exists_cons_of_ne_nil hd
  rw [hstk] at stack
  have token (w : Nat) (k : QNode → State → Out) := qtToken_eq step.inited hq hstk w k
  cases i <;> cases hs
  case qsplit =>
    have whole : exec .qsplit s = _ := token 1 splitTop
    rw [whole, splitTop]
    split
    · exact ⟨_, rfl⟩
    · exact ⟨_, rfl⟩
  case qleafBg => exact ⟨_, token 2 fun _ t => .next t⟩
  case qleafFg =>
    have whole : exec .qleafFg s = _ := token 2 fun r t => outcome (fillRect r.x r.w r.h r.y t)
    obtain ⟨t, ht, -⟩ := fillRect_rectangle (s := { s with wcur := s.wcur + 2, qstk := rest, qdepth := r.d })
      (legal_wf (h.ready step.inited).cfgLegal) stack.1.2.2
    exact ⟨t, by rw [whole, ht]; rfl⟩

/-- Settles O59: the end of a STEP always completes, and the fetch finds a token of the scheme, which completes. -/
theorem busyBlockNeverStops : Obligations.BusyBlockNeverStops := by
  unfold Obligations.BusyBlockNeverStops
  intro s h hb
  cases hd : s.frameDone with
  | true => exact ⟨_, step_done hb hd⟩
  | false =>
    obtain ⟨i, u, hwf, hs, hexec, hread⟩ := step_busy hb hd
    have hu := h.of_readOnly hb hread
    have hbu : u.busy = true := by rw [hread.1]; exact hb
    have hdu : u.frameDone = false := by rw [hread.1]; exact hd
    rw [← hread.cfg] at hs
    rw [hexec]
    by_cases hq : u.cfg.scheme = .qt
    · exact exec_qt_completes hu hbu hdu (by rw [hs, hq]) hq
    · obtain ⟨n, hr⟩ := runLength_of_scheme hs hq
      exact exec_run_completes hu hbu hwf hs hr

/-- A stack of pending rectangles is bounded by the depth limit. -/
theorem stackOk_length {c : Cfg} {stk : List QNode} (h : stackOk c stk) : stk.length ≤ 3 * c.qtMaxDepth + 1 := by
  cases stk with
  | nil => exact Nat.zero_le _
  | cons r rest =>
    obtain ⟨⟨hd, hlen, -⟩, -⟩ := stackOk_cons.mp h
    rw [List.length_cons]
    omega

/-- Settles O60: by the invariant's clause on the stack. -/
theorem workStackIsBounded : Obligations.WorkStackIsBounded := by
  unfold Obligations.WorkStackIsBounded
  intro s h hb hq
  exact stackOk_length ((frameOk_qt hq).mp (h.inStep hb).frame)

end Sys2Proof.Machine
end

section
/-! SUPPORT. A STEP run machine step by machine step: the token-by-token form of the runs and the work-stack form of the quadtree
are the frame decoders (43_run_length_decoder.md R180, 44_quadtree_decoder.md R208). -/

namespace Sys2Proof.Machine

/-! ### Runs of the machine -/

/-- A run begins with its first step. -/
theorem run_succ {M : Host.Core} {s u : M.State} (h : M.step s = .next u) (k : Nat) : M.run (k + 1) s = M.run k u := by
  simp only [Host.Core.run, h]

/-- Where a run that completes ends, a longer run goes on. -/
theorem run_add {M : Host.Core} {t : M.State} (m n : Nat) : ∀ {s : M.State}, M.run m s = .next t → M.run (m + n) s = M.run n t := by
  induction m with
  | zero =>
    intro s h
    cases h
    rw [Nat.zero_add]
  | succ m ih =>
    intro s h
    cases hstep : M.step s with
    | next v =>
      rw [run_succ hstep] at h
      rw [Nat.succ_add, run_succ hstep, ih h]
    | fault f => simp only [Host.Core.run, hstep, reduceCtorEq] at h
    | refused r => simp only [Host.Core.run, hstep, reduceCtorEq] at h

/-- Some number of machine steps leads from `s` to `t`. -/
def Reaches (s t : State) : Prop := ∃ k, (Host.Core.run Sys2Proof.core k s : Out) = .next t

theorem Reaches.refl (s : State) : Reaches s s := ⟨0, rfl⟩

theorem Reaches.head {s u t : State} (h : step s = .next u) (k : Reaches u t) : Reaches s t := by
  obtain ⟨n, hn⟩ := k
  exact ⟨n + 1, (run_succ (M := Sys2Proof.core) h n).trans hn⟩

theorem Reaches.single {s t : State} (h : step s = .next t) : Reaches s t := .head h (.refl t)

theorem Reaches.trans {s t u : State} (h : Reaches s t) (k : Reaches t u) : Reaches s u := by
  obtain ⟨m, hm⟩ := h
  obtain ⟨n, hn⟩ := k
  exact ⟨m + n, (run_add (M := Sys2Proof.core) m n hm).trans hn⟩

/-! ### The runs of a run-length frame -/

/-- The machine's step on a run-length frame that is not complete is one turn of RLFRAME's loop. -/
theorem step_run {s : State} (hi : s.inited = true) (hb : s.busy = true) (hq : s.cfg.scheme ≠ .qt) (hlt : s.pcnt < s.cfg.npix) :
    step s = outcome (applyRun (readInt s).1 (readInt s).2) := by
  obtain ⟨i, k, hwf, hs, hr, henc, -, -, hstate⟩ := readInt_token s hq
  have hk : (encode i).length = k := by rw [henc, readBits_length]
  subst hk
  have hd : s.frameDone = false := by rw [frameDone_rl hq, decide_eq_false (by omega)]
  have hread := readBits_readOnly (encode i).length s.bitPos s
  have consumed : (readBits (encode i).length s.bitPos s).2.consume (encode i).length = (readInt s).2 := by
    rw [hstate, hread.1]
    rfl
  rw [step_token hb hd hwf hs henc, exec_run_eq (by rw [hread.1]; exact hi) hwf hr (by rw [hread.cfg]; exact hs), consumed]

/-- A run-length frame that RLFRAME's loop decodes is decoded by machine steps. -/
theorem rlLoop_reaches (n : Nat) : ∀ {s t : State}, s.inited = true → s.busy = true → s.cfg.scheme ≠ .qt →
    rlLoop n s = .ok t → Reaches s t := by
  induction n with
  | zero =>
    intro s t _ _ _ h
    unfold rlLoop at h
    split at h <;> cases h
    exact .refl s
  | succ n ih =>
    intro s t hi hb hq h
    unfold rlLoop at h
    split at h
    next hlt =>
      split at h
      next u hu =>
        obtain ⟨i, k, -, -, -, -, -, -, hread⟩ := readInt_token s hq
        obtain ⟨hstate, -⟩ := applyRun_ok hu
        rw [hread] at hstate
        have hiu : u.inited = true := by rw [hstate]; exact hi
        have hbu : u.busy = true := by rw [hstate]; exact hb
        have hqu : u.cfg.scheme ≠ .qt := by rw [hstate]; exact hq
        refine .head ?_ (ih hiu hbu hqu h)
        rw [step_run hi hb hq hlt, hu]
        rfl
      · cases h
    next hge =>
      cases h
      exact .refl s

/-! ### The nodes of a quadtree frame -/

/-- Reading does not depend on the decoder's stack and depth, nor change them. -/
theorem readBits_stack (n p : Nat) (s : State) (stk : List QNode) (d : Nat) :
    readBits n p { s with qstk := stk, qdepth := d } =
      ((readBits n p s).1, { (readBits n p s).2 with qstk := stk, qdepth := d }) := by
  obtain ⟨hbits, hdraws, hstatus⟩ := readBits_congr n p (s := s) (t := { s with qstk := stk, qdepth := d }) rfl rfl rfl
  refine Prod.ext hbits ?_
  rw [(readBits_readOnly n p { s with qstk := stk, qdepth := d }).1, hdraws, hstatus]
  rw [(readBits_readOnly n p s).1]

/-- The same of a field. -/
theorem rd_stack (n : Nat) (s : State) (stk : List QNode) (d : Nat) :
    rd n { s with qstk := stk, qdepth := d } = ((rd n s).1, { (rd n s).2 with qstk := stk, qdepth := d }) := by
  have pos : ({ s with qstk := stk, qdepth := d } : State).bitPos = s.bitPos := rfl
  rw [rd_eq, rd_eq, pos, readBits_stack]

/-- A fill does not depend on the decoder's stack, nor change it. -/
theorem setFg_stack {x y : Nat} {s t : State} (h : setFg x y s = .ok t) (stk : List QNode) :
    setFg x y { s with qstk := stk } = .ok { t with qstk := stk } := by
  cases hon : s.onSurface (pixelRow s.cfg y) (pixelByte s.cfg x) with
  | false => rw [setFg_offSurface hon] at h; cases h
  | true =>
    rw [setFg_onSurface (s := { s with qstk := stk }) hon, setFg_ok h]
    rfl

theorem fillRow_stack (n : Nat) (stk : List QNode) : ∀ {x y : Nat} {s t : State}, fillRow n x y s = .ok t →
    fillRow n x y { s with qstk := stk } = .ok { t with qstk := stk } := by
  induction n with
  | zero =>
    intro x y s t h
    cases h
    rfl
  | succ n ih =>
    intro x y s t h
    unfold fillRow at h ⊢
    split at h
    next u hu =>
      rw [setFg_stack hu]
      exact ih h
    · cases h

theorem fillRect_stack {x w : Nat} (n : Nat) (stk : List QNode) : ∀ {y : Nat} {s t : State}, fillRect x w n y s = .ok t →
    fillRect x w n y { s with qstk := stk } = .ok { t with qstk := stk } := by
  induction n with
  | zero =>
    intro y s t h
    cases h
    rfl
  | succ n ih =>
    intro y s t h
    unfold fillRect at h ⊢
    split at h
    next u hu =>
      rw [fillRow_stack w stk hu]
      exact ih h
    · cases h

/-- A STEP of the quadtree scheme is in progress under the configuration `c`. -/
structure InFrame (c : Cfg) (s : State) : Prop where
  inited : s.inited = true
  busy   : s.busy = true
  cfg    : s.cfg = c
  qt     : c.scheme = .qt

theorem InFrame.decoded {c : Cfg} {s u : State} (h : InFrame c s) (k : Decoded s u) : InFrame c u := by
  obtain ⟨⟨P, drew⟩, -⟩ := k
  have frame := drew.frame
  exact ⟨by rw [frame]; exact h.inited, by rw [frame]; exact h.busy, by rw [frame]; exact h.cfg, h.qt⟩

theorem InFrame.scheme {c : Cfg} {s : State} (h : InFrame c s) : s.cfg.scheme = .qt := by rw [h.cfg, h.qt]

theorem InFrame.bpu {c : Cfg} {s : State} (h : InFrame c s) : s.cfg.bpu = 1 := (qt_scheme h.scheme).2

/-- A node's flag bit and the state after it, by the field read. -/
theorem flag_eq (r : QNode) (s : State) :
    flagBit r s = (rd 1 s).1 ∧ flagRead r s = { (rd 1 s).2 with qstk := s.qstk, qdepth := r.d } := by
  have read := rd_stack 1 s s.qstk r.d
  have value := congrArg Prod.fst read
  have state := congrArg Prod.snd read
  exact ⟨value, state⟩

/-- A leaf's colour bit and the state after it, by the field of both its bits. -/
theorem colour_eq {c : Cfg} {s : State} (h : InFrame c s) (r : QNode) :
    (rd 1 (flagRead r s)).1 = (streamBit (s.bitPos + 1) (streamBit s.bitPos s).2).1.toNat ∧
      (rd 1 (flagRead r s)).2 = { (rd 2 s).2 with qstk := s.qstk, qdepth := r.d } := by
  obtain ⟨hvalue, hstate⟩ := rd_rd 1 1 s (by rw [h.bpu])
  rw [(flag_eq r s).2, rd_stack]
  refine ⟨hvalue.trans ?_, ?_⟩
  · rw [readBits_one, readBits_one, ofBits_cons]
    simp
  · show { (rd 1 (rd 1 s).2).2 with qstk := s.qstk, qdepth := r.d } = _
    rw [hstate, rd_eq 2]

/-- The machine's step on a quadtree token whose bits are at the working cursor, the rectangle `r` on top. -/
theorem step_qtToken {c : Cfg} {s : State} {i : Instr} {k : QNode → State → Out} (h : InFrame c s) (r : QNode)
    (rest : List QNode) (hwf : i.wf = true) (hs : i.scheme? = some .qt)
    (hexec : ∀ v, exec i v = qtToken (encode i).length k v)
    (henc : encode i = (readBits (encode i).length s.bitPos s).1) :
    step { s with qstk := r :: rest } = k r { (rd (encode i).length s).2 with qstk := rest, qdepth := r.d } := by
  have hread := readBits_readOnly (encode i).length s.bitPos s
  have read : readBits (encode i).length s.bitPos { s with qstk := r :: rest } = _ :=
    readBits_stack (encode i).length s.bitPos s (r :: rest) s.qdepth
  have fetched := step_token (s := { s with qstk := r :: rest }) (i := i) h.busy (frameDone_qt (by exact h.scheme)) hwf
    (hs.trans (congrArg some h.scheme.symm)) (henc.trans (congrArg Prod.fst read).symm)
  have pos : ({ s with qstk := r :: rest } : State).bitPos = s.bitPos := rfl
  rw [fetched, pos, read, hexec, qtToken_eq (r := r) (rest := rest) (by rw [hread.1]; exact h.inited)
    (by rw [hread.1]; exact h.scheme) rfl, rd_eq, h.bpu, Nat.div_one]
  rw [hread.1]

/-- The machine's step where the flag bit is 1: the rectangle on top is split. -/
theorem step_split {c : Cfg} {s : State} (h : InFrame c s) {r : QNode} (rest : List QNode) (hflag : flagBit r s = 1) :
    step { s with qstk := r :: rest } = splitTop r { flagRead r s with qstk := rest } := by
  obtain ⟨hbit, hstate⟩ := flag_eq r s
  have bit : (streamBit s.bitPos s).1 = true := by
    rw [hbit, rd_one] at hflag
    exact Bool.toNat_eq_one.mp hflag
  rw [step_qtToken (i := .qsplit) h r rest rfl rfl (fun _ => rfl) (by simp [encode, readBits_one, bit]), hstate]
  rfl

/-- The machine's step where the flag bit is 0: the rectangle on top is a leaf. -/
theorem step_leaf {c : Cfg} {s : State} (h : InFrame c s) {r : QNode} (rest : List QNode) (hflag : flagBit r s ≠ 1) :
    step { s with qstk := r :: rest } =
      if (rd 1 (flagRead r s)).1 = 1 then
        outcome (fillRect r.x r.w r.h r.y { (rd 1 (flagRead r s)).2 with qstk := rest })
      else .next { (rd 1 (flagRead r s)).2 with qstk := rest } := by
  obtain ⟨hcolour, hstate⟩ := colour_eq h r
  have first : (streamBit s.bitPos s).1 = false := by
    rw [(flag_eq r s).1, rd_one] at hflag
    exact Bool.eq_false_iff.mpr fun hb => hflag (by rw [hb]; rfl)
  have bits : (readBits 2 s.bitPos s).1 = [false, (streamBit (s.bitPos + 1) (streamBit s.bitPos s).2).1] := by
    rw [readBits_succ, readBits_one, first]
  rw [hcolour, hstate]
  cases hsecond : (streamBit (s.bitPos + 1) (streamBit s.bitPos s).2).1 with
  | false =>
    rw [step_qtToken (i := .qleafBg) (k := fun _ t => .next t) h r rest rfl rfl (fun _ => rfl)
      (by rw [hsecond] at bits; exact bits.symm)]
    rfl
  | true =>
    rw [step_qtToken (i := .qleafFg) (k := fun r t => outcome (fillRect r.x r.w r.h r.y t)) h r rest rfl rfl (fun _ => rfl)
      (by rw [hsecond] at bits; exact bits.symm)]
    rfl

/-! ### The work stack follows the recursion -/

/-- The machine follows a walk from `a`: it reaches the walk's end, with `rest` pending where the walk is complete. -/
def Follows (a : State) (rest : List QNode) : Walk → Prop
  | .done u => Reaches a { u with qstk := rest }
  | .abort t => Reaches a t
  | .stop _ => True

theorem Follows.head {a b : State} {rest : List QNode} {w : Walk} (k : Follows b rest w) (h : step a = .next b) :
    Follows a rest w := by
  cases w with
  | done u => exact Reaches.head h k
  | abort t => exact Reaches.head h k
  | stop f => trivial

theorem Follows.trans {a b : State} {rest : List QNode} {w : Walk} (h : Reaches a b) (k : Follows b rest w) : Follows a rest w := by
  cases w with
  | done u => exact Reaches.trans h k
  | abort t => exact Reaches.trans h k
  | stop f => trivial

/-- One walk followed and then the next, where `mid` is pending between them. -/
theorem Follows.andThen {c : Cfg} {s a : State} {mid rest : List QNode} {w : Walk} {k : State → Walk} (hs : InFrame c s)
    (hw : Draws s w) (h : Follows a mid w) (hk : ∀ u, InFrame c u → Follows { u with qstk := mid } rest (k u)) :
    Follows a rest (w.andThen k) := by
  cases w with
  | done u => exact .trans h (hk u (hs.decoded hw))
  | abort t => exact h
  | stop f => trivial

/-- A leaf is followed by the machine's step on its token. -/
theorem qtLeaf_follows {c : Cfg} {s : State} (h : InFrame c s) {r : QNode} (rest : List QNode) (hflag : flagBit r s ≠ 1) :
    Follows { s with qstk := r :: rest } rest (qtLeaf r (flagRead r s)) := by
  have token := step_leaf h rest hflag
  unfold qtLeaf
  dsimp only
  split
  next hcolour =>
    rw [if_pos hcolour] at token
    cases hfill : fillRect r.x r.w r.h r.y (rd 1 (flagRead r s)).2 with
    | error f => trivial
    | ok u =>
      rw [fillRect_stack r.h rest hfill] at token
      exact Reaches.single token
  next hcolour =>
    rw [if_neg hcolour] at token
    exact Reaches.single token

/-- A child on top of the stack, if it carries a node. -/
def pend (c : Cfg) (q : QNode) (rest : List QNode) : List QNode := if c.visits q then q :: rest else rest

theorem children_pend (c : Cfg) (r : QNode) (rest : List QNode) :
    c.children r ++ rest = pend c r.tl (pend c r.tr (pend c r.bl (pend c r.br rest))) := by
  have one (q : QNode) (qs : List QNode) : (q :: qs).filter c.visits ++ rest = pend c q (qs.filter c.visits ++ rest) := by
    rw [List.filter_cons, pend]
    split <;> rfl
  rw [Cfg.children, one, one, one, one]
  rfl

theorem qtChild_draws (n : Nat) (q : QNode) (s : State) : Draws s (qtChild n q s) := by
  unfold qtChild
  split
  · exact qtNode_draws n q s
  · exact Decoded.refl s

theorem splitTop_tooDeep {r : QNode} {s : State} (h : s.cfg.qtMaxDepth ≤ r.d) : splitTop r s = .next s.takeQto := if_pos h

theorem splitTop_push {r : QNode} {s : State} (h : r.d < s.cfg.qtMaxDepth) :
    splitTop r s = .next { s with qstk := s.cfg.children r ++ s.qstk } := if_neg (Nat.not_le.mpr h)

/-- A node on top of the stack is decoded by machine steps as QTNODE decodes it. -/
theorem qtNode_follows {c : Cfg} (n : Nat) : ∀ {r : QNode} {s : State} (rest : List QNode), InFrame c s → n = c.qtMaxDepth - r.d →
    Follows { s with qstk := r :: rest } rest (qtNode n r s) := by
  induction n with
  | zero =>
    intro r s rest h hn
    by_cases hflag : flagBit r s = 1
    · have flagged := h.decoded (decoded_flag r s)
      have hdeep : ({ flagRead r s with qstk := rest } : State).cfg.qtMaxDepth ≤ r.d := by
        show (flagRead r s).cfg.qtMaxDepth ≤ r.d
        rw [flagged.cfg]
        omega
      rw [qtNode_tooDeep hflag]
      exact Reaches.single ((step_split h rest hflag).trans (splitTop_tooDeep hdeep))
    · rw [qtNode_leaf hflag]
      exact qtLeaf_follows h rest hflag
  | succ n ih =>
    intro r s rest h hn
    by_cases hflag : flagBit r s = 1
    · have flagged := h.decoded (decoded_flag r s)
      have hroom : r.d < ({ flagRead r s with qstk := rest } : State).cfg.qtMaxDepth := by
        show r.d < (flagRead r s).cfg.qtMaxDepth
        rw [flagged.cfg]
        omega
      have child {q : QNode} (hq : q.d = r.d + 1) (rest : List QNode) (u : State) (hu : InFrame c u) :
          Follows { u with qstk := pend c q rest } rest (qtChild n q u) := by
        unfold pend qtChild
        by_cases hv : c.visits q = true
        · rw [if_pos hv, if_pos (by rw [hu.cfg]; exact hv)]
          exact ih rest hu (by omega)
        · rw [if_neg hv, if_neg (by rw [hu.cfg]; exact hv)]
          exact Reaches.refl _
      have split : step { s with qstk := r :: rest } =
          .next { flagRead r s with qstk := pend c r.tl (pend c r.tr (pend c r.bl (pend c r.br rest))) } := by
        rw [step_split h rest hflag, splitTop_push hroom, ← children_pend, ← flagged.cfg]
      have draws₁ := qtChild_draws n r.tl (flagRead r s)
      have draws₂ := draws₁.andThen (qtChild_draws n r.tr)
      have draws₃ := draws₂.andThen (qtChild_draws n r.bl)
      have follows₁ := child (q := r.tl) rfl (pend c r.tr (pend c r.bl (pend c r.br rest))) _ flagged
      have follows₂ := follows₁.andThen flagged draws₁ (child (q := r.tr) rfl (pend c r.bl (pend c r.br rest)))
      have follows₃ := follows₂.andThen flagged draws₂ (child (q := r.bl) rfl (pend c r.br rest))
      have follows₄ := follows₃.andThen flagged draws₃ (child (q := r.br) rfl rest)
      rw [qtNode_split hflag]
      exact follows₄.head split
    · rw [qtNode_leaf hflag]
      exact qtLeaf_follows h rest hflag

/-! ### The whole STEP -/

/-- The run-length frame of a STEP by machine steps. -/
theorem rlFrame_reaches {s u : State} (hi : s.inited = true) (hb : s.busy = true) (hq : s.cfg.scheme ≠ .qt)
    (h : rlFrame s = .ok u) : Reaches (frameStart s) u ∧ u.busy = true ∧ u.frameDone = true := by
  obtain ⟨hfull, -, -, frame, -⟩ := rlFrame_ok hq h
  have hcfg : u.cfg = s.cfg := by rw [frame]
  refine ⟨?_, by rw [frame]; exact hb, ?_⟩
  · rw [frameStart_rl hq]
    exact rlLoop_reaches s.rlFuel (s := rlStart s) hi hb hq h
  · rw [frameDone_rl (by rw [hcfg]; exact hq), hcfg, hfull]
    exact decide_eq_true (Nat.le_refl _)

/-- The quadtree frame of a STEP by machine steps. -/
theorem qtFrame_follows {s : State} (hi : s.inited = true) (hb : s.busy = true) (hq : s.cfg.scheme = .qt) :
    Follows (frameStart s) [] (qtFrame s) := by
  rw [frameStart_qt hq]
  exact qtNode_follows (c := s.cfg) _ (s := { s with qstk := [] }) [] ⟨hi, hb, rfl, hq⟩ rfl

/-- A frame decoded to its end is decoded by machine steps, up to the step that closes it. -/
theorem wholeFrame_done_reaches {s u : State} (hi : s.inited = true) (hb : s.busy = true) (h : wholeFrame s = .done u) :
    Reaches (frameStart s) u ∧ u.busy = true ∧ u.frameDone = true := by
  by_cases hq : s.cfg.scheme = .qt
  · rw [wholeFrame_qt hq] at h
    have follows := qtFrame_follows hi hb hq
    have draws := qtFrame_draws s
    rw [h] at follows draws
    obtain ⟨⟨P, drew⟩, -⟩ := draws
    have frame := drew.frame
    have hcfg : u.cfg = s.cfg := by rw [frame]
    have hstk : u.qstk = [] := by rw [frame]
    have emptied : ({ u with qstk := [] } : State) = u := by rw [← hstk]
    rw [Follows, emptied] at follows
    refine ⟨follows, by rw [frame]; exact hb, ?_⟩
    rw [frameDone_qt (by rw [hcfg]; exact hq), hstk]
    rfl
  · rw [wholeFrame_rl hq] at h
    cases hf : rlFrame s with
    | error f => rw [hf] at h; cases h
    | ok v =>
      rw [hf] at h
      cases h
      exact rlFrame_reaches hi hb hq hf

/-- A frame that takes QTO is decoded by machine steps, the last of which takes it. -/
theorem wholeFrame_abort_reaches {s t : State} (hi : s.inited = true) (hb : s.busy = true) (h : wholeFrame s = .abort t) :
    Reaches (frameStart s) t := by
  obtain ⟨hq, -⟩ := wholeFrame_abort h
  have follows := qtFrame_follows hi hb hq
  rw [← wholeFrame_qt hq, h] at follows
  exact follows

/-- Settles O56: the first machine step takes the command and sets the decoder up; the frame's own steps follow the decoder; one
more closes the STEP, unless QTO has ended it. -/
theorem machineStepsMakeTheStep : Obligations.MachineStepsMakeTheStep := by
  unfold Obligations.MachineStepsMakeTheStep
  intro s t h
  obtain ⟨hi, hb⟩ := execStep_next h
  have taken : Machine.step { s with host := .step :: s.host } = beginStep s :=
    step_idle (s := { s with host := .step :: s.host }) hb
  by_cases hp : s.phase = .fault
  · rw [execStep_eq hi hb, if_pos hp] at h
    rw [beginStep_fault hi hb hp] at taken
    cases h
    exact Reaches.single taken
  · rw [beginStep_eq hi hb hp] at taken
    rcases exec_step_cases hp h with ⟨u, hw, rfl⟩ | hw
    · obtain ⟨reached, hbu, hdu⟩ := wholeFrame_done_reaches (s := openStep s) hi rfl hw
      exact Reaches.head taken (reached.trans (.single (step_done hbu hdu)))
    · exact Reaches.head taken (wholeFrame_abort_reaches (s := openStep s) hi rfl hw)

end Sys2Proof.Machine
end
